-- ==== Sys2Proof/Word.lean ====
section
/-!
DEFINITION. Words of the FFT_radix2_complex core and their plainest operations.

The core has one data width: 64-bit words (`00_scope.md` R7, R14; `20_memory.md` R71, R72). Integer operand registers
are 32 bits wide (`10_state.md` R40), a host offset lies in a 2 MiB region, so it has 21 bits (`20_memory.md` R70).
-/

namespace Sys2Proof

/-- One byte of a word, as a platform bridge splits it (`20_memory.md` R72). -/
abbrev Byte := BitVec 8

/-- A 64-bit word: a CSR value, a DMEM word or a command word. -/
abbrev Word := BitVec 64

/-- A 32-bit integer operand register (`10_state.md` R40). -/
abbrev Reg32 := BitVec 32

/-- A 64-bit pattern read as an IEEE 754 binary64 value (`00_scope.md` R14). -/
abbrev F64 := BitVec 64

/-- A byte offset in the core's 2 MiB region, `0 ≤ off < 0x20_0000` (`20_memory.md` R70). -/
abbrev Offset := BitVec 21

/-- A vector: a finite list of binary64 values, element `i` counted from 0 (`00_scope.md` R9). -/
abbrev Vec := List F64

end Sys2Proof
end

