-- ==== Sys2Proof/Config.lean ====
section
/-!
DEFINITION. The configuration: what an implementation fixes (`00_scope.md` R5, R6; `20_memory.md` R70).

* `Params` holds the OPEN size parameters and CORE_BASE. They are plain data and every state carries them
  (`State.params`), so a statement about every state is a statement about every configuration. No step changes them.
* `Config.expRaw`, `Config.logRaw`, `Config.powRaw`, `Config.sinRaw` and `Config.nanDrawRaw` are FREE: opaque constants
  with no body. Nothing in Lean can evaluate them; a theorem that mentions them holds for every choice.
  `Machine/Numerics.lean` puts the laws of R6, and nothing else, on top of them.
-/

namespace Sys2Proof

/-- The size parameters of `00_scope.md` R5 and the base address of `20_memory.md` R70. -/
structure Params where
  /-- `DMEM_WORDS`: number of 64-bit words of data memory. -/
  dmemWords : Nat
  /-- `LMAX`: largest FFT length a command accepts. -/
  lmax : Nat
  /-- `MMAX`: largest cepstral order a command accepts. -/
  mmax : Nat
  /-- `CORE_BASE`: host address of the region's offset 0 (the platform's choice). -/
  coreBase : Nat
  deriving DecidableEq, Repr

/-- The example configuration of `00_scope.md` R5 and `95_test_vectors.md` §1, which `State.reset` carries
(DESIGN CHOICE, `notes/assumptions/1.md`: the spec leaves the sizes and the base OPEN). -/
def Params.exampleConfig : Params :=
  { dmemWords := 4096, lmax := 1024, mmax := 512, coreBase := 0 }

/-- FREE (`00_scope.md` R6): the parameter `EXP` away from ±0. `notes/assumptions/2.md`. -/
opaque Config.expRaw : BitVec 64 → BitVec 64

/-- FREE (`00_scope.md` R6): the parameter `LOG` away from +1. `notes/assumptions/2.md`. -/
opaque Config.logRaw : BitVec 64 → BitVec 64

/-- FREE (`00_scope.md` R6): the parameter `POW` away from the base +1. `notes/assumptions/2.md`. -/
opaque Config.powRaw : BitVec 64 → BitVec 64 → BitVec 64

/-- FREE (`00_scope.md` R6): the parameter `SIN`, under no law. `notes/assumptions/2.md`. -/
opaque Config.sinRaw : BitVec 64 → BitVec 64

/-- FREE (`00_scope.md` R12): the draw `NAN_DRAW`. The argument names the operation that returned the NaN: its place in
the command's evaluation, and the count of commands completed before (`State.draws`), so that no two operations share
a draw. `notes/assumptions/3.md`. -/
opaque Config.nanDrawRaw : List Nat → BitVec 64

end Sys2Proof
end

