-- ==== Sys2Proof/Machine/Float.lean ====
section
/-!
DEFINITION. IEEE 754 binary64 arithmetic on bit patterns (`00_scope.md` R8, R10 to R14).

Every operation is computed exactly on natural numbers and rounded once, to nearest with ties to even. Subnormals are
kept, overflow gives an infinity, no flag is kept (R11). An operation that returns a NaN returns the pattern `d` it is
given: `Machine/Numerics.lean` supplies the draw (R12).
-/

namespace Sys2Proof.Machine

/-- A binary64 pattern taken apart (`00_scope.md` R14). `fin s m e` is the value `(-1)^s · m · 2^(e − 1074)`. -/
inductive Unpacked where
  | nan
  | inf (sign : Bool)
  | fin (sign : Bool) (mant : Nat) (exp : Nat)
  deriving DecidableEq, Repr

/-- The sign bit, bit 63 (`00_scope.md` R14). -/
def F64.sign (x : F64) : Bool := x.msb

/-- Bits [62:0]: the biased exponent and the fraction as one number. -/
def F64.magnitude (x : F64) : Nat := x.toNat % 2 ^ 63

/-- `+0.0` or, with the sign set, `−0.0`. -/
def F64.zero (s : Bool) : F64 := if s then 0x8000000000000000#64 else 0#64

/-- `+∞` or `−∞`. -/
def F64.inf (s : Bool) : F64 := if s then 0xFFF0000000000000#64 else 0x7FF0000000000000#64

/-- A pattern with exponent field all ones and a nonzero fraction. -/
def F64.isNaN (x : F64) : Bool := 0x7FF0000000000000 < F64.magnitude x

/-- Neither a NaN nor an infinity. -/
def F64.isFinite (x : F64) : Bool := F64.magnitude x < 0x7FF0000000000000

/-- `+0.0` or `−0.0`. -/
def F64.isZero (x : F64) : Bool := F64.magnitude x == 0

/-- Fields of a pattern (`00_scope.md` R14: exponent bits [62:52] with bias 1023, fraction bits [51:0]). -/
def F64.unpack (x : F64) : Unpacked :=
  let e := F64.magnitude x / 2 ^ 52
  let f := F64.magnitude x % 2 ^ 52
  if e = 2047 then (if f = 0 then .inf (F64.sign x) else .nan)
  else if e = 0 then .fin (F64.sign x) f 0
  else .fin (F64.sign x) (2 ^ 52 + f) (e - 1)

/-- `m / 2^r` rounded to the nearest natural number, ties to even (`00_scope.md` R10). -/
def F64.shiftRoundEven (m r : Nat) : Nat :=
  let q := m / 2 ^ r
  let rem := m % 2 ^ r
  if 2 ^ r < 2 * rem then q + 1
  else if 2 * rem = 2 ^ r then q + q % 2
  else q

/-- A magnitude with sign `s`; at or above the largest finite value's successor it is an infinity (R11). -/
def F64.pack (s : Bool) (mag : Nat) : F64 :=
  if 0x7FF0000000000000 ≤ mag then F64.inf s
  else BitVec.ofNat 64 (mag + if s then 2 ^ 63 else 0)

/-- The binary64 value nearest to `(-1)^s · m · 2^e / 2^b`, ties to even; `m = 0` gives the zero of sign `s`.
`m` is first scaled by `2^64`, so that at least 12 bits are dropped. The kept mantissa `n` has 53 bits, or fewer at the
subnormal exponent; adding it to the exponent field carries a rounded-up mantissa into the exponent. -/
def F64.round (s : Bool) (m e b : Nat) : F64 :=
  if m = 0 then F64.zero s
  else
    let m' := m * 2 ^ 64
    let b' := b + 64
    let r := max (m'.log2 - 52) (b' - 1074 - e)
    F64.pack s ((e + r - (b' - 1074)) * 2 ^ 52 + F64.shiftRoundEven m' r)

/-- The integer `k` as binary64, exact for `k ≤ 2^53` (`00_scope.md` R8). -/
def F64.ofNat (k : Nat) : F64 := F64.round false k 1074 1074

/-- Unary minus flips the sign bit and is exact (`00_scope.md` R10). -/
def F64.neg (x : F64) : F64 := x ^^^ 0x8000000000000000#64

/-- The sum of two finite values, given by sign, mantissa and exponent. An exact zero sum of opposite signs is `+0.0`. -/
def F64.addFinite (s₁ : Bool) (m₁ e₁ : Nat) (s₂ : Bool) (m₂ e₂ : Nat) : F64 :=
  let e := min e₁ e₂
  let a := m₁ * 2 ^ (e₁ - e)
  let b := m₂ * 2 ^ (e₂ - e)
  if s₁ = s₂ then F64.round s₁ (a + b) e 1074
  else if a = b then F64.zero false
  else if b < a then F64.round s₁ (a - b) e 1074
  else F64.round s₂ (b - a) e 1074

/-- `x + y` (`00_scope.md` R10); `d` where the result is a NaN. -/
def F64.add (d x y : F64) : F64 :=
  match F64.unpack x, F64.unpack y with
  | .nan, _ => d
  | _, .nan => d
  | .inf s, .inf t => if s = t then F64.inf s else d
  | .inf s, .fin _ _ _ => F64.inf s
  | .fin _ _ _, .inf t => F64.inf t
  | .fin s m e, .fin t n f => F64.addFinite s m e t n f

/-- `x − y` (`00_scope.md` R10). -/
def F64.sub (d x y : F64) : F64 := F64.add d x (F64.neg y)

/-- `x * y` (`00_scope.md` R10). -/
def F64.mul (d x y : F64) : F64 :=
  match F64.unpack x, F64.unpack y with
  | .nan, _ => d
  | _, .nan => d
  | .inf s, .inf t => F64.inf (s != t)
  | .inf s, .fin t n _ => if n = 0 then d else F64.inf (s != t)
  | .fin s m _, .inf t => if m = 0 then d else F64.inf (s != t)
  | .fin s m e, .fin t n f => F64.round (s != t) (m * n) (e + f) 2148

/-- The quotient of two nonzero finite values: 120 quotient bits and a sticky bit, rounded once. -/
def F64.divFinite (s : Bool) (m e n f : Nat) : F64 :=
  let q := m * 2 ^ 120 / n
  let sticky := if m * 2 ^ 120 % n = 0 then 0 else 1
  F64.round s (2 * q + sticky) (e + 1074) (f + 121 + 1074)

/-- `x / y` (`00_scope.md` R10). -/
def F64.div (d x y : F64) : F64 :=
  match F64.unpack x, F64.unpack y with
  | .nan, _ => d
  | _, .nan => d
  | .inf _, .inf _ => d
  | .inf s, .fin t _ _ => F64.inf (s != t)
  | .fin s _ _, .inf t => F64.zero (s != t)
  | .fin s m e, .fin t n f =>
    if n = 0 then (if m = 0 then d else F64.inf (s != t))
    else if m = 0 then F64.zero (s != t)
    else F64.divFinite (s != t) m e n f

/-- The place of a value that is no NaN on the number line: equal for `+0.0` and `−0.0`. -/
def F64.key (x : F64) : Int :=
  if F64.sign x then -(F64.magnitude x : Int) else (F64.magnitude x : Int)

/-- IEEE equality: `+0 == −0`, a NaN equals nothing (`00_scope.md` R10). -/
def F64.eq (x y : F64) : Bool := !F64.isNaN x && (!F64.isNaN y && F64.key x == F64.key y)

/-- IEEE `<`, false when an operand is a NaN (`60_exceptions.md` R236). -/
def F64.lt (x y : F64) : Bool := !F64.isNaN x && (!F64.isNaN y && decide (F64.key x < F64.key y))

/-- IEEE `≤`, false when an operand is a NaN (`60_exceptions.md` R236). -/
def F64.le (x y : F64) : Bool := !F64.isNaN x && (!F64.isNaN y && decide (F64.key x ≤ F64.key y))

/-- The NaN pattern a draw selects: exponent all ones, the draw's sign and fraction, the fraction 1 where the draw's is
0. Every NaN pattern is selected by itself, so the draw is under no law (`00_scope.md` R12). -/
def F64.nanOf (draw : Word) : F64 :=
  let x := draw ||| 0x7FF0000000000000#64
  if F64.isNaN x then x else x ||| 1#64

/-- The literal `0.0`. -/
def F64.lit0 : F64 := 0x0000000000000000#64

/-- The literal `0.5`. -/
def F64.litHalf : F64 := 0x3FE0000000000000#64

/-- The literal `1.0`. -/
def F64.lit1 : F64 := 0x3FF0000000000000#64

/-- The literal `2.0`. -/
def F64.lit2 : F64 := 0x4000000000000000#64

/-- The literal `−1.0`. -/
def F64.litNeg1 : F64 := 0xBFF0000000000000#64

/-- `PI`, the binary64 value nearest to π (`00_scope.md` R13). -/
def F64.pi : F64 := 0x400921FB54442D18#64

end Sys2Proof.Machine
end

