-- ==== Sys2Proof/Machine/Numerics.lean ====
section
/-!
DEFINITION. The numeric parameters of `00_scope.md` R6 as an argument of every pure function, and the operations of
R10 with R12's draw supplied.
-/

namespace Sys2Proof.Machine

/-- The numeric parameters a model takes as arguments (`00_scope.md` R6): EXP, LOG, POW, SIN and NAN_DRAW. A draw is
indexed by the place of the operation that returned the NaN, so that different operations have independent draws. -/
structure Numerics where
  exp : F64 → F64
  log : F64 → F64
  pow : F64 → F64 → F64
  sin : F64 → F64
  nanDraw : List Nat → Word

/-- The same parameters, for the `k`-th part of an evaluation: its NaN draws are those of the places under `k`. -/
def Numerics.at (N : Numerics) (k : Nat) : Numerics :=
  { N with nanDraw := fun place => N.nanDraw (k :: place) }

/-- The NaN an operation at this place returns (`00_scope.md` R12). -/
def Numerics.nan (N : Numerics) : F64 := F64.nanOf (N.nanDraw [])

/-- `x + y`. -/
def Numerics.add (N : Numerics) (x y : F64) : F64 := F64.add N.nan x y

/-- `x − y`. -/
def Numerics.sub (N : Numerics) (x y : F64) : F64 := F64.sub N.nan x y

/-- `x * y`. -/
def Numerics.mul (N : Numerics) (x y : F64) : F64 := F64.mul N.nan x y

/-- `x / y`. -/
def Numerics.div (N : Numerics) (x y : F64) : F64 := F64.div N.nan x y

/-- A function's result: where it is a NaN, its sign and payload are the draw (`00_scope.md` R12). -/
def Numerics.drawn (N : Numerics) (r : F64) : F64 := if F64.isNaN r then N.nan else r

/-- `EXP(x)` with R12's draw. -/
def Numerics.expAt (N : Numerics) (x : F64) : F64 := N.drawn (N.exp x)

/-- `LOG(x)` with R12's draw. -/
def Numerics.logAt (N : Numerics) (x : F64) : F64 := N.drawn (N.log x)

/-- `POW(x, y)` with R12's draw. -/
def Numerics.powAt (N : Numerics) (x y : F64) : F64 := N.drawn (N.pow x y)

/-- `SIN(x)` with R12's draw. -/
def Numerics.sinAt (N : Numerics) (x : F64) : F64 := N.drawn (N.sin x)

/-- The laws a model may assume, and no others (`00_scope.md` R6). -/
structure Numerics.Lawful (N : Numerics) : Prop where
  exp_zero : ∀ s, N.exp (F64.zero s) = F64.lit1
  log_one : N.log F64.lit1 = F64.lit0
  pow_one : ∀ y, N.pow F64.lit1 y = F64.lit1

/-- The machine's numeric parameters: arbitrary functions that obey the laws of `00_scope.md` R6. Any functions that
obey them are reached by choosing the free constants of `Config.lean` equal to them. -/
def numerics : Numerics :=
  { exp := fun x => if F64.isZero x then F64.lit1 else Config.expRaw x
    log := fun x => if x = F64.lit1 then F64.lit0 else Config.logRaw x
    pow := fun x y => if x = F64.lit1 then F64.lit1 else Config.powRaw x y
    sin := Config.sinRaw
    nanDraw := Config.nanDrawRaw }

end Sys2Proof.Machine
end

