-- ==== Sys2Proof/Syntax.lean ====
section
/-!
DEFINITION. The command set: one constructor per row of `spec/opcode_table.json` (`30_encoding.md` R102).

No constructor has an argument: "No operand is held in the command word. A command takes every operand from the operand
registers, latched at the CMD write" (`30_encoding.md` R100). The operands are `Machine.Operands`.
-/

namespace Sys2Proof

/-- The 12 commands of the core, in the order of their opcodes (`00_scope.md` R2, `30_encoding.md` R102). -/
inductive Instr where
  /-- No operation (`42_control.md` R215). -/
  | nop
  /-- In-place radix-2 complex FFT (`41_spectral.md` R177). -/
  | fft
  /-- Real-input FFT (`41_spectral.md` R178). -/
  | rfft
  /-- Frequency warp, forward variant (`40_cepstral.md` R137). -/
  | freqt
  /-- Frequency warp, unscaled variant (`40_cepstral.md` R138). -/
  | freqtu
  /-- Generalized cepstrum conversion (`40_cepstral.md` R139). -/
  | gc2gc
  /-- Gain normalization (`40_cepstral.md` R140). -/
  | gnorm
  /-- Gain denormalization (`40_cepstral.md` R141). -/
  | ignorm
  /-- Mel-generalized cepstrum conversion (`40_cepstral.md` R142). -/
  | mgc2mgc
  /-- Cepstrum to spectrum (`41_spectral.md` R179). -/
  | c2sp
  /-- Mel-generalized cepstrum to spectrum (`41_spectral.md` R180). -/
  | mgc2sp
  /-- Power spectrum (`41_spectral.md` R181). -/
  | powsp
  deriving DecidableEq, Repr

/-- Every command, in opcode order. -/
def Instr.all : List Instr :=
  [.nop, .fft, .rfft, .freqt, .freqtu, .gc2gc, .gnorm, .ignorm, .mgc2mgc, .c2sp, .mgc2sp, .powsp]

end Sys2Proof
end

