-- ==== Sys2Proof/WellFormed.lean ====
section
/-!
DEFINITION. Well-formedness: of a configuration (`00_scope.md` R5) and of a command word (`30_encoding.md` R107).

A term of `Instr` has no operand, so every term is well formed (`Instr.wellFormed`). Whether the OPERANDS of a command
are legal is not a matter of form: any value may be stored in an operand register (`10_state.md` R40, R41), and the
checks at issue decide (`60_exceptions.md` R231; `Machine/Operands.lean`).
-/

namespace Sys2Proof

/-- `n = 2^k` for an integer `k ≥ 0`. -/
def isPowerOfTwo (n : Nat) : Bool := n != 0 && n == 2 ^ n.log2

/-- R5, row DMEM_WORDS: a power of two, `2^8 ≤ DMEM_WORDS ≤ 2^17`. -/
def Params.dmemOk (p : Params) : Bool :=
  isPowerOfTwo p.dmemWords && (2 ^ 8 ≤ p.dmemWords && p.dmemWords ≤ 2 ^ 17)

/-- R5, row LMAX: a power of two, `4 ≤ LMAX ≤ 2^16`, `2·LMAX ≤ DMEM_WORDS`. -/
def Params.lmaxOk (p : Params) : Bool :=
  isPowerOfTwo p.lmax && (4 ≤ p.lmax && (p.lmax ≤ 2 ^ 16 && 2 * p.lmax ≤ p.dmemWords))

/-- R5, row MMAX: `LMAX/2 ≤ MMAX ≤ 65535`, `MMAX + 1 ≤ DMEM_WORDS`. -/
def Params.mmaxOk (p : Params) : Bool :=
  p.lmax / 2 ≤ p.mmax && (p.mmax ≤ 65535 && p.mmax + 1 ≤ p.dmemWords)

/-- A configuration the spec admits (`00_scope.md` R5). -/
def Params.wf (p : Params) : Bool := p.dmemOk && (p.lmaxOk && p.mmaxOk)

/-- Every term of `Instr` is well formed: it holds no field (`30_encoding.md` R100, R101). -/
def Instr.wellFormed (_ : Instr) : Bool := true

/-- A legal command word: OPC at most 0x0B and RSV = 0 (`30_encoding.md` R107). -/
def wordLegal (v : Word) : Bool :=
  v.extractLsb' 8 56 == 0#56 && v.extractLsb' 0 8 ≤ 0x0B#8

end Sys2Proof
end

