-- ==== Sys2Proof/Decode.lean ====
section
/-!
DEFINITION. Decoding and encoding of command words (`30_encoding.md` R100 to R102, R107), written from the opcode map.

A command is one 64-bit word: OPC in bits [7:0], RSV in bits [63:8], which must be 0. The decoder is total on all 2^64
words and on any list of bytes, and rejects by name.
-/

namespace Sys2Proof

/-- Why a decoder refuses (`30_encoding.md` R107: the word is illegal). -/
inductive DecodeError where
  /-- RSV ≠ 0. -/
  | reservedBits (rsv : BitVec 56)
  /-- RSV = 0 and OPC in 0x0C to 0xFF. -/
  | reservedOpcode (opc : Byte)
  /-- The bytes given are not exactly the eight of one word (`30_encoding.md` R101). -/
  | notOneWord (bytes : Nat)
  deriving DecidableEq, Repr

/-- The field OPC, bits [7:0] (`30_encoding.md` R100). -/
def opcField (v : Word) : Byte := v.extractLsb' 0 8

/-- The field RSV, bits [63:8] (`30_encoding.md` R100). -/
def rsvField (v : Word) : BitVec 56 := v.extractLsb' 8 56

/-- The opcode map's reading of OPC (`30_encoding.md` R102). -/
def decodeOpcode (opc : Byte) : Option Instr :=
  match opc.toNat with
  | 0x00 => some .nop
  | 0x01 => some .fft
  | 0x02 => some .rfft
  | 0x03 => some .freqt
  | 0x04 => some .freqtu
  | 0x05 => some .gc2gc
  | 0x06 => some .gnorm
  | 0x07 => some .ignorm
  | 0x08 => some .mgc2mgc
  | 0x09 => some .c2sp
  | 0x0A => some .mgc2sp
  | 0x0B => some .powsp
  | _ => none

/-- Decode one command word (`30_encoding.md` R101: "A decoder reads OPC and RSV and nothing else"). -/
def decodeWord (v : Word) : Except DecodeError Instr :=
  if rsvField v = 0#56 then
    match decodeOpcode (opcField v) with
    | some i => .ok i
    | none => .error (.reservedOpcode (opcField v))
  else .error (.reservedBits (rsvField v))

/-- The bytes of a word, the one at the lowest offset first: byte `k` is bits [8k+7:8k] (`20_memory.md` R72). -/
def wordBytes (v : Word) : List Byte :=
  (List.range 8).map fun k => v.extractLsb' (8 * k) 8

/-- The number whose little-endian bytes these are (`20_memory.md` R72). -/
def bytesValue : List Byte → Nat
  | [] => 0
  | b :: bs => b.toNat + 256 * bytesValue bs

/-- Decode a list of bytes: exactly the eight of one word (`30_encoding.md` R101, `20_memory.md` R72). -/
def decode (bytes : List Byte) : Except DecodeError Instr :=
  if bytes.length = 8 then decodeWord (BitVec.ofNat 64 (bytesValue bytes))
  else .error (.notOneWord bytes.length)

/-- The opcode of a command (`30_encoding.md` R102). -/
def opcodeOf : Instr → Byte
  | .nop => 0x00
  | .fft => 0x01
  | .rfft => 0x02
  | .freqt => 0x03
  | .freqtu => 0x04
  | .gc2gc => 0x05
  | .gnorm => 0x06
  | .ignorm => 0x07
  | .mgc2mgc => 0x08
  | .c2sp => 0x09
  | .mgc2sp => 0x0A
  | .powsp => 0x0B

/-- The command word: OPC with RSV = 0 (`30_encoding.md` R102, last column). -/
def encodeWord (i : Instr) : Word := 0#56 ++ opcodeOf i

/-- The bytes of the command word as they stand at rising offsets. -/
def encode (i : Instr) : List Byte := wordBytes (encodeWord i)

/-- The instruction the decoder reads from a table row's bits: `nbits` bits of `w`, zeros above, laid out as the eight
bytes of one word. A value that does not fit one word is no command (`30_encoding.md` R101). -/
def decodeTableWord (nbits w : Nat) : Option Instr :=
  if w % 2 ^ nbits < 2 ^ 64 then
    match decode (wordBytes (BitVec.ofNat 64 (w % 2 ^ nbits))) with
    | .ok i => some i
    | .error _ => none
  else none

end Sys2Proof
end

