-- ==== Sys2Proof/Machine/State.lean ====
section
/-!
DEFINITION. The state of the core (`10_state.md` R30, R52), as plain data, and its value after power-on reset.

The machine is the core together with what drives it: the host's accesses still to come are plain data in the state
(`State.inputs`), in which the engine's turns and resets are interleaved, so that every run of `70_reset_and_hazards.md`
R270 is one value of that list. A step is one atomic step of R270.
-/

namespace Sys2Proof.Machine

/-- The operand registers (`10_state.md` R40, R41): six 32-bit integers, four 64-bit patterns read as binary64. -/
structure Operands where
  aBase : Reg32
  bBase : Reg32
  cBase : Reg32
  m1 : Reg32
  m2 : Reg32
  len : Reg32
  fa1 : F64
  fg1 : F64
  fa2 : F64
  fg2 : F64
  deriving DecidableEq, Repr

/-- `LATCH` (`10_state.md` R46, `42_control.md` R211): the command word and the operands as they stood at the CMD
write. -/
structure Latch where
  cmd : Word
  ops : Operands
  deriving DecidableEq, Repr

/-- The engine (`10_state.md` R47): IDLE, or BUSY holding LATCH (`42_control.md` R212). LATCH is defined only while BUSY
(R46), and STATUS.BUSY is a view of this field (R47), not a second copy. -/
inductive Engine where
  | idle
  | busy (latch : Latch)
  deriving DecidableEq, Repr

/-- The stored fields of STATUS (`10_state.md` R36). BUSY is read from the engine; reserved bits read 0. -/
structure Status where
  done : Bool
  err : Bool
  ovr : Bool
  hosterr : Bool
  errcode : BitVec 8
  lastop : BitVec 8
  deriving DecidableEq, Repr

/-- What a host access asks of the port (`20_memory.md` R70). -/
inductive PortOp where
  | read
  | write (data : Word)
  deriving DecidableEq, Repr

/-- How a host access ended (`20_memory.md` R70): OK or ERROR, and for a read the 64 bits of data. -/
inductive PortResponse where
  | read (error : Bool) (data : Word)
  | write (error : Bool)
  deriving DecidableEq, Repr

/-- One coming step (`70_reset_and_hazards.md` R270). -/
inductive Event where
  /-- The host accesses `bytes` bytes at host address `addr` (`20_memory.md` R70, R71). -/
  | bus (addr : Nat) (bytes : Nat) (op : PortOp)
  /-- The engine is given the step: its completion falls here if it is BUSY (`42_control.md` R214). -/
  | engine
  /-- The reset input is asserted (`70_reset_and_hazards.md` R260). -/
  | reset
  deriving DecidableEq, Repr

/-- Data memory (`10_state.md` R44, R45): the written bytes, each at its byte offset in the core's region
(`20_memory.md` R72, R73), offsets strictly rising. A byte that is not listed is unwritten: it has NO value. -/
abbrev Memory := List Host.Cell

/-- The state of the machine. -/
structure State where
  /-- The configuration (`00_scope.md` R5): constant, no step changes it. -/
  params : Params
  /-- CTRL.IE (`10_state.md` R35); CTRL's other bits read 0. -/
  ie : Bool
  /-- STATUS (`10_state.md` R36). -/
  status : Status
  /-- The operand registers (`10_state.md` R40, R41). -/
  operands : Operands
  /-- The engine, with LATCH while BUSY (`10_state.md` R46, R47). -/
  engine : Engine
  /-- DMEM (`10_state.md` R44). -/
  mem : Memory
  /-- MAXFFTSIZE (`10_state.md` R50): the size the sine table was last built for. -/
  maxFftSize : Nat
  /-- The response of the last host access on the port, `none` before the first (`20_memory.md` R70). -/
  port : Option PortResponse
  /-- MODEL'S OWN: the steps still to come, the next one first (`70_reset_and_hazards.md` R270). -/
  inputs : List Event
  /-- MODEL'S OWN: commands completed, read and advanced by the NaN draws (`00_scope.md` R12). -/
  draws : Nat
  deriving DecidableEq, Repr

/-- Why the machine stops. Every constructor is SAFE: the model stops where hardware would go on. -/
inductive Fault where
  /-- Raised by a host read of a DMEM word `w` that nothing has written (`10_state.md` R45,
  `93_implementation_defined.md` U8: `fault`). Safe. -/
  | unwrittenRead (w : Nat)
  /-- Raised by a completion step whose input buffer holds the unwritten word `w` (`10_state.md` R45, U8). Safe. -/
  | unwrittenInput (w : Nat)
  /-- Raised by a command access to word `w` that DMEM does not have. The ADDR_RANGE check (`60_exceptions.md` R237)
  keeps every issued command from it; only a state no run reaches raises it. Safe. -/
  | outsideDmem (w : Nat)
  /-- Raised by a completion step whose LATCH holds the illegal command word `v`. The ILLEGAL_OPCODE check
  (`60_exceptions.md` R233) keeps every run from it. Safe. -/
  | illegalLatch (v : Word)
  deriving DecidableEq, Repr

/-- Why an instruction has no meaning. -/
inductive Refusal where
  /-- Raised by `exec` for a command without a meaning; safe. No arm of this model uses it. -/
  | notModelled (mnemonic : String)
  deriving DecidableEq, Repr

/-- Every operand register after reset: zero (`10_state.md` R52, `70_reset_and_hazards.md` R260). -/
def Operands.reset : Operands :=
  { aBase := 0, bBase := 0, cBase := 0, m1 := 0, m2 := 0, len := 0, fa1 := 0, fg1 := 0, fa2 := 0, fg2 := 0 }

/-- STATUS after reset: every field zero (`10_state.md` R52). -/
def Status.reset : Status :=
  { done := false, err := false, ovr := false, hosterr := false, errcode := 0, lastop := 0 }

/-- The machine right after power-on, in the configuration `p`: every register zero, the engine IDLE, no DMEM word
written (`10_state.md` R45, R52; `70_reset_and_hazards.md` R260), no host access yet made or waiting. -/
def State.powerOn (p : Params) : State :=
  { params := p, ie := false, status := Status.reset, operands := Operands.reset, engine := .idle, mem := [],
    maxFftSize := 0, port := none, inputs := [], draws := 0 }

/-- The machine right after reset, in the example configuration of `00_scope.md` R5 (`notes/assumptions/1.md`). -/
def State.reset : State := State.powerOn Params.exampleConfig

end Sys2Proof.Machine
end

