-- ==== Sys2Proof/Machine/Flags.lean ====
section
/-!
DEFINITION. Every flag of the core: the STATUS word, its write-1-to-clear update, the error codes, and the interrupt
output (`10_state.md` R35 to R37, R48, R51; `60_exceptions.md` R230, R241). No command computes a flag from data (R51).
-/

namespace Sys2Proof.Machine

/-- STATUS.BUSY: 1 in BUSY and 0 in IDLE (`10_state.md` R47). -/
def Engine.isBusy : Engine → Bool
  | .idle => false
  | .busy _ => true

/-- The interrupt output, a level: `IRQ = CTRL.IE AND STATUS.DONE` (`10_state.md` R48, `60_exceptions.md` R241). -/
def irq (s : State) : Bool := s.ie && s.status.done

/-- The 64-bit word a read of STATUS returns (`10_state.md` R36), most significant field first. -/
def statusWord (e : Engine) (st : Status) : Word :=
  0#40 ++ st.lastop ++ st.errcode ++ 0#3 ++ BitVec.ofBool st.hosterr ++ BitVec.ofBool st.ovr ++ BitVec.ofBool st.err
    ++ BitVec.ofBool st.done ++ BitVec.ofBool e.isBusy

/-- A host write of `v` to STATUS (`10_state.md` R37): each 1 in bits 1 to 4 clears its bit, a 1 in bit 2 also clears
ERRCODE, and nothing is ever set. This is how the host returns from an error report (`60_exceptions.md` R243). -/
def Status.clear (st : Status) (v : Word) : Status :=
  { st with
    done := st.done && !v.getLsbD 1
    err := st.err && !v.getLsbD 2
    ovr := st.ovr && !v.getLsbD 3
    hosterr := st.hosterr && !v.getLsbD 4
    errcode := if v.getLsbD 2 then 0 else st.errcode }

/-- The report of the attempt starts afresh: LASTOP is the word's OPC; DONE, ERR and ERRCODE are 0; OVR and HOSTERR
stay (`42_control.md` R211, first four lines). -/
def Status.issued (st : Status) (v : Word) : Status :=
  { st with lastop := opcField v, done := false, err := false, errcode := 0 }

/-- `reject(code)` on the flags (`60_exceptions.md` R232). -/
def Status.rejected (st : Status) (code : BitVec 8) : Status :=
  { st with err := true, errcode := code, done := true }

/-- The completion step on the flags (`42_control.md` R214): DONE is set; BUSY falls with the engine. -/
def Status.completed (st : Status) : Status := { st with done := true }

/-- A CMD write while BUSY (`70_reset_and_hazards.md` R271). -/
def Status.overrun (st : Status) : Status := { st with ovr := true }

/-- A host access that gets the ERROR response (`20_memory.md` R76). -/
def Status.hostError (st : Status) : Status := { st with hosterr := true }

/-- The error codes of `60_exceptions.md` R230. -/
inductive ErrorCode where
  | illegalOpcode
  | badLength
  | badOrder
  | badParam
  | addrRange
  | overlap
  deriving DecidableEq, Repr

/-- The code STATUS.ERRCODE reports (`60_exceptions.md` R230). -/
def ErrorCode.code : ErrorCode → BitVec 8
  | .illegalOpcode => 0x01
  | .badLength => 0x02
  | .badOrder => 0x03
  | .badParam => 0x04
  | .addrRange => 0x05
  | .overlap => 0x06

end Sys2Proof.Machine
end

