-- ==== Sys2Proof/Machine/Operands.lean ====
section
/-!
DEFINITION. How each command takes its operands, which DMEM buffers it has, and the checks at issue
(`30_encoding.md` R103 to R106; `60_exceptions.md` R231 to R238).

A command's `Footprint` is its row in the tables of R103, R104, R235 and R236. The checks and the words a reset during
BUSY leaves unspecified (`70_reset_and_hazards.md` R262) are computed from it.
-/

namespace Sys2Proof.Machine

/-- A buffer `(b, k)`: the words `DMEM[b]` to `DMEM[b+k−1]` (`30_encoding.md` R104). -/
structure Buffer where
  base : Nat
  words : Nat
  deriving DecidableEq, Repr

/-- What a command uses of the latched operands. -/
structure Footprint where
  /-- The FFT length, for a command that uses LEN (`60_exceptions.md` R234). -/
  length : Option Nat
  /-- The order operands checked against MMAX (`60_exceptions.md` R235). -/
  orders : List Nat
  /-- C2SP's second BAD_ORDER condition, M1 ≥ LEN (`60_exceptions.md` R235). -/
  orderReachesLength : Bool
  /-- The warping constants checked (`60_exceptions.md` R236). -/
  warps : List F64
  /-- The generalization exponents checked (`60_exceptions.md` R236). -/
  exponents : List F64
  /-- The input buffers; an in/out buffer stands here and in `outputs` (`30_encoding.md` R104). -/
  inputs : List Buffer
  /-- The output buffers (`30_encoding.md` R104). -/
  outputs : List Buffer
  deriving DecidableEq, Repr

/-- NOP reads no operand and has no buffer (`30_encoding.md` R103, R104). -/
def nopFootprint (_ : Operands) : Footprint :=
  { length := none, orders := [], orderReachesLength := false, warps := [], exponents := [], inputs := [],
    outputs := [] }

/-- FFT: X and Y, both in/out, of LEN words (`41_spectral.md` R177). -/
def fftFootprint (o : Operands) : Footprint :=
  { length := some o.len.toNat, orders := [], orderReachesLength := false, warps := [], exponents := []
    inputs := [⟨o.aBase.toNat, o.len.toNat⟩, ⟨o.bBase.toNat, o.len.toNat⟩]
    outputs := [⟨o.aBase.toNat, o.len.toNat⟩, ⟨o.bBase.toNat, o.len.toNat⟩] }

/-- RFFT: X in/out and Y out, of LEN words; Y is never read (`41_spectral.md` R178). -/
def rfftFootprint (o : Operands) : Footprint :=
  { length := some o.len.toNat, orders := [], orderReachesLength := false, warps := [], exponents := []
    inputs := [⟨o.aBase.toNat, o.len.toNat⟩]
    outputs := [⟨o.aBase.toNat, o.len.toNat⟩, ⟨o.bBase.toNat, o.len.toNat⟩] }

/-- FREQT: orders M1 and M2, warping constant FA1 (`40_cepstral.md` R137). -/
def freqtFootprint (o : Operands) : Footprint :=
  { length := none, orders := [o.m1.toNat, o.m2.toNat], orderReachesLength := false, warps := [o.fa1], exponents := []
    inputs := [⟨o.aBase.toNat, o.m1.toNat + 1⟩], outputs := [⟨o.bBase.toNat, o.m2.toNat + 1⟩] }

/-- FREQTU: as FREQT (`40_cepstral.md` R138). -/
def freqtuFootprint (o : Operands) : Footprint :=
  { length := none, orders := [o.m1.toNat, o.m2.toNat], orderReachesLength := false, warps := [o.fa1], exponents := []
    inputs := [⟨o.aBase.toNat, o.m1.toNat + 1⟩], outputs := [⟨o.bBase.toNat, o.m2.toNat + 1⟩] }

/-- GC2GC: orders M1 and M2, exponents FG1 and FG2 (`40_cepstral.md` R139). -/
def gc2gcFootprint (o : Operands) : Footprint :=
  { length := none, orders := [o.m1.toNat, o.m2.toNat], orderReachesLength := false, warps := []
    exponents := [o.fg1, o.fg2], inputs := [⟨o.aBase.toNat, o.m1.toNat + 1⟩]
    outputs := [⟨o.bBase.toNat, o.m2.toNat + 1⟩] }

/-- GNORM: order M1 for source and result, exponent FG1 (`40_cepstral.md` R140). -/
def gnormFootprint (o : Operands) : Footprint :=
  { length := none, orders := [o.m1.toNat], orderReachesLength := false, warps := [], exponents := [o.fg1]
    inputs := [⟨o.aBase.toNat, o.m1.toNat + 1⟩], outputs := [⟨o.bBase.toNat, o.m1.toNat + 1⟩] }

/-- IGNORM: as GNORM (`40_cepstral.md` R141). -/
def ignormFootprint (o : Operands) : Footprint :=
  { length := none, orders := [o.m1.toNat], orderReachesLength := false, warps := [], exponents := [o.fg1]
    inputs := [⟨o.aBase.toNat, o.m1.toNat + 1⟩], outputs := [⟨o.bBase.toNat, o.m1.toNat + 1⟩] }

/-- MGC2MGC: orders M1 and M2, warping constants FA1 and FA2, exponents FG1 and FG2 (`40_cepstral.md` R142). -/
def mgc2mgcFootprint (o : Operands) : Footprint :=
  { length := none, orders := [o.m1.toNat, o.m2.toNat], orderReachesLength := false, warps := [o.fa1, o.fa2]
    exponents := [o.fg1, o.fg2], inputs := [⟨o.aBase.toNat, o.m1.toNat + 1⟩]
    outputs := [⟨o.bBase.toNat, o.m2.toNat + 1⟩] }

/-- C2SP: order M1, which must be below LEN; X at B_BASE and Y at C_BASE (`41_spectral.md` R179). -/
def c2spFootprint (o : Operands) : Footprint :=
  { length := some o.len.toNat, orders := [o.m1.toNat], orderReachesLength := decide (o.len.toNat ≤ o.m1.toNat)
    warps := [], exponents := [], inputs := [⟨o.aBase.toNat, o.m1.toNat + 1⟩]
    outputs := [⟨o.bBase.toNat, o.len.toNat⟩, ⟨o.cBase.toNat, o.len.toNat⟩] }

/-- MGC2SP: order M1, FA1, FG1; X at B_BASE and Y at C_BASE (`41_spectral.md` R180). -/
def mgc2spFootprint (o : Operands) : Footprint :=
  { length := some o.len.toNat, orders := [o.m1.toNat], orderReachesLength := false, warps := [o.fa1]
    exponents := [o.fg1], inputs := [⟨o.aBase.toNat, o.m1.toNat + 1⟩]
    outputs := [⟨o.bBase.toNat, o.len.toNat⟩, ⟨o.cBase.toNat, o.len.toNat⟩] }

/-- POWSP: order M1, FA1, FG1; LEN/2 + 1 result words at B_BASE (`41_spectral.md` R181). -/
def powspFootprint (o : Operands) : Footprint :=
  { length := some o.len.toNat, orders := [o.m1.toNat], orderReachesLength := false, warps := [o.fa1]
    exponents := [o.fg1], inputs := [⟨o.aBase.toNat, o.m1.toNat + 1⟩]
    outputs := [⟨o.bBase.toNat, o.len.toNat / 2 + 1⟩] }

/-- Each command's footprint. -/
def footprint : Instr → Operands → Footprint
  | .nop => nopFootprint
  | .fft => fftFootprint
  | .rfft => rfftFootprint
  | .freqt => freqtFootprint
  | .freqtu => freqtuFootprint
  | .gc2gc => gc2gcFootprint
  | .gnorm => gnormFootprint
  | .ignorm => ignormFootprint
  | .mgc2mgc => mgc2mgcFootprint
  | .c2sp => c2spFootprint
  | .mgc2sp => mgc2spFootprint
  | .powsp => powspFootprint

/-- `bad_length(n)` (`60_exceptions.md` R234). -/
def badLength (p : Params) (n : Nat) : Bool := !isPowerOfTwo n || (n < 4 || p.lmax < n)

/-- BAD_ORDER (`60_exceptions.md` R235). -/
def badOrder (p : Params) (f : Footprint) : Bool := f.orders.any (fun m => p.mmax < m) || f.orderReachesLength

/-- A legal warping constant, `−1.0 < a < 1.0` in IEEE comparisons (`60_exceptions.md` R236). -/
def warpLegal (a : F64) : Bool := F64.lt F64.litNeg1 a && F64.lt a F64.lit1

/-- A legal generalization exponent, `−1.0 ≤ g ≤ 0.0` in IEEE comparisons (`60_exceptions.md` R236). -/
def exponentLegal (g : F64) : Bool := F64.le F64.litNeg1 g && F64.le g F64.lit0

/-- BAD_PARAM (`60_exceptions.md` R236). -/
def badParam (f : Footprint) : Bool := !f.warps.all warpLegal || !f.exponents.all exponentLegal

/-- A buffer reaches beyond DMEM: `k ≥ 1` and `b + k > DMEM_WORDS`, in unbounded integers (`60_exceptions.md` R237). -/
def Buffer.beyond (p : Params) (b : Buffer) : Bool := 1 ≤ b.words && p.dmemWords < b.base + b.words

/-- ADDR_RANGE (`60_exceptions.md` R237). -/
def outOfRange (p : Params) (f : Footprint) : Bool := (f.inputs ++ f.outputs).any (Buffer.beyond p)

/-- Two buffers share a word: `b1 < b2 + k2` and `b2 < b1 + k1` (`60_exceptions.md` R238). -/
def Buffer.shares (a b : Buffer) : Bool := a.base < b.base + b.words && b.base < a.base + a.words

/-- OVERLAP: the two output buffers of FFT, RFFT, C2SP or MGC2SP share a word (`60_exceptions.md` R238). -/
def outputsOverlap (f : Footprint) : Bool :=
  match f.outputs with
  | [x, y] => x.shares y
  | _ => false

/-- The checks after decoding, in the order of the code table (`60_exceptions.md` R231, lines 2 to 6). -/
def checkFootprint (p : Params) (f : Footprint) : Option ErrorCode :=
  if f.length.any (badLength p) then some .badLength
  else if badOrder p f then some .badOrder
  else if badParam f then some .badParam
  else if outOfRange p f then some .addrRange
  else if outputsOverlap f then some .overlap
  else none

/-- `CHECK(LATCH)`: the first code whose condition holds, `none` where none holds (`60_exceptions.md` R231). -/
def check (p : Params) (l : Latch) : Option ErrorCode :=
  match decodeWord l.cmd with
  | .error _ => some .illegalOpcode
  | .ok i => checkFootprint p (footprint i l.ops)

end Sys2Proof.Machine
end

