-- ==== Sys2Proof/Machine/Ops.lean ====
section
/-!
DEFINITION. The named operations: DMEM by byte, word and vector; the issue of a command with its acceptance and its
rejection; the completion step; the ERROR response; reset.
-/

namespace Sys2Proof.Machine

/-! ### DMEM (`10_state.md` R44, R45; `20_memory.md` R72, R81) -/

/-- Offset of the DMEM window in the core's region (`20_memory.md` R73). -/
def dmemWindow : Nat := 0x100000

/-- Offset of the byte `k` of DMEM word `w` (`10_state.md` R44, `20_memory.md` R72). -/
def byteOffset (w k : Nat) : Nat := dmemWindow + 8 * w + k

/-- The byte at offset `a`; `none` where nothing has written it (`10_state.md` R45). -/
def Memory.readByte (m : Memory) (a : Nat) : Option Byte :=
  match m with
  | [] => none
  | (b, v) :: rest => if b = a then some v else Memory.readByte rest a

/-- Write the byte at offset `a`, keeping the offsets strictly rising. -/
def Memory.writeByte (m : Memory) (a : Nat) (v : Byte) : Memory :=
  match m with
  | [] => [(a, v)]
  | (b, u) :: rest =>
    if a < b then (a, v) :: (b, u) :: rest
    else if a = b then (a, v) :: rest
    else (b, u) :: Memory.writeByte rest a v

/-- Word `w`; `none` where it is unwritten (`10_state.md` R45). Byte `k` is bits [8k+7:8k] (`20_memory.md` R72). -/
def Memory.readWord (m : Memory) (w : Nat) : Option Word :=
  match m.readByte (byteOffset w 0), m.readByte (byteOffset w 1), m.readByte (byteOffset w 2),
    m.readByte (byteOffset w 3), m.readByte (byteOffset w 4), m.readByte (byteOffset w 5),
    m.readByte (byteOffset w 6), m.readByte (byteOffset w 7) with
  | some b0, some b1, some b2, some b3, some b4, some b5, some b6, some b7 =>
    some (b7 ++ b6 ++ b5 ++ b4 ++ b3 ++ b2 ++ b1 ++ b0)
  | _, _, _, _, _, _, _, _ => none

/-- `DMEM[w] <- v`: all eight bytes (`20_memory.md` R72, R79). -/
def Memory.writeWord (m : Memory) (w : Nat) (v : Word) : Memory :=
  (List.range 8).foldl (fun m k => m.writeByte (byteOffset w k) (v.extractLsb' (8 * k) 8)) m

/-- Mark the `n` words from `b` on unwritten (`70_reset_and_hazards.md` R262). -/
def Memory.forget (m : Memory) (b n : Nat) : Memory :=
  m.filter fun c => !(byteOffset b 0 ≤ c.1 && c.1 < byteOffset (b + n) 0)

/-- Offsets strictly rise. -/
abbrev Memory.rising (m : Memory) : Prop := m.Pairwise fun c d => c.1 < d.1

/-- The canonical form of DMEM: offsets strictly rise, every offset lies in the DMEM window, and a word is written whole
or not at all (`20_memory.md` R71, R79). An unlisted byte reads as no value, so no entry can equal it, and equal contents
are equal lists. -/
abbrev Memory.wf (p : Params) (m : Memory) : Prop :=
  m.rising ∧ (∀ c ∈ m, dmemWindow ≤ c.1 ∧ c.1 < dmemWindow + 8 * p.dmemWords) ∧
    ∀ c ∈ m, (m.readWord ((c.1 - dmemWindow) / 8)).isSome

/-- `MemRead(b, n)`, or the first unwritten word (`00_scope.md` R9, `10_state.md` R45). -/
def Memory.readVec (m : Memory) (b : Nat) : Nat → Except Fault Vec
  | 0 => .ok []
  | n + 1 =>
    match m.readWord b with
    | none => .error (.unwrittenInput b)
    | some v =>
      match Memory.readVec m (b + 1) n with
      | .ok vs => .ok (v :: vs)
      | .error f => .error f

/-- `MemWrite(b, n, V)`, `n` being the length of `V`, in ascending order (`00_scope.md` R9, `20_memory.md` R81). -/
def Memory.writeVec (m : Memory) (b : Nat) : Vec → Memory
  | [] => m
  | v :: vs => Memory.writeVec (m.writeWord b v) (b + 1) vs

/-- A command's read of the buffer `(b, n)`. A word DMEM does not have stops the machine. -/
def memRead (p : Params) (m : Memory) (b n : Nat) : Except Fault Vec :=
  if Buffer.beyond p ⟨b, n⟩ then .error (.outsideDmem (max b p.dmemWords)) else m.readVec b n

/-- A command's write of the vector `V` from word `b` on. A word DMEM does not have stops the machine. -/
def memWrite (p : Params) (m : Memory) (b : Nat) (V : Vec) : Except Fault Memory :=
  if Buffer.beyond p ⟨b, V.length⟩ then .error (.outsideDmem (max b p.dmemWords)) else .ok (m.writeVec b V)

/-! ### Issue: taking a command, acceptance, rejection (`42_control.md` R211, R212; `60_exceptions.md` R232) -/

/-- `accept()`: the engine enters BUSY holding LATCH (`42_control.md` R212). -/
def accept (l : Latch) (s : State) : State := { s with engine := .busy l }

/-- `reject(code)`: the one way an error is reported (`60_exceptions.md` R232, R242). No DMEM word and no operand
register changes, and the engine stays IDLE. -/
def reject (c : ErrorCode) (s : State) : State := { s with status := s.status.rejected c.code }

/-- A taken CMD write of `v`, with the checks already reduced to their result on the latched operands
(`42_control.md` R211). -/
def issue (v : Word) (result : Option ErrorCode) (s : State) : State :=
  let s' := { s with status := s.status.issued v }
  match result with
  | none => accept ⟨v, s.operands⟩ s'
  | some c => reject c s'

/-! ### Completion (`42_control.md` R214) -/

/-- What a command does to DMEM at its completion: the numeric parameters, the configuration, the latched operands, and
DMEM before. -/
abbrev Body := Numerics → Params → Operands → Memory → Except Fault Memory

/-- MAXFFTSIZE grows to the largest FFT length used (`10_state.md` R50). -/
def grownFftSize (f : Footprint) (old : Nat) : Nat :=
  match f.length with
  | none => old
  | some n => max old n

/-- The completion step (`42_control.md` R214): the command's effect on DMEM, DONE set, the engine IDLE, all at once.
It writes no other CSR and no operand register. -/
def complete (f : Operands → Footprint) (body : Body) (l : Latch) (s : State) : Host.Outcome State Fault Refusal :=
  match body (numerics.at s.draws) s.params l.ops s.mem with
  | .error e => .fault e
  | .ok m =>
    .next { s with
      mem := m
      status := s.status.completed
      engine := .idle
      maxFftSize := grownFftSize (f l.ops) s.maxFftSize
      draws := s.draws + 1 }

/-- A command's two steps (`42_control.md` R210). IDLE: the host's CMD write of this command is taken and checked
(R211). BUSY: the engine completes this command with the latched operands (R214). -/
def runCommand (i : Instr) (f : Operands → Footprint) (body : Body) (s : State) : Host.Outcome State Fault Refusal :=
  match s.engine with
  | .idle => .next (issue (encodeWord i) (checkFootprint s.params (f s.operands)) s)
  | .busy l => complete f body l s

/-! ### The ERROR response and reset -/

/-- The ERROR response: HOSTERR is set, a read returns 0, a write stores nothing (`20_memory.md` R76). -/
def errorResponse (op : PortOp) (s : State) : State :=
  { s with
    status := s.status.hostError
    port := some (match op with
      | .read => .read true 0
      | .write _ => .write true) }

/-- DMEM after a reset (`70_reset_and_hazards.md` R261, R262): unchanged while IDLE; while BUSY every word of the output
buffers of the command in flight is unwritten. -/
def memAfterReset (e : Engine) (m : Memory) : Memory :=
  match e with
  | .idle => m
  | .busy l =>
    match decodeWord l.cmd with
    | .error _ => m
    | .ok i => (footprint i l.ops).outputs.foldl (fun m b => m.forget b.base b.words) m

/-- The reset event (`70_reset_and_hazards.md` R260). What the host has yet to do, the last port response and the count
of NaN draws are not the core's state and stay. -/
def resetCore (s : State) : State :=
  { s with
    ie := false
    status := Status.reset
    operands := Operands.reset
    engine := .idle
    mem := memAfterReset s.engine s.mem
    maxFftSize := 0 }

end Sys2Proof.Machine
end

