-- ==== Sys2Proof/Machine/Control.lean ====
section
/-!
DEFINITION. NOP (`42_control.md` R215).
-/

namespace Sys2Proof.Machine

/-- NOP's pseudocode: `(nothing)`. -/
def nopBody : Body := fun _ _ _ m => .ok m

/-- NOP goes through issue, BUSY and completion like every command, and does nothing else (`42_control.md` R215). -/
def execNop (s : State) : Host.Outcome State Fault Refusal := runCommand .nop nopFootprint nopBody s

end Sys2Proof.Machine
end

