-- ==== Sys2Proof/Machine/Cepstral.lean ====
section
/-!
DEFINITION. The cepstral commands (`40_cepstral.md`): the pure functions of R131 to R136 in the spec's evaluation order,
and the commands of R137 to R142.

`N` carries the numeric parameters (`00_scope.md` R6); `N.at k` names the place of an operation for its NaN draw (R12)
and changes nothing else. Every `+ − * /` is one rounded operation (R10).
-/

namespace Sys2Proof.Machine

/-- `V[i]` (`00_scope.md` R9). Every index the commands use is inside its vector; beyond it the value is +0.0. -/
def elem (V : Vec) (i : Nat) : F64 := V.getD i F64.lit0

/-- `zeros(n)` (`00_scope.md` R9). -/
def zeros (n : Nat) : Vec := List.replicate n F64.lit0

/-! ### Pure functions (`40_cepstral.md` R131 to R136) -/

/-- The general line of the warping recurrence, `g[j] <- d[j−1] + a * (d[j] − g[j−1])`, for the indices `j` of the list
`d[j], d[j+1], …`; `dp` is `d[j−1]` and `gp` is `g[j−1]` as just computed (R131, R132). -/
def warpTail (N : Numerics) (a : F64) (dp gp : F64) : Vec → Vec
  | [] => []
  | d :: ds =>
    let g := (N.at 0).add dp ((N.at 1).mul a ((N.at 2).sub d gp))
    g :: warpTail (N.at 3) a d g ds

/-- One pass of `FREQT_F` for the source coefficient `c`: from the old `g` (which becomes `d`) to the new one (R131). -/
def freqtPass (N : Numerics) (a b c : F64) : Vec → Vec
  | [] => []
  | d0 :: ds =>
    let g0 := (N.at 0).add c ((N.at 1).mul a d0)
    match ds with
    | [] => [g0]
    | d1 :: ds' =>
      let g1 := (N.at 2).add ((N.at 3).mul b d0) ((N.at 4).mul a d1)
      g0 :: g1 :: warpTail (N.at 5) a d1 g1 ds'

/-- The passes over the source coefficients, the list given highest index first. -/
def freqtPasses (N : Numerics) (a b : F64) : Vec → Vec → Vec
  | [], g => g
  | c :: cs, g => freqtPasses (N.at 1) a b cs (freqtPass (N.at 0) a b c g)

/-- `FREQT_F(c1, m1, m2, a)`, the forward frequency warping transform (R131). -/
def freqtF (N : Numerics) (c1 : Vec) (m1 m2 : Nat) (a : F64) : Vec :=
  let b := (N.at 0).sub F64.lit1 ((N.at 1).mul a a)
  freqtPasses (N.at 2) a b (c1.take (m1 + 1)).reverse (zeros (m2 + 1))

/-- One pass of `FREQTU_F`: `g[0] <- c1[i]`, and the general line from index 1 on (R132). -/
def freqtuPass (N : Numerics) (a c : F64) : Vec → Vec
  | [] => []
  | d0 :: ds => c :: warpTail N a d0 c ds

/-- The passes over the source coefficients, the list given highest index first. -/
def freqtuPasses (N : Numerics) (a : F64) : Vec → Vec → Vec
  | [], g => g
  | c :: cs, g => freqtuPasses (N.at 1) a cs (freqtuPass (N.at 0) a c g)

/-- `FREQTU_F(c1, m1, m2, a)`, the unscaled variant (R132; `92_eei_decisions.md` D34). -/
def freqtuF (N : Numerics) (c1 : Vec) (m1 m2 : Nat) (a : F64) : Vec :=
  freqtuPasses N a (c1.take (m1 + 1)).reverse (zeros (m2 + 1))

/-- The two convolution sums `(ss1, ss2)` of `GC2GC_F` at index `i` over `k = 1, …, kmax` (R133). -/
def gc2gcSums (N : Numerics) (ca c2 : Vec) (i kmax : Nat) : F64 × F64 :=
  (List.range kmax).foldl
    (fun (ss : F64 × F64) (k0 : Nat) =>
      let k := k0 + 1
      let cc := ((N.at k).at 0).mul (elem ca k) (elem c2 (i - k))
      (((N.at k).at 1).add ss.1 (((N.at k).at 2).mul (F64.ofNat (i - k)) cc),
        ((N.at k).at 3).add ss.2 (((N.at k).at 4).mul (F64.ofNat k) cc)))
    (F64.lit0, F64.lit0)

/-- The coefficient `c2[i]` of `GC2GC_F` from `c2[0], …, c2[i−1]` (R133). -/
def gc2gcElem (N : Numerics) (ca : Vec) (m1 : Nat) (g1 g2 : F64) (c2 : Vec) (i : Nat) : F64 :=
  let ss := gc2gcSums (N.at 0) ca c2 i (min m1 (i - 1))
  let t := (N.at 1).div ((N.at 2).sub ((N.at 3).mul g2 ss.2) ((N.at 4).mul g1 ss.1)) (F64.ofNat i)
  if i ≤ m1 then (N.at 5).add (elem ca i) t else t

/-- `GC2GC_F(c1, m1, g1, m2, g2)`, generalized-cepstrum conversion (R133). -/
def gc2gcF (N : Numerics) (c1 : Vec) (m1 : Nat) (g1 : F64) (m2 : Nat) (g2 : F64) : Vec :=
  (List.range m2).foldl (fun c2 i0 => c2 ++ [gc2gcElem (N.at (i0 + 1)) c1 m1 g1 g2 c2 (i0 + 1)]) [elem c1 0]

/-- `GNORM_F(c, m, g)`, gain normalization (R134). `g != 0.0` is IEEE inequality, so −0.0 takes the `else` branch. -/
def gnormF (N : Numerics) (c : Vec) (m : Nat) (g : F64) : Vec :=
  if F64.eq g F64.lit0 = false then
    let k := (N.at 0).add F64.lit1 ((N.at 1).mul g (elem c 0))
    (N.at 2).powAt k ((N.at 3).div F64.lit1 g)
      :: (List.range m).map fun i0 => ((N.at 4).at i0).div (elem c (i0 + 1)) k
  else
    (N.at 5).expAt (elem c 0) :: (List.range m).map fun i0 => elem c (i0 + 1)

/-- `IGNORM_F(c, m, g)`, gain denormalization (R135). -/
def ignormF (N : Numerics) (c : Vec) (m : Nat) (g : F64) : Vec :=
  if F64.eq g F64.lit0 = false then
    let k := (N.at 0).powAt (elem c 0) g
    (N.at 1).div ((N.at 2).sub k F64.lit1) g
      :: (List.range m).map fun i0 => ((N.at 3).at i0).mul k (elem c (i0 + 1))
  else
    (N.at 4).logAt (elem c 0) :: (List.range m).map fun i0 => elem c (i0 + 1)

/-- The combined warping shift `a = (a2 − a1) / (1.0 − a1 * a2)` (R136). -/
def warpShift (N : Numerics) (a1 a2 : F64) : F64 :=
  (N.at 0).div ((N.at 1).sub a2 a1) ((N.at 2).sub F64.lit1 ((N.at 3).mul a1 a2))

/-- `MGC2MGC_F(c1, m1, a1, g1, m2, a2, g2)`, mel-generalized cepstrum conversion (R136): the fast path where
`a == 0.0`, else the warp first, on the un-normalized input. -/
def mgc2mgcF (N : Numerics) (c1 : Vec) (m1 : Nat) (a1 g1 : F64) (m2 : Nat) (a2 g2 : F64) : Vec :=
  let a := warpShift (N.at 0) a1 a2
  if F64.eq a F64.lit0 then
    let ca := gnormF (N.at 1) c1 m1 g1
    let c2 := gc2gcF (N.at 2) ca m1 g1 m2 g2
    ignormF (N.at 3) c2 m2 g2
  else
    let c2 := freqtF (N.at 4) c1 m1 m2 a
    let c3 := gnormF (N.at 5) c2 m2 g1
    let c4 := gc2gcF (N.at 6) c3 m2 g1 m2 g2
    ignormF (N.at 7) c4 m2 g2

/-! ### Commands (`40_cepstral.md` R137 to R142): all inputs are read before any output is written (R130) -/

/-- FREQT's pseudocode (R137). -/
def freqtBody : Body := fun N p o m => do
  let c1 ← memRead p m o.aBase.toNat (o.m1.toNat + 1)
  memWrite p m o.bBase.toNat (freqtF N c1 o.m1.toNat o.m2.toNat o.fa1)

/-- FREQT, the frequency warp, forward variant (R137). -/
def execFreqt (s : State) : Host.Outcome State Fault Refusal := runCommand .freqt freqtFootprint freqtBody s

/-- FREQTU's pseudocode (R138). -/
def freqtuBody : Body := fun N p o m => do
  let c1 ← memRead p m o.aBase.toNat (o.m1.toNat + 1)
  memWrite p m o.bBase.toNat (freqtuF N c1 o.m1.toNat o.m2.toNat o.fa1)

/-- FREQTU, the frequency warp, unscaled variant (R138). -/
def execFreqtu (s : State) : Host.Outcome State Fault Refusal := runCommand .freqtu freqtuFootprint freqtuBody s

/-- GC2GC's pseudocode (R139). -/
def gc2gcBody : Body := fun N p o m => do
  let c1 ← memRead p m o.aBase.toNat (o.m1.toNat + 1)
  memWrite p m o.bBase.toNat (gc2gcF N c1 o.m1.toNat o.fg1 o.m2.toNat o.fg2)

/-- GC2GC, generalized cepstrum conversion (R139). -/
def execGc2gc (s : State) : Host.Outcome State Fault Refusal := runCommand .gc2gc gc2gcFootprint gc2gcBody s

/-- GNORM's pseudocode (R140). -/
def gnormBody : Body := fun N p o m => do
  let c ← memRead p m o.aBase.toNat (o.m1.toNat + 1)
  memWrite p m o.bBase.toNat (gnormF N c o.m1.toNat o.fg1)

/-- GNORM, gain normalization (R140). -/
def execGnorm (s : State) : Host.Outcome State Fault Refusal := runCommand .gnorm gnormFootprint gnormBody s

/-- IGNORM's pseudocode (R141). -/
def ignormBody : Body := fun N p o m => do
  let c ← memRead p m o.aBase.toNat (o.m1.toNat + 1)
  memWrite p m o.bBase.toNat (ignormF N c o.m1.toNat o.fg1)

/-- IGNORM, gain denormalization (R141). -/
def execIgnorm (s : State) : Host.Outcome State Fault Refusal := runCommand .ignorm ignormFootprint ignormBody s

/-- MGC2MGC's pseudocode (R142). -/
def mgc2mgcBody : Body := fun N p o m => do
  let c1 ← memRead p m o.aBase.toNat (o.m1.toNat + 1)
  memWrite p m o.bBase.toNat (mgc2mgcF N c1 o.m1.toNat o.fa1 o.fg1 o.m2.toNat o.fa2 o.fg2)

/-- MGC2MGC, mel-generalized cepstrum conversion (R142). -/
def execMgc2mgc (s : State) : Host.Outcome State Fault Refusal := runCommand .mgc2mgc mgc2mgcFootprint mgc2mgcBody s

end Sys2Proof.Machine
end

