-- ==== Sys2Proof/Machine/Spectral.lean ====
section
/-!
DEFINITION. The spectral commands (`41_spectral.md`): the twiddle factors of R170, the pure functions of R172 to R176 in
the spec's evaluation order, and the commands of R177 to R181.
-/

namespace Sys2Proof.Machine

/-! ### Twiddle factors and the sine table -/

/-- The argument of SIN for entry `j` of a table of size `n`: `((PI / float(n)) * 2.0) * float(j)` (R170). -/
def twArg (N : Numerics) (n j : Nat) : F64 :=
  (N.at 0).mul ((N.at 1).mul ((N.at 2).div F64.pi (F64.ofNat n)) F64.lit2) (F64.ofNat j)

/-- `TW(n, t)`, the sine form (R170). -/
def tw (N : Numerics) (n t : Nat) : F64 :=
  if t = 0 ∨ t = n / 2 then F64.lit0 else (N.at 0).sinAt (twArg (N.at 1) n t)

/-- `TWC(n, t) = TW(n, t + n/4)`, the cosine form (R170). -/
def twc (N : Numerics) (n t : Nat) : F64 := tw N n (t + n / 4)

/-- SINTBL as the engine holds it (`10_state.md` R50; `41_spectral.md` R171): entries 0 to 3N/4 for the size
`N = MAXFFTSIZE` it was last built for, a view of `State.maxFftSize`. Nothing while no length has been used. -/
def sinTable (N : Numerics) (size : Nat) : Vec :=
  if size = 0 then [] else (List.range (3 * size / 4 + 1)).map (tw N size)

/-! ### The complex FFT (R172) -/

/-- The pair of arrays the in-place FFT works on: real parts and imaginary parts. -/
abbrev Pair := Vec × Vec

/-- One butterfly of a stage, at `p` and `p + lmx` with twiddles `s` and `c` (R172). -/
def fftButterfly (N : Numerics) (s c : F64) (lmx p : Nat) (z : Pair) : Pair :=
  let xp := elem z.1 p
  let xq := elem z.1 (p + lmx)
  let yp := elem z.2 p
  let yq := elem z.2 (p + lmx)
  let t1 := (N.at 0).sub xp xq
  let t2 := (N.at 1).sub yp yq
  ((z.1.set p ((N.at 2).add xp xq)).set (p + lmx) ((N.at 3).add ((N.at 4).mul c t1) ((N.at 5).mul s t2)),
    (z.2.set p ((N.at 6).add yp yq)).set (p + lmx) ((N.at 7).sub ((N.at 8).mul c t2) ((N.at 9).mul s t1)))

/-- One stage: for `j = 0, …, lmx − 1` the twiddles, and for `q = 0, …, n/lix − 1` the butterfly at `j + q * lix`, with
`lix = 2 * lmx` (R172). -/
def fftStage (N : Numerics) (n lmx lf : Nat) (z : Pair) : Pair :=
  (List.range lmx).foldl
    (fun z j =>
      let s := tw ((N.at j).at 0) n (j * lf)
      let c := twc ((N.at j).at 1) n (j * lf)
      (List.range (n / (2 * lmx))).foldl
        (fun z q => fftButterfly (((N.at j).at 2).at q) s c lmx (j + q * (2 * lmx)) z) z)
    z

/-- The stage loop, entered with `lix`; it ends when the halved length is at most 1. The first argument bounds the
number of stages; `n` of them are more than the loop takes (R172). -/
def fftStages (N : Numerics) (n : Nat) : Nat → Nat → Nat → Pair → Pair
  | 0, _, _, z => z
  | fuel + 1, lix, lf, z =>
    let lmx := lix / 2
    if lmx ≤ 1 then z
    else fftStages (N.at 1) n fuel lmx (2 * lf) (fftStage (N.at 0) n lmx lf z)

/-- The last stage: length-2 butterflies without twiddles at `p = 0, 2, …, n − 2` (R172). -/
def fftLastStage (N : Numerics) (n : Nat) (z : Pair) : Pair :=
  (List.range (n / 2)).foldl
    (fun z h =>
      let p := 2 * h
      let xp := elem z.1 p
      let xq := elem z.1 (p + 1)
      let yp := elem z.2 p
      let yq := elem z.2 (p + 1)
      ((z.1.set p (((N.at h).at 0).add xp xq)).set (p + 1) (((N.at h).at 1).sub xp xq),
        (z.2.set p (((N.at h).at 2).add yp yq)).set (p + 1) (((N.at h).at 3).sub yp yq)))
    z

/-- The inner loop of the bit reversal, `while k <= j: j <- j − k; k <- k / 2`, and then `j <- j + k` (R172). -/
def bitRevNext : Nat → Nat → Nat → Nat
  | 0, k, j => j + k
  | fuel + 1, k, j => if k ≤ j then bitRevNext fuel (k / 2) (j - k) else j + k

/-- Swap two elements of a vector. -/
def swapElems (V : Vec) (i j : Nat) : Vec := (V.set i (elem V j)).set j (elem V i)

/-- The bit-reversal permutation of both arrays (R172). -/
def bitReverse (n : Nat) (z : Pair) : Pair :=
  ((List.range (n - 1)).foldl
    (fun (w : Nat × Pair) i =>
      (bitRevNext n (n / 2) w.1, if i < w.1 then (swapElems w.2.1 i w.1, swapElems w.2.2 i w.1) else w.2))
    (0, z)).2

/-- `FFT_F(x, y, n)`, the in-place radix-2 complex FFT (R172). -/
def fftF (N : Numerics) (x y : Vec) (n : Nat) : Pair :=
  bitReverse n (fftLastStage (N.at 1) n (fftStages (N.at 0) n n n 1 (x, y)))

/-! ### Real FFT, cepstrum to spectrum, power spectrum (R173 to R176) -/

/-- The spectrum's `x[L − t]`, `1 ≤ t ≤ M − 1`, from the half-length transform `(X, Y)` (R173). -/
def rfftReal (N : Numerics) (X Y : Vec) (L t : Nat) : F64 :=
  let M := L / 2
  let s := tw ((N.at t).at 0) L t
  let c := twc ((N.at t).at 1) L t
  let yt := ((N.at t).at 2).add (elem Y t) (elem Y (M - t))
  let xt := ((N.at t).at 3).sub (elem X t) (elem X (M - t))
  ((N.at t).at 4).mul
    (((N.at t).at 5).sub
      (((N.at t).at 6).add (((N.at t).at 7).add (elem X t) (elem X (M - t))) (((N.at t).at 8).mul c yt))
      (((N.at t).at 9).mul s xt))
    F64.litHalf

/-- The spectrum's `y[L − t]`, `1 ≤ t ≤ M − 1` (R173). -/
def rfftImag (N : Numerics) (X Y : Vec) (L t : Nat) : F64 :=
  let M := L / 2
  let s := tw ((N.at t).at 0) L t
  let c := twc ((N.at t).at 1) L t
  let yt := ((N.at t).at 2).add (elem Y t) (elem Y (M - t))
  let xt := ((N.at t).at 3).sub (elem X t) (elem X (M - t))
  ((N.at t).at 10).mul
    (((N.at t).at 11).add
      (((N.at t).at 12).add (((N.at t).at 13).sub (elem Y (M - t)) (elem Y t)) (((N.at t).at 14).mul s yt))
      (((N.at t).at 15).mul c xt))
    F64.litHalf

/-- The elements of even (`r = 0`) or odd (`r = 1`) index of the first `2M` elements (R173). -/
def everyOther (V : Vec) (M r : Nat) : Vec := (List.range M).map fun k => elem V (2 * k + r)

/-- `RFFT_F(xr, L)`, the real-input FFT (R173). Each element of `x` and `y` is assigned once: index 0, index `M`, the
indices `L − t` above `M`, and the indices `t` below `M` as copies (`x`) or negations (`y`) of those. -/
def rfftF (N : Numerics) (xr : Vec) (L : Nat) : Pair :=
  let M := L / 2
  let h := fftF (N.at 0) (everyOther xr M 0) (everyOther xr M 1) M
  ((List.range L).map fun k =>
      if k = 0 then (N.at 1).add (elem h.1 0) (elem h.2 0)
      else if k = M then (N.at 2).sub (elem h.1 0) (elem h.2 0)
      else if k < M then rfftReal (N.at 3) h.1 h.2 L k
      else rfftReal (N.at 3) h.1 h.2 L (L - k),
    (List.range L).map fun k =>
      if k = 0 then F64.lit0
      else if k = M then F64.lit0
      else if k < M then F64.neg (rfftImag (N.at 3) h.1 h.2 L k)
      else rfftImag (N.at 3) h.1 h.2 L (L - k))

/-- `C2SP_F(c, m, L)`, cepstrum to spectrum, the fill value +0.0 (R174). -/
def c2spF (N : Numerics) (c : Vec) (m L : Nat) : Pair := rfftF N (c.take (m + 1) ++ zeros (L - m - 1)) L

/-- `MGC2SP_F(c, m, a, g, L)`: target order L/2, warping constant 0.0 and exponent 0.0 (R175). -/
def mgc2spF (N : Numerics) (c : Vec) (m : Nat) (a g : F64) (L : Nat) : Pair :=
  let c0 := mgc2mgcF (N.at 0) c m a g (L / 2) F64.lit0 F64.lit0
  c2spF (N.at 1) c0 (L / 2) L

/-- `POWSP_F(c, m, a, g, L)`: `EXP(2.0 * x[i])` for `i = 0, …, L/2` (R176). -/
def powspF (N : Numerics) (c : Vec) (m : Nat) (a g : F64) (L : Nat) : Vec :=
  let z := mgc2spF (N.at 0) c m a g L
  (List.range (L / 2 + 1)).map fun i => ((N.at 1).at i).expAt (((N.at 2).at i).mul F64.lit2 (elem z.1 i))

/-! ### Commands (R177 to R181): all inputs are read before any output is written (`40_cepstral.md` R130) -/

/-- FFT's pseudocode (R177). -/
def fftBody : Body := fun N p o m => do
  let x ← memRead p m o.aBase.toNat o.len.toNat
  let y ← memRead p m o.bBase.toNat o.len.toNat
  let z := fftF N x y o.len.toNat
  let m' ← memWrite p m o.aBase.toNat z.1
  memWrite p m' o.bBase.toNat z.2

/-- FFT, in-place radix-2 complex FFT (R177). -/
def execFft (s : State) : Host.Outcome State Fault Refusal := runCommand .fft fftFootprint fftBody s

/-- RFFT's pseudocode: the input content of Y is never read (R178). -/
def rfftBody : Body := fun N p o m => do
  let xr ← memRead p m o.aBase.toNat o.len.toNat
  let z := rfftF N xr o.len.toNat
  let m' ← memWrite p m o.aBase.toNat z.1
  memWrite p m' o.bBase.toNat z.2

/-- RFFT, real-input FFT (R178). -/
def execRfft (s : State) : Host.Outcome State Fault Refusal := runCommand .rfft rfftFootprint rfftBody s

/-- C2SP's pseudocode (R179). -/
def c2spBody : Body := fun N p o m => do
  let c ← memRead p m o.aBase.toNat (o.m1.toNat + 1)
  let z := c2spF N c o.m1.toNat o.len.toNat
  let m' ← memWrite p m o.bBase.toNat z.1
  memWrite p m' o.cBase.toNat z.2

/-- C2SP, cepstrum to spectrum (R179). -/
def execC2sp (s : State) : Host.Outcome State Fault Refusal := runCommand .c2sp c2spFootprint c2spBody s

/-- MGC2SP's pseudocode (R180). -/
def mgc2spBody : Body := fun N p o m => do
  let c ← memRead p m o.aBase.toNat (o.m1.toNat + 1)
  let z := mgc2spF N c o.m1.toNat o.fa1 o.fg1 o.len.toNat
  let m' ← memWrite p m o.bBase.toNat z.1
  memWrite p m' o.cBase.toNat z.2

/-- MGC2SP, mel-generalized cepstrum to spectrum (R180). -/
def execMgc2sp (s : State) : Host.Outcome State Fault Refusal := runCommand .mgc2sp mgc2spFootprint mgc2spBody s

/-- POWSP's pseudocode (R181). -/
def powspBody : Body := fun N p o m => do
  let c ← memRead p m o.aBase.toNat (o.m1.toNat + 1)
  memWrite p m o.bBase.toNat (powspF N c o.m1.toNat o.fa1 o.fg1 o.len.toNat)

/-- POWSP, power spectrum (R181). -/
def execPowsp (s : State) : Host.Outcome State Fault Refusal := runCommand .powsp powspFootprint powspBody s

end Sys2Proof.Machine
end

