-- ==== Sys2Proof/Machine/Dispatch.lean ====
section
/-!
DEFINITION. The meaning of each command: one arm per constructor of `Instr`.

`exec i s` is the step that command `i` takes in state `s` (`42_control.md` R210): its issue while the engine is IDLE,
its completion while the engine is BUSY.
-/

namespace Sys2Proof.Machine

def exec (i : Instr) (s : State) : Host.Outcome State Fault Refusal :=
  match i with
  | .nop => Sys2Proof.Machine.execNop s
  | .fft => Sys2Proof.Machine.execFft s
  | .rfft => Sys2Proof.Machine.execRfft s
  | .freqt => Sys2Proof.Machine.execFreqt s
  | .freqtu => Sys2Proof.Machine.execFreqtu s
  | .gc2gc => Sys2Proof.Machine.execGc2gc s
  | .gnorm => Sys2Proof.Machine.execGnorm s
  | .ignorm => Sys2Proof.Machine.execIgnorm s
  | .mgc2mgc => Sys2Proof.Machine.execMgc2mgc s
  | .c2sp => Sys2Proof.Machine.execC2sp s
  | .mgc2sp => Sys2Proof.Machine.execMgc2sp s
  | .powsp => Sys2Proof.Machine.execPowsp s

end Sys2Proof.Machine
end

