-- ==== Sys2Proof/Machine/Port.lean ====
section
/-!
DEFINITION. The host port (`20_memory.md`), the CSR window (`10_state.md` R32 to R43), the CMD write as the core's
fetch (`42_control.md` R210, R211; `70_reset_and_hazards.md` R271), the engine's turn, and one step of the machine
(`70_reset_and_hazards.md` R270).
-/

namespace Sys2Proof.Machine

/-! ### Registers of the CSR window -/

/-- The registers of the CSR window (`10_state.md` R32); `reserved` is any offset from 0x078 to 0xFF8. -/
inductive Csr where
  | id | caps | ctrl | status | cmd | aBase | bBase | cBase | m1 | m2 | len | fa1 | fg1 | fa2 | fg2 | reserved
  deriving DecidableEq, Repr

/-- The register at an 8-byte-aligned offset of the CSR window (`10_state.md` R32). -/
def csrAt (off : Nat) : Csr :=
  match off with
  | 0x000 => .id
  | 0x008 => .caps
  | 0x010 => .ctrl
  | 0x018 => .status
  | 0x020 => .cmd
  | 0x028 => .aBase
  | 0x030 => .bBase
  | 0x038 => .cBase
  | 0x040 => .m1
  | 0x048 => .m2
  | 0x050 => .len
  | 0x058 => .fa1
  | 0x060 => .fg1
  | 0x068 => .fa2
  | 0x070 => .fg2
  | _ => .reserved

/-- ID (`10_state.md` R33). -/
def idWord : Word := 0x4D47435300070001#64

/-- CAPS (`10_state.md` R34): MMAX in [31:16], log2(LMAX) in [15:8], log2(DMEM_WORDS) in [7:0]. -/
def capsWord (p : Params) : Word :=
  0#32 ++ BitVec.ofNat 16 p.mmax ++ BitVec.ofNat 8 p.lmax.log2 ++ BitVec.ofNat 8 p.dmemWords.log2

/-- What a host read of a register returns; no read has a side effect (`10_state.md` R33 to R43; `20_memory.md` R80). -/
def csrRead (s : State) : Csr → Word
  | .id => idWord
  | .caps => capsWord s.params
  | .ctrl => 0#63 ++ BitVec.ofBool s.ie
  | .status => statusWord s.engine s.status
  | .cmd => 0
  | .aBase => s.operands.aBase.setWidth 64
  | .bBase => s.operands.bBase.setWidth 64
  | .cBase => s.operands.cBase.setWidth 64
  | .m1 => s.operands.m1.setWidth 64
  | .m2 => s.operands.m2.setWidth 64
  | .len => s.operands.len.setWidth 64
  | .fa1 => s.operands.fa1
  | .fg1 => s.operands.fg1
  | .fa2 => s.operands.fa2
  | .fg2 => s.operands.fg2
  | .reserved => 0

/-- The operand registers after a host write of `v` (`10_state.md` R40, R41): an integer register keeps `v[31:0]`, a
floating-point register all of `v`; the other registers of the window are no operand registers. -/
def Operands.written (o : Operands) (v : Word) : Csr → Operands
  | .aBase => { o with aBase := v.setWidth 32 }
  | .bBase => { o with bBase := v.setWidth 32 }
  | .cBase => { o with cBase := v.setWidth 32 }
  | .m1 => { o with m1 := v.setWidth 32 }
  | .m2 => { o with m2 := v.setWidth 32 }
  | .len => { o with len := v.setWidth 32 }
  | .fa1 => { o with fa1 := v }
  | .fg1 => { o with fg1 := v }
  | .fa2 => { o with fa2 := v }
  | .fg2 => { o with fg2 := v }
  | .id | .caps | .ctrl | .status | .cmd | .reserved => o

/-- A host write of `v` to a register other than CMD, in any state of the engine (`10_state.md` R33 to R43;
`20_memory.md` R78). Writes to ID, CAPS and the reserved offsets are ignored. -/
def csrWrite (s : State) (v : Word) : Csr → State
  | .ctrl => { s with ie := v.getLsbD 0 }
  | .status => { s with status := s.status.clear v }
  | .id => s
  | .caps => s
  | .cmd => s
  | .reserved => s
  | r => { s with operands := s.operands.written v r }

/-! ### CMD: the core's fetch -/

/-- A host write of `v` to CMD. While BUSY it is dropped and sets OVR (`70_reset_and_hazards.md` R271). While IDLE it is
taken (`42_control.md` R211): the word is decoded and its command issued; an illegal word is refused with
ILLEGAL_OPCODE (`60_exceptions.md` R233). -/
def commandWrite (v : Word) (s : State) : Host.Outcome State Fault Refusal :=
  match s.engine with
  | .busy _ => .next { s with status := s.status.overrun }
  | .idle =>
    match decode (wordBytes v) with
    | .ok i => exec i s
    | .error _ => .next (issue v (some .illegalOpcode) s)

/-! ### The host port -/

/-- The response OK of an access (`20_memory.md` R70); `data` is a read's data. -/
def okResponse (op : PortOp) (data : Word) : PortResponse :=
  match op with
  | .read => .read false data
  | .write _ => .write false

/-- An access to a register of the CSR window (`10_state.md` R32; `42_control.md` R216), with response OK. -/
def csrAccess (r : Csr) (op : PortOp) (s : State) : Host.Outcome State Fault Refusal :=
  match op with
  | .read => .next { s with port := some (okResponse op (csrRead s r)) }
  | .write v =>
    match r with
    | .cmd => commandWrite v { s with port := some (okResponse op 0) }
    | r => .next (csrWrite { s with port := some (okResponse op 0) } v r)

/-- An access to DMEM word `w`: ERROR while BUSY (`20_memory.md` R77), else the word itself (R75). Reading a word that
nothing has written stops the machine (`10_state.md` R45; `93_implementation_defined.md` U8). -/
def dmemAccess (w : Nat) (op : PortOp) (s : State) : Host.Outcome State Fault Refusal :=
  match s.engine with
  | .busy _ => .next (errorResponse op s)
  | .idle =>
    match op with
    | .read =>
      match s.mem.readWord w with
      | some v => .next { s with port := some (okResponse op v) }
      | none => .fault (.unwrittenRead w)
    | .write v => .next { s with mem := s.mem.writeWord w v, port := some (okResponse op 0) }

/-- The regions of the core's address map (`20_memory.md` R73). -/
inductive Region where
  | csr (r : Csr)
  | dmem (w : Nat)
  | reserved
  deriving DecidableEq, Repr

/-- The region an aligned offset lies in (`20_memory.md` R73). -/
def regionOf (p : Params) (off : Nat) : Region :=
  if off < 0x1000 then .csr (csrAt off)
  else if off < dmemWindow then .reserved
  else if off < dmemWindow + 8 * p.dmemWords then .dmem ((off - dmemWindow) / 8)
  else .reserved

/-- One access on the host port (`20_memory.md` R70 to R77): exactly eight bytes at a multiple of 8, else ERROR. -/
def portAccess (off : Offset) (bytes : Nat) (op : PortOp) (s : State) : Host.Outcome State Fault Refusal :=
  if bytes ≠ 8 ∨ off.toNat % 8 ≠ 0 then .next (errorResponse op s)
  else
    match regionOf s.params off.toNat with
    | .csr r => csrAccess r op s
    | .dmem w => dmemAccess w op s
    | .reserved => .next (errorResponse op s)

/-- The offset that a host address reaches: `CORE_BASE + off` reaches `off` (`20_memory.md` R70). Addresses outside the
2 MiB region are not the core's. -/
def portOffset (p : Params) (addr : Nat) : Option Offset :=
  if p.coreBase ≤ addr ∧ addr < p.coreBase + 2 ^ 21 then some (BitVec.ofNat 21 (addr - p.coreBase)) else none

/-- A host access on the platform's bus. One that is outside the core's region leaves the core as it is. -/
def busAccess (addr bytes : Nat) (op : PortOp) (s : State) : Host.Outcome State Fault Refusal :=
  match portOffset s.params addr with
  | some off => portAccess off bytes op s
  | none => .next s

/-! ### The engine's turn, and one step -/

/-- The engine is given a step: while BUSY its completion (`42_control.md` R214), while IDLE nothing
(`70_reset_and_hazards.md` R263). -/
def engineTurn (s : State) : Host.Outcome State Fault Refusal :=
  match s.engine with
  | .idle => .next s
  | .busy l =>
    match decodeWord l.cmd with
    | .ok i => exec i s
    | .error _ => .fault (.illegalLatch l.cmd)

/-- One atomic step (`70_reset_and_hazards.md` R270): the next of the coming steps. When none is left the engine has the
step, so that a BUSY engine completes: the completion's fairness (`70_reset_and_hazards.md` R275). -/
def advance (s : State) : Host.Outcome State Fault Refusal :=
  match s.inputs with
  | [] => engineTurn s
  | .bus addr bytes op :: rest => busAccess addr bytes op { s with inputs := rest }
  | .engine :: rest => engineTurn { s with inputs := rest }
  | .reset :: rest => .next (resetCore { s with inputs := rest })

/-- The event of a host write of `v` to CMD, offset 0x020 (`10_state.md` R39). -/
def commandEvent (p : Params) (v : Word) : Event := .bus (p.coreBase + 0x20) 8 (.write v)

end Sys2Proof.Machine
end

