-- ==== Sys2Proof/Machine/Step.lean ====
section
/-!
DEFINITION. The step of the machine, and the state in which its next step fetches a given command word.
-/

namespace Sys2Proof.Machine

/-- One step: next, fault or refusal. -/
def step (s : State) : Host.Outcome State Fault Refusal := Sys2Proof.Machine.advance s

/-- `s` with the host's next access a CMD write of the command word `w` (`nbits` bits, zeros above), and the engine IDLE
so that the write is taken (`42_control.md` R211): the very next step issues that command. -/
def State.withFetchWord (s : State) (nbits w : Nat) : State :=
  { s with
    engine := .idle
    inputs := Sys2Proof.Machine.commandEvent s.params (BitVec.ofNat 64 (w % 2 ^ nbits)) :: s.inputs }

end Sys2Proof.Machine
end

