-- ==== Sys2Proof/Safety.lean ====
section
/-!
DEFINITION. The terms claims are made in: what a completion leaves and what it leaves alone, the invariant of the
machine, and the stops a run may end in.
-/

namespace Sys2Proof.Machine

/-- Buffer words from `b` on hold the elements of `V` in ascending order (`20_memory.md` R81). -/
def Holds (m : Memory) (b : Nat) (V : Vec) : Prop := ∀ j (h : j < V.length), m.readWord (b + j) = some V[j]

/-- The byte at offset `a` lies in the buffer. -/
def Buffer.covers (b : Buffer) (a : Nat) : Prop := byteOffset b.base 0 ≤ a ∧ a < byteOffset (b.base + b.words) 0

/-- Every byte outside the buffers reads as before (`20_memory.md` R81: "A command writes no DMEM word outside its
output buffers"). -/
def SameOutside (bs : List Buffer) (m m' : Memory) : Prop :=
  ∀ a, (∀ b ∈ bs, ¬ b.covers a) → m'.readByte a = m.readByte a

/-- What a completion step changes besides its output buffers, and what it leaves (`42_control.md` R214: "It writes no
CSR other than those two STATUS bits, and no operand register"). `f` is the command's footprint on LATCH. -/
structure Completed (f : Footprint) (s t : State) : Prop where
  /-- BUSY falls. -/
  engine : t.engine = .idle
  /-- DONE is set and no other field of STATUS changes. -/
  status : t.status = { s.status with done := true }
  params : t.params = s.params
  ie : t.ie = s.ie
  operands : t.operands = s.operands
  port : t.port = s.port
  inputs : t.inputs = s.inputs
  /-- MAXFFTSIZE grows to the largest FFT length used (`10_state.md` R50). -/
  maxFftSize : t.maxFftSize = (match f.length with | none => s.maxFftSize | some n => max s.maxFftSize n)
  /-- Later NaN draws are new ones (the model's own). -/
  draws : t.draws = s.draws + 1
  /-- No byte outside the output buffers changes. -/
  memory : SameOutside f.outputs s.mem t.mem

/-- The invariant of the machine: what holds in every state a run reaches (`10_state.md` R38; `60_exceptions.md` R230,
R239). -/
structure State.Inv (s : State) : Prop where
  /-- The configuration is one the spec admits (`00_scope.md` R5). -/
  params : s.params.wf = true
  /-- DMEM is in canonical form. -/
  mem : s.mem.wf s.params
  /-- `STATUS.ERRCODE = 0` whenever `STATUS.ERR = 0` (`10_state.md` R38.1). -/
  errcodeClear : s.status.err = false → s.status.errcode = 0
  /-- A reported error has one of the codes 0x01 to 0x06 (`60_exceptions.md` R230). -/
  errcodeKnown : s.status.err = true → 1 ≤ s.status.errcode.toNat ∧ s.status.errcode.toNat ≤ 6
  /-- BUSY implies DONE = 0 and ERR = 0 (`10_state.md` R38.2), LATCH has passed every check (`60_exceptions.md` R239),
  and LASTOP is its opcode (`10_state.md` R36). -/
  busy : ∀ l, s.engine = .busy l →
    s.status.done = false ∧ s.status.err = false ∧ check s.params l = none ∧ s.status.lastop = opcField l.cmd
  /-- MAXFFTSIZE is 0 or a length the checks admit (`10_state.md` R50, `60_exceptions.md` R234). -/
  maxFftSize : s.maxFftSize = 0 ∨ badLength s.params s.maxFftSize = false

/-- A stop on an unwritten DMEM word: the only stop a run may end in (`10_state.md` R45, `93_implementation_defined.md`
U8). -/
def Fault.isUnwritten : Fault → Bool
  | .unwrittenRead _ => true
  | .unwrittenInput _ => true
  | .outsideDmem _ => false
  | .illegalLatch _ => false

/-! ### Terms for accesses on the host port -/

/-- The host reads the 64-bit word at offset `off` (`20_memory.md` R70, R71). -/
def State.readsAt (s : State) (off : Nat) : Event := .bus (s.params.coreBase + off) 8 .read

/-- The host writes `v` to the 64-bit word at offset `off` (`20_memory.md` R70, R71). -/
def State.writesAt (s : State) (off : Nat) (v : Word) : Event := .bus (s.params.coreBase + off) 8 (.write v)

/-- An event that is a host access. -/
def Event.isAccess : Event → Bool
  | .bus _ _ _ => true
  | .engine => false
  | .reset => false

/-- `k` steps, ending at the first stop. -/
def runFor : Nat → State → Host.Outcome State Fault Refusal
  | 0, s => .next s
  | k + 1, s =>
    match step s with
    | .next t => runFor k t
    | .fault f => .fault f
    | .refused r => .refused r

/-! ### The conditions of the issue checks, as the tables of `60_exceptions.md` state them -/

/-- The commands that use LEN (`60_exceptions.md` R234). -/
def usesLength (i : Instr) : Prop := i = .fft ∨ i = .rfft ∨ i = .c2sp ∨ i = .mgc2sp ∨ i = .powsp

/-- A length the core admits: a power of two, at least 4, at most LMAX (`60_exceptions.md` R234). -/
def lengthAdmitted (p : Params) (n : Nat) : Prop := (∃ k, n = 2 ^ k) ∧ 4 ≤ n ∧ n ≤ p.lmax

/-- The table of `60_exceptions.md` R235. -/
def orderRefused (p : Params) (o : Operands) : Instr → Prop
  | .freqt | .freqtu | .gc2gc | .mgc2mgc => p.mmax < o.m1.toNat ∨ p.mmax < o.m2.toNat
  | .gnorm | .ignorm | .mgc2sp | .powsp => p.mmax < o.m1.toNat
  | .c2sp => p.mmax < o.m1.toNat ∨ o.len.toNat ≤ o.m1.toNat
  | .nop | .fft | .rfft => False

/-- The value of a finite pattern (`00_scope.md` R14); 0 for a NaN or an infinity. -/
def F64.value (x : F64) : ℚ :=
  match F64.unpack x with
  | .fin s m e => (if s then -1 else 1) * ((m : ℚ) * 2 ^ e / 2 ^ 1074)
  | .inf _ => 0
  | .nan => 0

/-- A legal warping constant, on the number line (`60_exceptions.md` R236). -/
def warpInRange (a : F64) : Prop := F64.isFinite a = true ∧ -1 < F64.value a ∧ F64.value a < 1

/-- A legal generalization exponent, on the number line (`60_exceptions.md` R236). -/
def exponentInRange (g : F64) : Prop := F64.isFinite g = true ∧ -1 ≤ F64.value g ∧ F64.value g ≤ 0

/-- The table of `60_exceptions.md` R236. -/
def paramRefused (o : Operands) : Instr → Prop
  | .freqt | .freqtu => ¬ warpInRange o.fa1
  | .gc2gc => ¬ exponentInRange o.fg1 ∨ ¬ exponentInRange o.fg2
  | .gnorm | .ignorm => ¬ exponentInRange o.fg1
  | .mgc2mgc => ¬ warpInRange o.fa1 ∨ ¬ warpInRange o.fa2 ∨ ¬ exponentInRange o.fg1 ∨ ¬ exponentInRange o.fg2
  | .mgc2sp | .powsp => ¬ warpInRange o.fa1 ∨ ¬ exponentInRange o.fg1
  | .nop | .fft | .rfft | .c2sp => False

/-- The table of `60_exceptions.md` R237. -/
def rangeRefused (p : Params) (o : Operands) : Instr → Prop
  | .fft | .rfft => p.dmemWords < o.aBase.toNat + o.len.toNat ∨ p.dmemWords < o.bBase.toNat + o.len.toNat
  | .freqt | .freqtu | .gc2gc | .mgc2mgc =>
    p.dmemWords < o.aBase.toNat + o.m1.toNat + 1 ∨ p.dmemWords < o.bBase.toNat + o.m2.toNat + 1
  | .gnorm | .ignorm =>
    p.dmemWords < o.aBase.toNat + o.m1.toNat + 1 ∨ p.dmemWords < o.bBase.toNat + o.m1.toNat + 1
  | .c2sp | .mgc2sp =>
    p.dmemWords < o.aBase.toNat + o.m1.toNat + 1 ∨ p.dmemWords < o.bBase.toNat + o.len.toNat ∨
      p.dmemWords < o.cBase.toNat + o.len.toNat
  | .powsp => p.dmemWords < o.aBase.toNat + o.m1.toNat + 1 ∨ p.dmemWords < o.bBase.toNat + o.len.toNat / 2 + 1
  | .nop => False

/-- Two buffers have a word in common. -/
def haveCommonWord (a b : Buffer) : Prop :=
  ∃ w, (a.base ≤ w ∧ w < a.base + a.words) ∧ b.base ≤ w ∧ w < b.base + b.words

/-- The commands and buffers of `60_exceptions.md` R238. -/
def overlapRefused (o : Operands) : Instr → Prop
  | .fft | .rfft => haveCommonWord ⟨o.aBase.toNat, o.len.toNat⟩ ⟨o.bBase.toNat, o.len.toNat⟩
  | .c2sp | .mgc2sp => haveCommonWord ⟨o.bBase.toNat, o.len.toNat⟩ ⟨o.cBase.toNat, o.len.toNat⟩
  | .nop | .freqt | .freqtu | .gc2gc | .gnorm | .ignorm | .mgc2mgc | .powsp => False

/-- The condition of each error code for the command `i` (`60_exceptions.md` R230). The word of a command is legal. -/
def refusalCondition (p : Params) (o : Operands) (i : Instr) : ErrorCode → Prop
  | .illegalOpcode => False
  | .badLength => usesLength i ∧ ¬ lengthAdmitted p o.len.toNat
  | .badOrder => orderRefused p o i
  | .badParam => paramRefused o i
  | .addrRange => rangeRefused p o i
  | .overlap => overlapRefused o i

/-! ### Terms for binary64 values -/

/-- Equal, or both a NaN: "A model compares NaN results only as 'is a NaN'" (`00_scope.md` R12). -/
def F64.agree (x y : F64) : Prop := x = y ∨ (F64.isNaN x = true ∧ F64.isNaN y = true)

/-- `r` is the exact result `q` rounded to nearest, ties to even, with overflow to infinity (`00_scope.md` R10, R11). The
sign of a zero is not claimed. -/
def F64.rounds (q : ℚ) (r : F64) : Prop :=
  (F64.isFinite r = true ∧ |q| < 2 ^ 1024 - 2 ^ 970 ∧
    ∀ z, F64.isFinite z = true → |F64.value r - q| ≤ |F64.value z - q| ∧
      (|F64.value z - q| = |F64.value r - q| → F64.value z = F64.value r ∨ r.toNat % 2 = 0)) ∨
  (2 ^ 1024 - 2 ^ 970 ≤ |q| ∧ r = F64.inf (decide (q < 0)))

/-- `r` is the IEEE 754 sum of `x` and `y`, its NaN the draw `d` (`00_scope.md` R10, R11, R12; the cases R10 leaves to
IEEE 754 are DEDUCED, `notes/assumptions/13.md`). -/
structure F64.IsSum (d x y r : F64) : Prop where
  nan : F64.isNaN x = true ∨ F64.isNaN y = true → r = d
  infInf : ∀ s t, x = F64.inf s → y = F64.inf t → r = if s = t then F64.inf s else d
  infFinite : ∀ s, x = F64.inf s → F64.isFinite y = true → r = F64.inf s
  finiteInf : ∀ t, F64.isFinite x = true → y = F64.inf t → r = F64.inf t
  rounded : F64.isFinite x = true → F64.isFinite y = true → F64.rounds (F64.value x + F64.value y) r
  /-- An exact sum of zero is −0.0 only of two negative operands, which are then two −0.0. -/
  zero : F64.isFinite x = true → F64.isFinite y = true → F64.value x + F64.value y = 0 →
    r = F64.zero (F64.sign x && F64.sign y)
  sign : F64.isFinite x = true → F64.isFinite y = true → F64.value x + F64.value y ≠ 0 →
    F64.sign r = decide (F64.value x + F64.value y < 0)

/-- `r` is the IEEE 754 product of `x` and `y`, its NaN the draw `d` (as `F64.IsSum`). -/
structure F64.IsProduct (d x y r : F64) : Prop where
  nan : F64.isNaN x = true ∨ F64.isNaN y = true → r = d
  infInf : ∀ s t, x = F64.inf s → y = F64.inf t → r = F64.inf (s != t)
  infFinite : ∀ s, x = F64.inf s → F64.isFinite y = true →
    r = if F64.isZero y = true then d else F64.inf (s != F64.sign y)
  finiteInf : ∀ t, F64.isFinite x = true → y = F64.inf t →
    r = if F64.isZero x = true then d else F64.inf (F64.sign x != t)
  rounded : F64.isFinite x = true → F64.isFinite y = true → F64.rounds (F64.value x * F64.value y) r
  sign : F64.isFinite x = true → F64.isFinite y = true → F64.sign r = (F64.sign x != F64.sign y)

/-- `r` is the IEEE 754 quotient of `x` by `y`, its NaN the draw `d` (as `F64.IsSum`). -/
structure F64.IsQuotient (d x y r : F64) : Prop where
  nan : F64.isNaN x = true ∨ F64.isNaN y = true → r = d
  infInf : ∀ s t, x = F64.inf s → y = F64.inf t → r = d
  infFinite : ∀ s, x = F64.inf s → F64.isFinite y = true → r = F64.inf (s != F64.sign y)
  finiteInf : ∀ t, F64.isFinite x = true → y = F64.inf t → r = F64.zero (F64.sign x != t)
  byZero : F64.isFinite x = true → F64.isZero y = true →
    r = if F64.isZero x = true then d else F64.inf (F64.sign x != F64.sign y)
  rounded : F64.isFinite x = true → F64.isFinite y = true → F64.isZero y = false →
    F64.rounds (F64.value x / F64.value y) r
  sign : F64.isFinite x = true → F64.isFinite y = true → F64.isZero y = false →
    F64.sign r = (F64.sign x != F64.sign y)

/-! ### The pseudocode of the pure functions, as relations on elements

Each says what the lines of a rule give, element by element and up to the draw of a NaN's bits, and names no function of
the machine but `tw` and `twc`. -/

/-- One pass of `FREQT_F` for the source coefficient `c`, from the old coefficients `d` to the new ones `g`
(`40_cepstral.md` R131). -/
structure IsFreqtPass (N : Numerics) (a b c : F64) (d g : Vec) : Prop where
  length : g.length = d.length
  first : F64.agree (elem g 0) (N.add c (N.mul a (elem d 0)))
  second : 2 ≤ d.length → F64.agree (elem g 1) (N.add (N.mul b (elem d 0)) (N.mul a (elem d 1)))
  rest : ∀ j, 2 ≤ j → j < d.length →
    F64.agree (elem g j) (N.add (elem d (j - 1)) (N.mul a (N.sub (elem d j) (elem g (j - 1)))))

/-- One pass of `FREQTU_F` (`40_cepstral.md` R132). -/
structure IsFreqtuPass (N : Numerics) (a c : F64) (d g : Vec) : Prop where
  length : g.length = d.length
  first : elem g 0 = c
  rest : ∀ j, 1 ≤ j → j < d.length →
    F64.agree (elem g j) (N.add (elem d (j - 1)) (N.mul a (N.sub (elem d j) (elem g (j - 1)))))

/-- The convolution sum of `GC2GC_F` at index `i` over `k = 1, …, kmax`, `w k` being the weight of the product
`ca[k] * c2[i − k]` (`40_cepstral.md` R133). -/
def convSum (N : Numerics) (w : Nat → F64) (ca c2 : Vec) (i : Nat) : Nat → F64
  | 0 => 0x0000000000000000#64
  | k + 1 => N.add (convSum N w ca c2 i k) (N.mul (w (k + 1)) (N.mul (elem ca (k + 1)) (elem c2 (i - (k + 1)))))

/-- `ss1` of `GC2GC_F` at index `i`: the weight is `float(i − k)`, and `kmax` is `min(m1, i − 1)`. -/
def convSum1 (N : Numerics) (ca c2 : Vec) (m1 i : Nat) : F64 :=
  convSum N (fun k => F64.ofNat (i - k)) ca c2 i (min m1 (i - 1))

/-- `ss2` of `GC2GC_F` at index `i`: the weight is `float(k)`. -/
def convSum2 (N : Numerics) (ca c2 : Vec) (m1 i : Nat) : F64 := convSum N F64.ofNat ca c2 i (min m1 (i - 1))

/-- `r` has at index `j` what truncation or padding of `c`, of order `m1`, has: the element, but that a −0.0 may be
+0.0, or beyond the order a zero of either sign (`40_cepstral.md` R143, R144). -/
def keptAt (c : Vec) (m1 : Nat) (r : Vec) (j : Nat) : Prop :=
  (j ≤ m1 → elem r j = elem c j ∨ (elem c j = F64.zero true ∧ elem r j = F64.zero false)) ∧
    (m1 < j → F64.isZero (elem r j) = true)

/-- One butterfly with the twiddles `s` and `c` on the places `p` and `q` of both arrays (`41_spectral.md` R172). -/
structure IsButterfly (N : Numerics) (s c : F64) (p q : Nat) (z w : Pair) : Prop where
  sumReal : F64.agree (elem w.1 p) (N.add (elem z.1 p) (elem z.1 q))
  sumImag : F64.agree (elem w.2 p) (N.add (elem z.2 p) (elem z.2 q))
  diffReal : F64.agree (elem w.1 q)
    (N.add (N.mul c (N.sub (elem z.1 p) (elem z.1 q))) (N.mul s (N.sub (elem z.2 p) (elem z.2 q))))
  diffImag : F64.agree (elem w.2 q)
    (N.sub (N.mul c (N.sub (elem z.2 p) (elem z.2 q))) (N.mul s (N.sub (elem z.1 p) (elem z.1 q))))

/-- One stage of `FFT_F`, with half-length `lmx` and twiddle step `lf`: every butterfly on the arrays as they stood before
the stage (`41_spectral.md` R172). -/
def IsStage (N : Numerics) (n lmx lf : Nat) (z w : Pair) : Prop :=
  w.1.length = z.1.length ∧ w.2.length = z.2.length ∧
    ∀ j q, j < lmx → q < n / (2 * lmx) →
      IsButterfly N (tw N n (j * lf)) (twc N n (j * lf)) (j + q * (2 * lmx)) (j + q * (2 * lmx) + lmx) z w

/-- The last stage of `FFT_F`: sums and differences without a twiddle (`41_spectral.md` R172). -/
def IsLastStage (N : Numerics) (n : Nat) (z w : Pair) : Prop :=
  w.1.length = z.1.length ∧ w.2.length = z.2.length ∧
    ∀ h, h < n / 2 →
      F64.agree (elem w.1 (2 * h)) (N.add (elem z.1 (2 * h)) (elem z.1 (2 * h + 1))) ∧
      F64.agree (elem w.2 (2 * h)) (N.add (elem z.2 (2 * h)) (elem z.2 (2 * h + 1))) ∧
      F64.agree (elem w.1 (2 * h + 1)) (N.sub (elem z.1 (2 * h)) (elem z.1 (2 * h + 1))) ∧
      F64.agree (elem w.2 (2 * h + 1)) (N.sub (elem z.2 (2 * h)) (elem z.2 (2 * h + 1)))

/-- The spectrum `r` of length `2M` is reconstructed from the half-length transform `h` at index `t` by the lines of
`RFFT_F` (`41_spectral.md` R173). -/
structure IsReconstructed (N : Numerics) (M t : Nat) (h r : Pair) : Prop where
  real :
    let s := tw N (2 * M) t
    let c := twc N (2 * M) t
    let yt := N.add (elem h.2 t) (elem h.2 (M - t))
    let xt := N.sub (elem h.1 t) (elem h.1 (M - t))
    F64.agree (elem r.1 (2 * M - t))
      (N.mul (N.sub (N.add (N.add (elem h.1 t) (elem h.1 (M - t))) (N.mul c yt)) (N.mul s xt)) 0x3FE0000000000000#64)
  imag :
    let s := tw N (2 * M) t
    let c := twc N (2 * M) t
    let yt := N.add (elem h.2 t) (elem h.2 (M - t))
    let xt := N.sub (elem h.1 t) (elem h.1 (M - t))
    F64.agree (elem r.2 (2 * M - t))
      (N.mul (N.add (N.add (N.sub (elem h.2 (M - t)) (elem h.2 t)) (N.mul s yt)) (N.mul c xt)) 0x3FE0000000000000#64)

/-- The low `k` bits of `i` in reverse order. -/
def reverseBits : Nat → Nat → Nat
  | 0, _ => 0
  | k + 1, i => (i % 2) * 2 ^ k + reverseBits k (i / 2)

end Sys2Proof.Machine
end

