-- ==== Sys2Proof/Certificates/Slice0/Obligations.lean ====
section
/-!
DEFINITION. The statements put to the provers, in terms of `Safety.lean` and of the machine. Each docstring names the
rule of the spec it formalises. A statement about every state holds in every configuration, since a state carries its
configuration.
-/

open Sys2Proof Sys2Proof.Machine

/-! ### Encoding -/

/-- `30_encoding.md` R102: the command word of each mnemonic, the whole 64-bit value, decodes to it. -/
def Obligations.CommandWordsDecode : Prop :=
  decodeWord 0x0000000000000000#64 = .ok .nop ∧ decodeWord 0x0000000000000001#64 = .ok .fft ∧
  decodeWord 0x0000000000000002#64 = .ok .rfft ∧ decodeWord 0x0000000000000003#64 = .ok .freqt ∧
  decodeWord 0x0000000000000004#64 = .ok .freqtu ∧ decodeWord 0x0000000000000005#64 = .ok .gc2gc ∧
  decodeWord 0x0000000000000006#64 = .ok .gnorm ∧ decodeWord 0x0000000000000007#64 = .ok .ignorm ∧
  decodeWord 0x0000000000000008#64 = .ok .mgc2mgc ∧ decodeWord 0x0000000000000009#64 = .ok .c2sp ∧
  decodeWord 0x000000000000000A#64 = .ok .mgc2sp ∧ decodeWord 0x000000000000000B#64 = .ok .powsp

/-- `30_encoding.md` R107: a word decodes to a command, which it then is the word of, exactly where RSV = 0 and OPC is at
most 0x0B. -/
def Obligations.WordIsLegalOrIllegal : Prop :=
  ∀ v : Word, (v.toNat / 2 ^ 8 = 0 ∧ v.toNat % 2 ^ 8 ≤ 0x0B → ∃ i, decodeWord v = .ok i ∧ v = encodeWord i) ∧
    (v.toNat / 2 ^ 8 ≠ 0 ∨ 0x0C ≤ v.toNat % 2 ^ 8 → ∃ e, decodeWord v = .error e)

/-- Decode and encode agree on bytes (`30_encoding.md` R101, R102; `20_memory.md` R72): the decoder reads command `i`
from exactly the eight bytes of `i`'s word. -/
def Obligations.DecodeEncodeAgree : Prop :=
  ∀ (bytes : List Byte) (i : Instr), decode bytes = .ok i ↔ bytes = encode i

/-! ### A step runs the decoded command -/

/-- `42_control.md` R210, R211, R214: where the host's next access writes the word of `i` to CMD and the engine is IDLE,
the step is `exec i` of the state after the access, its response OK; where the engine is BUSY with the word of `i` in
LATCH and has the step, the step is `exec i`. -/
def Obligations.StepRunsDecodedCommand : Prop :=
  (∀ (s : State) (v : Word) (i : Instr) (rest : List Event), s.engine = .idle → decodeWord v = .ok i →
    s.inputs = s.writesAt 0x020 v :: rest →
      step s = exec i { s with inputs := rest, port := some (.write false) }) ∧
  (∀ (s : State) (l : Latch) (i : Instr), s.engine = .busy l → decodeWord l.cmd = .ok i → s.inputs = [] →
      step s = exec i s) ∧
  (∀ (s : State) (l : Latch) (i : Instr) (rest : List Event), s.engine = .busy l → decodeWord l.cmd = .ok i →
    s.inputs = .engine :: rest → step s = exec i { s with inputs := rest })

/-! ### Issue -/

/-- `42_control.md` R211, R212: a command whose checks pass is latched with the operands as they stand, its opcode is in
LASTOP, DONE, ERR and ERRCODE are cleared, the engine is BUSY, and nothing else changes. -/
def Obligations.IssueAccepts : Prop :=
  ∀ (s : State) (i : Instr), s.engine = .idle → check s.params ⟨encodeWord i, s.operands⟩ = none →
    exec i s = .next { s with
      engine := .busy ⟨encodeWord i, s.operands⟩
      status := { s.status with lastop := opcodeOf i, done := false, err := false, errcode := 0 } }

/-- `60_exceptions.md` R232: a command that fails a check sets ERR, ERRCODE and DONE, its opcode is in LASTOP, the engine
stays IDLE, and no DMEM word, no operand register and nothing else changes. -/
def Obligations.IssueRejects : Prop :=
  ∀ (s : State) (i : Instr) (c : ErrorCode), s.engine = .idle →
    check s.params ⟨encodeWord i, s.operands⟩ = some c →
    exec i s = .next { s with
      status := { s.status with lastop := opcodeOf i, done := true, err := true, errcode := c.code } }

/-- `60_exceptions.md` R233, R232: an illegal word written to CMD while IDLE is refused with ERRCODE 0x01; it changes
STATUS and the port response alone. -/
def Obligations.IllegalWordRefused : Prop :=
  ∀ (s : State) (v : Word) (rest : List Event), s.engine = .idle → s.inputs = s.writesAt 0x020 v :: rest →
    v.toNat / 2 ^ 8 ≠ 0 ∨ 0x0C ≤ v.toNat % 2 ^ 8 →
    step s = .next { s with
      inputs := rest
      port := some (.write false)
      status := { s.status with lastop := BitVec.ofNat 8 v.toNat, done := true, err := true, errcode := 0x01 } }

/-- `70_reset_and_hazards.md` R271: any CMD write while BUSY is dropped: response OK, OVR set, nothing else changed. -/
def Obligations.CommandWriteWhileBusyDropped : Prop :=
  ∀ (s : State) (l : Latch) (v : Word) (rest : List Event), s.engine = .busy l →
    s.inputs = s.writesAt 0x020 v :: rest →
    step s = .next { s with
      inputs := rest
      port := some (.write false)
      status := { s.status with ovr := true } }

/-! ### The checks -/

/-- `60_exceptions.md` R236: the bit-level tests of a warping constant and of an exponent are the ranges (−1, 1) and
[−1, 0] on the number line; a NaN and an infinity are refused. -/
def Obligations.ParameterTestsAreRanges : Prop :=
  (∀ a : F64, warpLegal a = true ↔ warpInRange a) ∧ (∀ g : F64, exponentLegal g = true ↔ exponentInRange g)

/-- `60_exceptions.md` R231, R234 to R238: CHECK refuses an illegal word with ILLEGAL_OPCODE; for every command and all
operands it reports the first code, in the order of the code table, whose condition in the rules' own tables holds, and
passes exactly where none holds. -/
def Obligations.CheckReportsFirstCondition : Prop :=
  ∀ (p : Params) (o : Operands),
    (∀ v : Word, v.toNat / 2 ^ 8 ≠ 0 ∨ 0x0C ≤ v.toNat % 2 ^ 8 → check p ⟨v, o⟩ = some .illegalOpcode) ∧
    ∀ i : Instr, (check p ⟨encodeWord i, o⟩ = none ↔ ∀ c, ¬ refusalCondition p o i c) ∧
      ∀ c, check p ⟨encodeWord i, o⟩ = some c ↔
        refusalCondition p o i c ∧ ∀ c', c'.code.toNat < c.code.toNat → ¬ refusalCondition p o i c'

/-! ### Completion: each command's effect, where LATCH has passed the checks and the input words hold values -/

/-- `42_control.md` R215, R214: NOP's completion changes nothing but BUSY and DONE. -/
def Obligations.NopCompletes : Prop :=
  ∀ (s : State) (l : Latch), s.engine = .busy l →
    exec .nop s = .next { s with
      engine := .idle, status := { s.status with done := true }, draws := s.draws + 1 }

/-- `41_spectral.md` R177: FFT writes the transform of X and Y over X and Y, and changes nothing else. -/
def Obligations.FftCompletes : Prop :=
  ∀ (s : State) (l : Latch) (x y : Vec), s.engine = .busy l → check s.params ⟨encodeWord .fft, l.ops⟩ = none →
    x.length = l.ops.len.toNat → Holds s.mem l.ops.aBase.toNat x →
    y.length = l.ops.len.toNat → Holds s.mem l.ops.bBase.toNat y →
    ∃ t, exec .fft s = .next t ∧ Completed (fftFootprint l.ops) s t ∧
      (fftF (numerics.at s.draws) x y l.ops.len.toNat).1.length = l.ops.len.toNat ∧
      (fftF (numerics.at s.draws) x y l.ops.len.toNat).2.length = l.ops.len.toNat ∧
      Holds t.mem l.ops.aBase.toNat (fftF (numerics.at s.draws) x y l.ops.len.toNat).1 ∧
      Holds t.mem l.ops.bBase.toNat (fftF (numerics.at s.draws) x y l.ops.len.toNat).2

/-- `41_spectral.md` R178: RFFT writes the spectrum of the real X over X and Y; the content of Y before does not matter,
nor whether anything had written it. -/
def Obligations.RfftCompletes : Prop :=
  ∀ (s : State) (l : Latch) (x : Vec), s.engine = .busy l → check s.params ⟨encodeWord .rfft, l.ops⟩ = none →
    x.length = l.ops.len.toNat → Holds s.mem l.ops.aBase.toNat x →
    ∃ t, exec .rfft s = .next t ∧ Completed (rfftFootprint l.ops) s t ∧
      (rfftF (numerics.at s.draws) x l.ops.len.toNat).1.length = l.ops.len.toNat ∧
      (rfftF (numerics.at s.draws) x l.ops.len.toNat).2.length = l.ops.len.toNat ∧
      Holds t.mem l.ops.aBase.toNat (rfftF (numerics.at s.draws) x l.ops.len.toNat).1 ∧
      Holds t.mem l.ops.bBase.toNat (rfftF (numerics.at s.draws) x l.ops.len.toNat).2

/-- `40_cepstral.md` R137: FREQT writes the M2 + 1 coefficients of `FREQT_F` at B_BASE, and changes nothing else. -/
def Obligations.FreqtCompletes : Prop :=
  ∀ (s : State) (l : Latch) (c : Vec), s.engine = .busy l → check s.params ⟨encodeWord .freqt, l.ops⟩ = none →
    c.length = l.ops.m1.toNat + 1 → Holds s.mem l.ops.aBase.toNat c →
    ∃ t, exec .freqt s = .next t ∧ Completed (freqtFootprint l.ops) s t ∧
      (freqtF (numerics.at s.draws) c l.ops.m1.toNat l.ops.m2.toNat l.ops.fa1).length = l.ops.m2.toNat + 1 ∧
      Holds t.mem l.ops.bBase.toNat (freqtF (numerics.at s.draws) c l.ops.m1.toNat l.ops.m2.toNat l.ops.fa1)

/-- `40_cepstral.md` R138: FREQTU writes the M2 + 1 coefficients of `FREQTU_F` at B_BASE, and changes nothing else. -/
def Obligations.FreqtuCompletes : Prop :=
  ∀ (s : State) (l : Latch) (c : Vec), s.engine = .busy l → check s.params ⟨encodeWord .freqtu, l.ops⟩ = none →
    c.length = l.ops.m1.toNat + 1 → Holds s.mem l.ops.aBase.toNat c →
    ∃ t, exec .freqtu s = .next t ∧ Completed (freqtuFootprint l.ops) s t ∧
      (freqtuF (numerics.at s.draws) c l.ops.m1.toNat l.ops.m2.toNat l.ops.fa1).length = l.ops.m2.toNat + 1 ∧
      Holds t.mem l.ops.bBase.toNat (freqtuF (numerics.at s.draws) c l.ops.m1.toNat l.ops.m2.toNat l.ops.fa1)

/-- `40_cepstral.md` R139: GC2GC writes the M2 + 1 coefficients of `GC2GC_F` at B_BASE, and changes nothing else. -/
def Obligations.Gc2gcCompletes : Prop :=
  ∀ (s : State) (l : Latch) (c : Vec), s.engine = .busy l → check s.params ⟨encodeWord .gc2gc, l.ops⟩ = none →
    c.length = l.ops.m1.toNat + 1 → Holds s.mem l.ops.aBase.toNat c →
    ∃ t, exec .gc2gc s = .next t ∧ Completed (gc2gcFootprint l.ops) s t ∧
      (gc2gcF (numerics.at s.draws) c l.ops.m1.toNat l.ops.fg1 l.ops.m2.toNat l.ops.fg2).length = l.ops.m2.toNat + 1 ∧
      Holds t.mem l.ops.bBase.toNat
        (gc2gcF (numerics.at s.draws) c l.ops.m1.toNat l.ops.fg1 l.ops.m2.toNat l.ops.fg2)

/-- `40_cepstral.md` R140: GNORM writes the M1 + 1 coefficients of `GNORM_F` at B_BASE, and changes nothing else. -/
def Obligations.GnormCompletes : Prop :=
  ∀ (s : State) (l : Latch) (c : Vec), s.engine = .busy l → check s.params ⟨encodeWord .gnorm, l.ops⟩ = none →
    c.length = l.ops.m1.toNat + 1 → Holds s.mem l.ops.aBase.toNat c →
    ∃ t, exec .gnorm s = .next t ∧ Completed (gnormFootprint l.ops) s t ∧
      (gnormF (numerics.at s.draws) c l.ops.m1.toNat l.ops.fg1).length = l.ops.m1.toNat + 1 ∧
      Holds t.mem l.ops.bBase.toNat (gnormF (numerics.at s.draws) c l.ops.m1.toNat l.ops.fg1)

/-- `40_cepstral.md` R141: IGNORM writes the M1 + 1 coefficients of `IGNORM_F` at B_BASE, and changes nothing else. -/
def Obligations.IgnormCompletes : Prop :=
  ∀ (s : State) (l : Latch) (c : Vec), s.engine = .busy l → check s.params ⟨encodeWord .ignorm, l.ops⟩ = none →
    c.length = l.ops.m1.toNat + 1 → Holds s.mem l.ops.aBase.toNat c →
    ∃ t, exec .ignorm s = .next t ∧ Completed (ignormFootprint l.ops) s t ∧
      (ignormF (numerics.at s.draws) c l.ops.m1.toNat l.ops.fg1).length = l.ops.m1.toNat + 1 ∧
      Holds t.mem l.ops.bBase.toNat (ignormF (numerics.at s.draws) c l.ops.m1.toNat l.ops.fg1)

/-- `40_cepstral.md` R142: MGC2MGC writes the M2 + 1 coefficients of `MGC2MGC_F` at B_BASE, and changes nothing else. -/
def Obligations.Mgc2mgcCompletes : Prop :=
  ∀ (s : State) (l : Latch) (c : Vec), s.engine = .busy l → check s.params ⟨encodeWord .mgc2mgc, l.ops⟩ = none →
    c.length = l.ops.m1.toNat + 1 → Holds s.mem l.ops.aBase.toNat c →
    ∃ t, exec .mgc2mgc s = .next t ∧ Completed (mgc2mgcFootprint l.ops) s t ∧
      (mgc2mgcF (numerics.at s.draws) c l.ops.m1.toNat l.ops.fa1 l.ops.fg1 l.ops.m2.toNat l.ops.fa2
        l.ops.fg2).length = l.ops.m2.toNat + 1 ∧
      Holds t.mem l.ops.bBase.toNat
        (mgc2mgcF (numerics.at s.draws) c l.ops.m1.toNat l.ops.fa1 l.ops.fg1 l.ops.m2.toNat l.ops.fa2 l.ops.fg2)

/-- `41_spectral.md` R179: C2SP writes the LEN real parts at B_BASE and the LEN imaginary parts at C_BASE, and changes
nothing else. R174: C2SP_F is RFFT_F of the source filled up with +0.0 to the length. -/
def Obligations.C2spCompletes : Prop :=
  (∀ (s : State) (l : Latch) (c : Vec), s.engine = .busy l → check s.params ⟨encodeWord .c2sp, l.ops⟩ = none →
    c.length = l.ops.m1.toNat + 1 → Holds s.mem l.ops.aBase.toNat c →
    ∃ t, exec .c2sp s = .next t ∧ Completed (c2spFootprint l.ops) s t ∧
      (c2spF (numerics.at s.draws) c l.ops.m1.toNat l.ops.len.toNat).1.length = l.ops.len.toNat ∧
      (c2spF (numerics.at s.draws) c l.ops.m1.toNat l.ops.len.toNat).2.length = l.ops.len.toNat ∧
      Holds t.mem l.ops.bBase.toNat (c2spF (numerics.at s.draws) c l.ops.m1.toNat l.ops.len.toNat).1 ∧
      Holds t.mem l.ops.cBase.toNat (c2spF (numerics.at s.draws) c l.ops.m1.toNat l.ops.len.toNat).2) ∧
  ∀ (N : Numerics) (c : Vec) (m L : Nat), c.length = m + 1 → m + 1 ≤ L →
    c2spF N c m L = rfftF N (c ++ List.replicate (L - (m + 1)) 0x0000000000000000#64) L

/-- `41_spectral.md` R180: MGC2SP writes the LEN real parts at B_BASE and the LEN imaginary parts at C_BASE, and changes
nothing else. R175: MGC2SP_F converts to order L/2, warping constant +0.0 and exponent +0.0, and gives C2SP_F of that.
`N.at` names places of NaN draws (the model's own, `notes/assumptions/3.md`). -/
def Obligations.Mgc2spCompletes : Prop :=
  (∀ (s : State) (l : Latch) (c : Vec), s.engine = .busy l → check s.params ⟨encodeWord .mgc2sp, l.ops⟩ = none →
    c.length = l.ops.m1.toNat + 1 → Holds s.mem l.ops.aBase.toNat c →
    ∃ t, exec .mgc2sp s = .next t ∧ Completed (mgc2spFootprint l.ops) s t ∧
      (mgc2spF (numerics.at s.draws) c l.ops.m1.toNat l.ops.fa1 l.ops.fg1 l.ops.len.toNat).1.length =
        l.ops.len.toNat ∧
      (mgc2spF (numerics.at s.draws) c l.ops.m1.toNat l.ops.fa1 l.ops.fg1 l.ops.len.toNat).2.length =
        l.ops.len.toNat ∧
      Holds t.mem l.ops.bBase.toNat
        (mgc2spF (numerics.at s.draws) c l.ops.m1.toNat l.ops.fa1 l.ops.fg1 l.ops.len.toNat).1 ∧
      Holds t.mem l.ops.cBase.toNat
        (mgc2spF (numerics.at s.draws) c l.ops.m1.toNat l.ops.fa1 l.ops.fg1 l.ops.len.toNat).2) ∧
  ∀ (N : Numerics) (c : Vec) (m L : Nat) (a g : F64),
    mgc2spF N c m a g L =
      c2spF (N.at 1) (mgc2mgcF (N.at 0) c m a g (L / 2) 0x0000000000000000#64 0x0000000000000000#64) (L / 2) L

/-- `41_spectral.md` R181, R185: POWSP writes exactly LEN/2 + 1 power values at B_BASE, and changes nothing else. R176: the
value at index `i` is EXP of 2.0 times the real part of MGC2SP_F there, up to the draw of a NaN's bits; `v` stands before
the claim because EXP may tell one NaN from another. -/
def Obligations.PowspCompletes : Prop :=
  (∀ (s : State) (l : Latch) (c : Vec), s.engine = .busy l → check s.params ⟨encodeWord .powsp, l.ops⟩ = none →
    c.length = l.ops.m1.toNat + 1 → Holds s.mem l.ops.aBase.toNat c →
    ∃ t, exec .powsp s = .next t ∧ Completed (powspFootprint l.ops) s t ∧
      (powspF (numerics.at s.draws) c l.ops.m1.toNat l.ops.fa1 l.ops.fg1 l.ops.len.toNat).length =
        l.ops.len.toNat / 2 + 1 ∧
      Holds t.mem l.ops.bBase.toNat
        (powspF (numerics.at s.draws) c l.ops.m1.toNat l.ops.fa1 l.ops.fg1 l.ops.len.toNat)) ∧
  ∀ (N : Numerics) (c : Vec) (m L : Nat) (a g : F64),
    (powspF N c m a g L).length = L / 2 + 1 ∧
    ∀ i, i ≤ L / 2 → ∃ v, F64.agree v (N.mul 0x4000000000000000#64 (elem (mgc2spF (N.at 0) c m a g L).1 i)) ∧
      F64.agree (elem (powspF N c m a g L) i) (N.exp v)

/-- `60_exceptions.md` R239, with `10_state.md` R45 (DESIGN CHOICE, `notes/assumptions/4.md`: an unwritten input stops the
model): a completion whose LATCH has passed the checks answers a next state, or stops at an unwritten word of one of the
command's input buffers; no data value stops it. -/
def Obligations.CompletionStopsOnlyAtUnwrittenInput : Prop :=
  ∀ (s : State) (l : Latch) (i : Instr), s.engine = .busy l → check s.params ⟨encodeWord i, l.ops⟩ = none →
    (∃ t, exec i s = .next t) ∨
    ∃ w, exec i s = .fault (.unwrittenInput w) ∧ s.mem.readWord w = none ∧
      ∃ b ∈ (footprint i l.ops).inputs, b.base ≤ w ∧ w < b.base + b.words

/-! ### Pure functions -/

/-- `40_cepstral.md` R131: one pass of FREQT_F gives the lines of the rule, element by element; FREQT_F runs the passes
from zeros over the source, from the coefficient of highest index down to index 0, with `b` = 1.0 − a * a. Up to the draw
of a NaN's bits. -/
def Obligations.FreqtPassRecurrence : Prop :=
  (∀ (N : Numerics) (a b c : F64) (d : Vec), 1 ≤ d.length → IsFreqtPass N a b c d (freqtPass N a b c d)) ∧
  ∀ (N : Numerics) (c : Vec) (m1 m2 : Nat) (a : F64), c.length = m1 + 1 →
    ∃ (b : F64) (g : Nat → Vec), F64.agree b (N.sub 0x3FF0000000000000#64 (N.mul a a)) ∧
      g 0 = List.replicate (m2 + 1) 0x0000000000000000#64 ∧
      (∀ i, i ≤ m1 → IsFreqtPass N a b (elem c (m1 - i)) (g i) (g (i + 1))) ∧ freqtF N c m1 m2 a = g (m1 + 1)

/-- `40_cepstral.md` R132: one pass of FREQTU_F gives the lines of the rule, element 0 the source coefficient itself;
FREQTU_F runs the passes from zeros over the source, from the highest index down to 0. -/
def Obligations.FreqtuPassRecurrence : Prop :=
  (∀ (N : Numerics) (a c : F64) (d : Vec), 1 ≤ d.length → IsFreqtuPass N a c d (freqtuPass N a c d)) ∧
  ∀ (N : Numerics) (c : Vec) (m1 m2 : Nat) (a : F64), c.length = m1 + 1 →
    ∃ g : Nat → Vec, g 0 = List.replicate (m2 + 1) 0x0000000000000000#64 ∧
      (∀ i, i ≤ m1 → IsFreqtuPass N a (elem c (m1 - i)) (g i) (g (i + 1))) ∧ freqtuF N c m1 m2 a = g (m1 + 1)

/-- `40_cepstral.md` R133: coefficient 0 is copied, and each further coefficient is made of the two convolution sums over
the coefficients already computed. R144: with both exponents a zero and a finite source, the result has the source
truncated or padded at every index where both sums are finite; where one is not, the result there is a NaN
(`notes/assumptions/15.md`: R144 does not name the overflow). -/
def Obligations.Gc2gcRecurrence : Prop :=
  ∀ (N : Numerics) (c : Vec) (m1 m2 : Nat) (g1 g2 : F64),
    let r := gc2gcF N c m1 g1 m2 g2
    r.length = m2 + 1 ∧ elem r 0 = elem c 0 ∧
    (∀ i, 1 ≤ i → i ≤ m2 →
      let t := N.div (N.sub (N.mul g2 (convSum2 N c r m1 i)) (N.mul g1 (convSum1 N c r m1 i))) (F64.ofNat i)
      F64.agree (elem r i) (if i ≤ m1 then N.add (elem c i) t else t)) ∧
    (F64.isZero g1 = true → F64.isZero g2 = true → (∀ x ∈ c, F64.isFinite x = true) → m2 ≤ 65535 →
      ∀ i, 1 ≤ i → i ≤ m2 →
        (F64.isFinite (convSum1 N c r m1 i) = true ∧ F64.isFinite (convSum2 N c r m1 i) = true → keptAt c m1 r i) ∧
        (F64.isFinite (convSum1 N c r m1 i) = false ∨ F64.isFinite (convSum2 N c r m1 i) = false →
          F64.isNaN (elem r i) = true))

/-- `40_cepstral.md` R134: gain normalization, element by element, up to the draw of a NaN's bits. `k` and the exponent `e`
stand before the claims because POW may tell one NaN from another. -/
def Obligations.GnormValues : Prop :=
  ∀ (N : Numerics) (c : Vec) (m : Nat) (g : F64),
    (gnormF N c m g).length = m + 1 ∧
    (F64.isZero g = true → F64.agree (elem (gnormF N c m g) 0) (N.exp (elem c 0)) ∧
      ∀ i, 1 ≤ i → i ≤ m → elem (gnormF N c m g) i = elem c i) ∧
    (F64.isZero g = false → ∃ k e, F64.agree k (N.add F64.lit1 (N.mul g (elem c 0))) ∧
      F64.agree e (N.div F64.lit1 g) ∧ F64.agree (elem (gnormF N c m g) 0) (N.pow k e) ∧
      ∀ i, 1 ≤ i → i ≤ m → F64.agree (elem (gnormF N c m g) i) (N.div (elem c i) k))

/-- `40_cepstral.md` R135: gain denormalization, element by element, up to the draw of a NaN's bits. -/
def Obligations.IgnormValues : Prop :=
  ∀ (N : Numerics) (c : Vec) (m : Nat) (g : F64),
    let k := N.pow (elem c 0) g
    (ignormF N c m g).length = m + 1 ∧
    (F64.isZero g = true → F64.agree (elem (ignormF N c m g) 0) (N.log (elem c 0)) ∧
      ∀ i, 1 ≤ i → i ≤ m → elem (ignormF N c m g) i = elem c i) ∧
    (F64.isZero g = false →
      F64.agree (elem (ignormF N c m g) 0) (N.div (N.sub k F64.lit1) g) ∧
      ∀ i, 1 ≤ i → i ≤ m → F64.agree (elem (ignormF N c m g) i) (N.mul k (elem c i)))

/-- `40_cepstral.md` R136: the combined shift, and the two paths it chooses between: the fast path for a shift that is a
zero of either sign, and for any other the warp first, on the un-normalized source, then GNORM, GC2GC from m2 to m2 and
IGNORM. Equal legal constants give +0.0 (R142, R146), and +0.0 with −0.0 gives −0.0, so both take the fast path. `N.at`
names places of NaN draws (the model's own, `notes/assumptions/3.md`). -/
def Obligations.EqualWarpTakesFastPath : Prop :=
  (∀ (N : Numerics) (a1 a2 : F64), F64.agree (warpShift N a1 a2)
    (N.div (N.sub a2 a1) (N.sub 0x3FF0000000000000#64 (N.mul a1 a2)))) ∧
  (∀ (N : Numerics) (a : F64), warpLegal a = true → warpShift N a a = 0x0000000000000000#64) ∧
  (∀ N : Numerics, warpShift N 0x0000000000000000#64 0x8000000000000000#64 = 0x8000000000000000#64) ∧
  ∀ (N : Numerics) (c : Vec) (m1 m2 : Nat) (a1 a2 g1 g2 : F64),
    let a := warpShift (N.at 0) a1 a2
    (F64.isZero a = true →
      mgc2mgcF N c m1 a1 g1 m2 a2 g2 =
        ignormF (N.at 3) (gc2gcF (N.at 2) (gnormF (N.at 1) c m1 g1) m1 g1 m2 g2) m2 g2) ∧
    (F64.isZero a = false →
      mgc2mgcF N c m1 a1 g1 m2 a2 g2 =
        ignormF (N.at 7) (gc2gcF (N.at 6) (gnormF (N.at 5) (freqtF (N.at 4) c m1 m2 a) m2 g1) m2 g1 m2 g2) m2 g2)

/-- `40_cepstral.md` R143, for every finite source: FREQT and FREQTU with alpha = ±0 truncate or pad, index by index,
unless two coefficients two apart differ by more than the range (`notes/assumptions/15.md`: R143 does not name the
overflow). FREQT forms such differences from coefficient 1 on and uses them from index 2 on, FREQTU from coefficient 0 on
and from index 1 on; where one overflows, every such index of the result is a NaN. -/
def Obligations.FreqtZeroAlphaTruncatesOrPads : Prop :=
  ∀ (N : Numerics) (c : Vec) (m1 m2 : Nat) (a : F64), F64.isZero a = true → c.length = m1 + 1 →
    (∀ x ∈ c, F64.isFinite x = true) →
    let inRange := fun n => F64.isFinite (N.sub (elem c (n + 2)) (elem c n))
    (freqtF N c m1 m2 a).length = m2 + 1 ∧ (freqtuF N c m1 m2 a).length = m2 + 1 ∧
    ∀ j, j ≤ m2 →
      ((j ≤ 1 ∨ ∀ n, 1 ≤ n → n + 2 ≤ m1 → inRange n = true) → keptAt c m1 (freqtF N c m1 m2 a) j) ∧
      (2 ≤ j → (∃ n, 1 ≤ n ∧ n + 2 ≤ m1 ∧ inRange n = false) → F64.isNaN (elem (freqtF N c m1 m2 a) j) = true) ∧
      ((j = 0 ∨ ∀ n, n + 2 ≤ m1 → inRange n = true) → keptAt c m1 (freqtuF N c m1 m2 a) j) ∧
      (1 ≤ j → (∃ n, n + 2 ≤ m1 ∧ inRange n = false) → F64.isNaN (elem (freqtuF N c m1 m2 a) j) = true)

/-- `40_cepstral.md` R143 as it is worded, for all finite inputs, fails by R131 and R132 (`notes/assumptions/15.md`):
whatever the numeric parameters and for either zero alpha, some finite source has a coefficient that FREQT, and one that
FREQTU, returns as a NaN. -/
def Obligations.FreqtZeroAlphaUnboundedFails : Prop :=
  ∀ (N : Numerics) (a : F64), F64.isZero a = true →
    ∃ (c : Vec) (m1 m2 : Nat), c.length = m1 + 1 ∧ (∀ x ∈ c, F64.isFinite x = true) ∧
      (∃ j, j ≤ m2 ∧ j ≤ m1 ∧ F64.isNaN (elem (freqtF N c m1 m2 a) j) = true) ∧
      ∃ j, j ≤ m2 ∧ j ≤ m1 ∧ F64.isNaN (elem (freqtuF N c m1 m2 a) j) = true

/-- `41_spectral.md` R170: the values of TW and TWC for every length an admitted configuration uses, `0x400921FB54442D18`
being PI (`00_scope.md` R13). R171: the entry that a transform of length `2^j` uses from a sine table built for the size `2^k` is
`TW(2^j, t)`, at every index `t` of R170, in every configuration (LMAX is at most `2^16`) and for every SIN. -/
def Obligations.TwiddleIndependentOfTableSize : Prop :=
  (∀ (N : Numerics) (j k t : Nat), 2 ≤ j → j ≤ k → k ≤ 16 → 4 * t ≤ 3 * 2 ^ j →
    elem (sinTable N (2 ^ k)) (t * 2 ^ (k - j)) = tw N (2 ^ j) t) ∧
  ∀ (N : Numerics) (k : Nat), 2 ≤ k → k ≤ 16 →
    tw N (2 ^ k) 0 = 0x0000000000000000#64 ∧ tw N (2 ^ k) (2 ^ k / 2) = 0x0000000000000000#64 ∧
    (∀ t, t ≠ 0 → t ≠ 2 ^ k / 2 → 4 * t ≤ 3 * 2 ^ k →
      F64.agree (tw N (2 ^ k) t) (N.sin (N.mul
        (N.mul (N.div 0x400921FB54442D18#64 (F64.ofNat (2 ^ k))) 0x4000000000000000#64) (F64.ofNat t)))) ∧
    ∀ t, 2 * t ≤ 2 ^ k → twc N (2 ^ k) t = tw N (2 ^ k) (t + 2 ^ k / 4)

/-- `41_spectral.md` R172: the permutation loop moves the element of index i to the bit-reversed index, in both arrays. -/
def Obligations.BitReversalPermutes : Prop :=
  ∀ (k : Nat) (x y : Vec), x.length = 2 ^ k → y.length = 2 ^ k → ∀ i, i < 2 ^ k →
    elem (bitReverse (2 ^ k) (x, y)).1 i = elem x (reverseBits k i) ∧
    elem (bitReverse (2 ^ k) (x, y)).2 i = elem y (reverseBits k i)

/-- `41_spectral.md` R172: FFT_F of length `2^k` is the stages of half-lengths `2^(k−1)` down to 2 with their twiddles, the
last stage without one, and the bit-reversed order; one butterfly changes its two places of both arrays and no other. The
transform of length 2 runs the last stage alone (`90_conflicts.md` C2). Up to the draw of a NaN's bits, and for every
length an admitted configuration accepts. -/
def Obligations.FftOfLengthTwo : Prop :=
  (∀ (N : Numerics) (x0 x1 y0 y1 : F64), ∃ r0 r1 i0 i1, fftF N [x0, x1] [y0, y1] 2 = ([r0, r1], [i0, i1]) ∧
    F64.agree r0 (N.add x0 x1) ∧ F64.agree r1 (N.sub x0 x1) ∧ F64.agree i0 (N.add y0 y1) ∧ F64.agree i1 (N.sub y0 y1)) ∧
  (∀ (N : Numerics) (s c : F64) (lmx p : Nat) (z : Pair), 1 ≤ lmx → p + lmx < z.1.length → p + lmx < z.2.length →
    IsButterfly N s c p (p + lmx) z (fftButterfly N s c lmx p z) ∧
    ∀ i, i ≠ p → i ≠ p + lmx → elem (fftButterfly N s c lmx p z).1 i = elem z.1 i ∧
      elem (fftButterfly N s c lmx p z).2 i = elem z.2 i) ∧
  ∀ (N : Numerics) (k : Nat) (x y : Vec), 1 ≤ k → k ≤ 16 → x.length = 2 ^ k → y.length = 2 ^ k →
    ∃ (z : Nat → Pair) (w : Pair), z 0 = (x, y) ∧
      (∀ i, i + 1 < k → IsStage N (2 ^ k) (2 ^ (k - 1 - i)) (2 ^ i) (z i) (z (i + 1))) ∧
      IsLastStage N (2 ^ k) (z (k - 1)) w ∧
      ∀ i, i < 2 ^ k → elem (fftF N x y (2 ^ k)).1 i = elem w.1 (reverseBits k i) ∧
        elem (fftF N x y (2 ^ k)).2 i = elem w.2 (reverseBits k i)

/-- `41_spectral.md` R173, R183: RFFT_F's result is conjugate-symmetric bit for bit, its imaginary part +0.0 at indices 0
and `M`, half the length. Its other values are the lines of R173 on the transform `h` of the even and the odd elements, for
every length an admitted configuration accepts. `N.at` names the place of NaN draws (the model's own,
`notes/assumptions/3.md`). -/
def Obligations.RfftConjugateSymmetric : Prop :=
  ∀ (N : Numerics) (x : Vec) (M : Nat), 2 ≤ M →
    let r := rfftF N x (2 * M)
    r.1.length = 2 * M ∧ r.2.length = 2 * M ∧
    elem r.2 0 = 0x0000000000000000#64 ∧ elem r.2 M = 0x0000000000000000#64 ∧
    (∀ t, 1 ≤ t → t < M → elem r.1 t = elem r.1 (2 * M - t) ∧ elem r.2 t = F64.neg (elem r.2 (2 * M - t))) ∧
    (M ≤ 2 ^ 15 →
      let h := fftF (N.at 0) ((List.range M).map fun i => elem x (2 * i)) ((List.range M).map fun i => elem x (2 * i + 1)) M
      F64.agree (elem r.1 0) (N.add (elem h.1 0) (elem h.2 0)) ∧
      F64.agree (elem r.1 M) (N.sub (elem h.1 0) (elem h.2 0)) ∧
      ∀ t, 1 ≤ t → t < M → IsReconstructed N M t h r)

/-- `41_spectral.md` R184 where SIN is finite: POWSP of an all-zero cepstrum is exactly 1.0 in each of its L/2 + 1 values,
for every order, every admitted alpha, gamma and length, and every lawful EXP, LOG and POW. R184 does not name the premise
on SIN, but R6 gives SIN no law and `0 · ∞` is a NaN. -/
def Obligations.PowspOfZeroCepstrumIsOne : Prop :=
  ∀ (N : Numerics) (c : Vec) (m k : Nat) (a g : F64), N.Lawful → (∀ x, F64.isFinite (N.sin x) = true) →
    c.length = m + 1 → (∀ x ∈ c, F64.isZero x = true) → m ≤ 65535 → warpLegal a = true → exponentLegal g = true →
    2 ≤ k → k ≤ 16 → powspF N c m a g (2 ^ k) = List.replicate (2 ^ k / 2 + 1) 0x3FF0000000000000#64

/-! ### binary64 -/

/-- `00_scope.md` R10, R11, R12: `+ − * /` on every pair of patterns. On finite values they are the exact results rounded
once, to nearest with ties to even, overflowing to infinity, with the sign IEEE 754 gives, that of a zero too; infinities
and division by zero give what IEEE 754 gives (`notes/assumptions/13.md`), and every NaN is the draw. Unary minus flips
the sign bit alone. -/
def Obligations.ArithmeticRoundsToNearestEven : Prop :=
  (∀ (d x y : F64), F64.isFinite x = true → F64.isFinite y = true →
    F64.rounds (F64.value x + F64.value y) (F64.add d x y) ∧
    F64.rounds (F64.value x - F64.value y) (F64.sub d x y) ∧
    F64.rounds (F64.value x * F64.value y) (F64.mul d x y) ∧
    (F64.isZero y = false → F64.rounds (F64.value x / F64.value y) (F64.div d x y))) ∧
  (∀ d x y : F64, F64.IsSum d x y (F64.add d x y) ∧ F64.IsSum d x (F64.neg y) (F64.sub d x y) ∧
    F64.IsProduct d x y (F64.mul d x y) ∧ F64.IsQuotient d x y (F64.div d x y)) ∧
  ∀ x : F64, F64.sign (F64.neg x) = !F64.sign x ∧ F64.magnitude (F64.neg x) = F64.magnitude x

/-- `00_scope.md` R8: `float(k)` is exact up to 2^53. -/
def Obligations.IntegerConversionExact : Prop :=
  ∀ k : Nat, k ≤ 2 ^ 53 → F64.isFinite (F64.ofNat k) = true ∧ F64.value (F64.ofNat k) = (k : ℚ)

/-- `00_scope.md` R6, R12: the machine's numeric parameters obey the laws of R6; a draw is always a NaN pattern, and every
NaN pattern is a draw. R10: the operations on given parameters are those of binary64 with the parameters' draw, and a
place (`N.at`) changes the draw alone (the model's own, `notes/assumptions/3.md`). -/
def Obligations.NumericsObeyTheLaws : Prop :=
  numerics.Lawful ∧ (∀ v : Word, F64.isNaN (F64.nanOf v) = true) ∧
    (∀ x : F64, F64.isNaN x = true → ∃ v : Word, F64.nanOf v = x) ∧
    ∀ N : Numerics, F64.isNaN N.nan = true ∧
      (∀ x y, N.add x y = F64.add N.nan x y ∧ N.sub x y = F64.sub N.nan x y ∧ N.mul x y = F64.mul N.nan x y ∧
        N.div x y = F64.div N.nan x y) ∧
      ∀ k, (N.at k).exp = N.exp ∧ (N.at k).log = N.log ∧ (N.at k).pow = N.pow ∧ (N.at k).sin = N.sin

/-- `00_scope.md` R10: `a == b` is IEEE equality: a NaN equals nothing, +0 and −0 are equal, and any other two patterns
are equal exactly where they are the same. -/
def Obligations.EqualityIsIeee : Prop :=
  ∀ x y : F64, F64.eq x y = true ↔
    F64.isNaN x = false ∧ F64.isNaN y = false ∧ (x = y ∨ (F64.isZero x = true ∧ F64.isZero y = true))

/-! ### The host port -/

/-- `20_memory.md` R71, R74, R76, R77: an access that is narrow or misaligned, in a reserved range, or to DMEM while BUSY
gets ERROR: HOSTERR is set, a read returns 0, nothing else changes. -/
def Obligations.BadAccessGetsError : Prop :=
  ∀ (s : State) (off bytes : Nat) (op : PortOp) (rest : List Event), off < 2 ^ 21 →
    s.inputs = .bus (s.params.coreBase + off) bytes op :: rest →
    (bytes ≠ 8 ∨ off % 8 ≠ 0 ∨ (0x1000 ≤ off ∧ off < 0x100000) ∨ 0x100000 + 8 * s.params.dmemWords ≤ off ∨
      (0x100000 ≤ off ∧ ∃ l, s.engine = .busy l)) →
    step s = .next { s with
      inputs := rest
      status := { s.status with hosterr := true }
      port := some (match op with | .read => .read true 0 | .write _ => .write true) }

/-- `10_state.md` R33 to R41, R43: what a read of each register returns; it changes nothing but the port response
(`20_memory.md` R80). -/
def Obligations.RegisterReads : Prop :=
  ∀ (s : State) (off : Nat) (rest : List Event), s.inputs = s.readsAt off :: rest →
    let answers := fun (v : Word) => step s = .next { s with inputs := rest, port := some (.read false v) }
    (off = 0x000 → answers 0x4D47435300070001#64) ∧
    (off = 0x010 → answers (if s.ie then 1 else 0)) ∧
    (off = 0x018 → answers (statusWord s.engine s.status)) ∧
    (off = 0x020 → answers 0) ∧
    (off = 0x028 → answers (s.operands.aBase.setWidth 64)) ∧
    (off = 0x030 → answers (s.operands.bBase.setWidth 64)) ∧
    (off = 0x038 → answers (s.operands.cBase.setWidth 64)) ∧
    (off = 0x040 → answers (s.operands.m1.setWidth 64)) ∧
    (off = 0x048 → answers (s.operands.m2.setWidth 64)) ∧
    (off = 0x050 → answers (s.operands.len.setWidth 64)) ∧
    (off = 0x058 → answers s.operands.fa1) ∧
    (off = 0x060 → answers s.operands.fg1) ∧
    (off = 0x068 → answers s.operands.fa2) ∧
    (off = 0x070 → answers s.operands.fg2) ∧
    (0x078 ≤ off → off ≤ 0xFF8 → off % 8 = 0 → answers 0)

/-- `10_state.md` R34: CAPS reports log2(DMEM_WORDS), log2(LMAX) and MMAX in their fields, zeros above. -/
def Obligations.CapsReportsConfiguration : Prop :=
  ∀ (s : State) (rest : List Event), s.params.wf = true → s.inputs = s.readsAt 0x008 :: rest →
    ∃ v : Word, step s = .next { s with inputs := rest, port := some (.read false v) } ∧
      2 ^ (v.extractLsb' 0 8).toNat = s.params.dmemWords ∧ 2 ^ (v.extractLsb' 8 8).toNat = s.params.lmax ∧
      (v.extractLsb' 16 16).toNat = s.params.mmax ∧ v.extractLsb' 32 32 = 0

/-- `10_state.md` R36: the place of every field in the STATUS word; BUSY is 1 exactly while the engine is BUSY (R47). -/
def Obligations.StatusWordFields : Prop :=
  ∀ (e : Engine) (st : Status),
    ((statusWord e st).getLsbD 0 = true ↔ ∃ l, e = .busy l) ∧ (statusWord e st).getLsbD 1 = st.done ∧
    (statusWord e st).getLsbD 2 = st.err ∧ (statusWord e st).getLsbD 3 = st.ovr ∧
    (statusWord e st).getLsbD 4 = st.hosterr ∧ (statusWord e st).extractLsb' 5 3 = 0 ∧
    (statusWord e st).extractLsb' 8 8 = st.errcode ∧ (statusWord e st).extractLsb' 16 8 = st.lastop ∧
    (statusWord e st).extractLsb' 24 40 = 0

/-- `10_state.md` R37: a STATUS write clears the bits among 1 to 4 that are 1 in `v`, ERRCODE with bit 2, and changes
nothing else. -/
def Obligations.StatusWriteClears : Prop :=
  ∀ (s : State) (v : Word) (rest : List Event), s.inputs = s.writesAt 0x018 v :: rest →
    step s = .next { s with
      inputs := rest
      port := some (.write false)
      status := { s.status with
        done := s.status.done && !v.getLsbD 1
        err := s.status.err && !v.getLsbD 2
        ovr := s.status.ovr && !v.getLsbD 3
        hosterr := s.status.hosterr && !v.getLsbD 4
        errcode := if v.getLsbD 2 then 0 else s.status.errcode } }

/-- `10_state.md` R35, R33, R34, R43: a CTRL write stores bit 0; a write to ID, CAPS or a reserved offset is ignored, with
response OK. -/
def Obligations.ControlAndIgnoredWrites : Prop :=
  ∀ (s : State) (off : Nat) (v : Word) (rest : List Event), s.inputs = s.writesAt off v :: rest →
    (off = 0x010 → step s = .next { s with inputs := rest, port := some (.write false), ie := v.getLsbD 0 }) ∧
    (off = 0x000 ∨ off = 0x008 ∨ (0x078 ≤ off ∧ off ≤ 0xFF8 ∧ off % 8 = 0) →
      step s = .next { s with inputs := rest, port := some (.write false) })

/-- `10_state.md` R40, R41, R42: a write to an operand register, in any state of the engine, stores `v[31:0]` or all of
`v`, and changes nothing else. -/
def Obligations.OperandWrites : Prop :=
  ∀ (s : State) (off : Nat) (v : Word) (rest : List Event), s.inputs = s.writesAt off v :: rest →
    let leaves := fun (o : Operands) => step s = .next { s with inputs := rest, port := some (.write false), operands := o }
    (off = 0x028 → leaves { s.operands with aBase := v.setWidth 32 }) ∧
    (off = 0x030 → leaves { s.operands with bBase := v.setWidth 32 }) ∧
    (off = 0x038 → leaves { s.operands with cBase := v.setWidth 32 }) ∧
    (off = 0x040 → leaves { s.operands with m1 := v.setWidth 32 }) ∧
    (off = 0x048 → leaves { s.operands with m2 := v.setWidth 32 }) ∧
    (off = 0x050 → leaves { s.operands with len := v.setWidth 32 }) ∧
    (off = 0x058 → leaves { s.operands with fa1 := v }) ∧
    (off = 0x060 → leaves { s.operands with fg1 := v }) ∧
    (off = 0x068 → leaves { s.operands with fa2 := v }) ∧
    (off = 0x070 → leaves { s.operands with fg2 := v })

/-- `20_memory.md` R75, R72: while IDLE a write of DMEM word `w` sets it, each byte in its place, and leaves every byte
outside the word; nothing but DMEM and the port response changes. -/
def Obligations.DmemWriteStoresWord : Prop :=
  ∀ (s : State) (w : Nat) (v : Word) (rest : List Event), s.params.wf = true → s.engine = .idle →
    w < s.params.dmemWords → s.inputs = s.writesAt (0x100000 + 8 * w) v :: rest →
    ∃ m, step s = .next { s with inputs := rest, port := some (.write false), mem := m } ∧
      m.readWord w = some v ∧ SameOutside [⟨w, 1⟩] s.mem m ∧
      ∀ k, k < 8 → m.readByte (0x100000 + 8 * w + k) = some (v.extractLsb' (8 * k) 8)

/-- `20_memory.md` R75 and `93_implementation_defined.md` U8: while IDLE a read of DMEM word `w` returns it; where nothing
has written it the model stops. -/
def Obligations.DmemReadAnswersWord : Prop :=
  ∀ (s : State) (w : Nat) (rest : List Event), s.params.wf = true → s.engine = .idle → w < s.params.dmemWords →
    s.inputs = s.readsAt (0x100000 + 8 * w) :: rest →
    (∀ v, s.mem.readWord w = some v → step s = .next { s with inputs := rest, port := some (.read false v) }) ∧
    (s.mem.readWord w = none → step s = .fault (.unwrittenRead w))

/-- `10_state.md` R48, `70_reset_and_hazards.md` R277: IRQ is the level IE and DONE; it is high right after any completion
or refused issue while IE is 1, and low right after reset. -/
def Obligations.InterruptLevel : Prop :=
  (∀ s : State, irq s = true ↔ s.ie = true ∧ s.status.done = true) ∧
  (∀ (s t : State) (i : Instr) (l : Latch), s.engine = .busy l → exec i s = .next t → irq t = s.ie) ∧
  (∀ (s t : State) (i : Instr) (c : ErrorCode), s.engine = .idle →
    check s.params ⟨encodeWord i, s.operands⟩ = some c → exec i s = .next t → irq t = s.ie) ∧
  (∀ (s t : State) (rest : List Event), s.inputs = .reset :: rest → step s = .next t → irq t = false)

/-! ### Reset -/

/-- `70_reset_and_hazards.md` R260, R261: a reset clears CTRL, STATUS, every operand register, the engine and MAXFFTSIZE;
while IDLE it leaves every DMEM byte. That the last port response and the events to come stay is the model's own
(`notes/assumptions/14.md`). -/
def Obligations.ResetClearsRegisters : Prop :=
  ∀ (s : State) (rest : List Event), s.inputs = .reset :: rest →
    ∃ t, step s = .next t ∧ t.ie = false ∧ t.status = ⟨false, false, false, false, 0, 0⟩ ∧
      t.operands = ⟨0, 0, 0, 0, 0, 0, 0, 0, 0, 0⟩ ∧ t.engine = .idle ∧ t.maxFftSize = 0 ∧ t.params = s.params ∧
      t.inputs = rest ∧ t.port = s.port ∧ (s.engine = .idle → t.mem = s.mem)

/-- `70_reset_and_hazards.md` R262: a reset while BUSY abandons the command: the engine is IDLE, no bit of STATUS records
it, every word of the command's output buffers is unwritten, and every other byte is as it was. -/
def Obligations.ResetAbandonsCommand : Prop :=
  ∀ (s : State) (l : Latch) (i : Instr) (rest : List Event), s.engine = .busy l → decodeWord l.cmd = .ok i →
    s.inputs = .reset :: rest →
    ∃ t, step s = .next t ∧ t.engine = .idle ∧ statusWord t.engine t.status = 0 ∧
      SameOutside (footprint i l.ops).outputs s.mem t.mem ∧
      ∀ b ∈ (footprint i l.ops).outputs, ∀ w, b.base ≤ w → w < b.base + b.words → t.mem.readWord w = none

/-- `10_state.md` R52, R45: the state after power-on in any configuration. The configuration of `State.reset` itself is the
model's choice (DESIGN CHOICE, `notes/assumptions/1.md`). -/
def Obligations.PowerOnState : Prop :=
  ∀ p : Params, (State.powerOn p).ie = false ∧ (State.powerOn p).status = ⟨false, false, false, false, 0, 0⟩ ∧
    (State.powerOn p).operands = ⟨0, 0, 0, 0, 0, 0, 0, 0, 0, 0⟩ ∧ (State.powerOn p).engine = .idle ∧
    (State.powerOn p).maxFftSize = 0 ∧ irq (State.powerOn p) = false ∧
    (∀ w, (State.powerOn p).mem.readWord w = none) ∧ State.reset = State.powerOn ⟨4096, 1024, 512, 0⟩

/-! ### Whole-machine rules -/

/-- The invariant holds after power-on in every admitted configuration (`10_state.md` R52), and so in `State.reset`, whose
configuration is the model's choice (`notes/assumptions/1.md`). -/
def Obligations.ResetMeetsInvariant : Prop :=
  (∀ p : Params, p.wf = true → (State.powerOn p).Inv) ∧ State.reset.Inv

/-- Every step keeps the invariant (`10_state.md` R38.1, R38.2, R47; `60_exceptions.md` R230, R239): DMEM stays in canonical
form inside its window, ERRCODE is 0 without ERR and a known code with it, BUSY excludes DONE and ERR, and the command in
flight has passed every check. -/
def Obligations.StepKeepsInvariant : Prop := ∀ s t : State, s.Inv → step s = .next t → t.Inv

/-- `60_exceptions.md` R239, R240 ("No command ever aborts, and the core has no fatal state"): from a state that meets the
invariant, a step answers a next state or stops at an unwritten DMEM word (the model's treatment, `notes/assumptions/4.md`). -/
def Obligations.OnlyUnwrittenWordsStop : Prop :=
  ∀ s : State, s.Inv → (∃ t, step s = .next t) ∨ ∃ f, step s = .fault f ∧ f.isUnwritten = true

/-- `10_state.md` R38.3: a step that leaves ERR = 1 with DONE = 0 found them so, or was a host write to STATUS that cleared
DONE alone. -/
def Obligations.ErrorWithoutDoneOnlyByHost : Prop :=
  ∀ s t : State, step s = .next t → t.status.err = true → t.status.done = false →
    (s.status.err = true ∧ s.status.done = false) ∨
    ∃ v rest, s.inputs = s.writesAt 0x018 v :: rest ∧ v.getLsbD 1 = true ∧ v.getLsbD 2 = false

/-- `10_state.md` R42, R46, `20_memory.md` R77, R82.2, `70_reset_and_hazards.md` R273, R276: whatever accesses the host makes
while a command is in flight, none of them stops the machine, and LATCH, DMEM and every field the completion reads are as
they were at issue. -/
def Obligations.CommandInFlightUndisturbed : Prop :=
  ∀ (s : State) (l : Latch) (accesses rest : List Event), s.engine = .busy l → (∀ e ∈ accesses, e.isAccess = true) →
    s.inputs = accesses ++ rest →
    ∃ t, runFor accesses.length s = .next t ∧ t.engine = .busy l ∧ t.mem = s.mem ∧ t.params = s.params ∧
      t.draws = s.draws ∧ t.maxFftSize = s.maxFftSize ∧ t.inputs = rest

/-- `70_reset_and_hazards.md` R275: while no reset occurs, a command in flight completes; here within as many steps as there
are events to come, and one more. The bound is the model's own. Only an unwritten input stops the machine first. -/
def Obligations.CommandCompletesEventually : Prop :=
  ∀ (s : State) (l : Latch), s.Inv → s.engine = .busy l → Event.reset ∉ s.inputs →
    ∃ k, k ≤ s.inputs.length + 1 ∧
      ((∃ t, runFor k s = .next t ∧ t.engine = .idle ∧ t.status.done = true) ∨
        ∃ w, runFor k s = .fault (.unwrittenInput w))

/-- `00_scope.md` R5, `10_state.md` R33, R34: no step changes the configuration, and only a completion step writes an output
buffer: DMEM changes only by a host write to it while IDLE, by a completion, or by a reset while BUSY. -/
def Obligations.DmemChangesOnlyByItsWriters : Prop :=
  ∀ s t : State, step s = .next t → t.params = s.params ∧
    (t.mem = s.mem ∨
      (s.engine = .idle ∧ ∃ w v rest, w < s.params.dmemWords ∧ s.inputs = s.writesAt (0x100000 + 8 * w) v :: rest) ∨
      (∃ l, s.engine = .busy l ∧ (s.inputs = [] ∨ ∃ rest, s.inputs = .engine :: rest)) ∨
      ∃ l rest, s.engine = .busy l ∧ s.inputs = .reset :: rest)
end

