-- ==== Sys2Proof/Laws/Agree.lean ====
section
/-!
SUPPORT. `F64.agree` is an equivalence, and `+ − * /` keep it whatever NaN each side draws (`00_scope.md` R12).
-/

namespace Sys2Proof.Machine

@[simp] theorem F64.agree_refl (x : F64) : F64.agree x x := .inl rfl

theorem F64.agree_symm {x y : F64} (h : F64.agree x y) : F64.agree y x := h.imp Eq.symm And.symm

theorem F64.agree_trans {x y z : F64} (h : F64.agree x y) (k : F64.agree y z) : F64.agree x z := by
  rcases h with rfl | ⟨hx, hy⟩
  · exact k
  · rcases k with rfl | ⟨-, hz⟩
    · exact .inr ⟨hx, hy⟩
    · exact .inr ⟨hx, hz⟩

/-- Values that agree are both NaN or neither. -/
theorem F64.agree_isNaN {x y : F64} (h : F64.agree x y) : F64.isNaN x = F64.isNaN y := by
  rcases h with rfl | ⟨hx, hy⟩
  · rfl
  · rw [hx, hy]

theorem F64.unpack_of_isNaN {x : F64} (h : F64.isNaN x = true) : F64.unpack x = .nan := by
  have hm : F64.magnitude x < 2 ^ 63 := Nat.mod_lt _ (by decide)
  simp only [F64.isNaN, decide_eq_true_eq] at h
  have he : F64.magnitude x / 2 ^ 52 = 2047 := by omega
  have hf : F64.magnitude x % 2 ^ 52 ≠ 0 := by omega
  simp only [F64.unpack, he, hf, if_true, if_false]

theorem F64.isNaN_neg (x : F64) : F64.isNaN (F64.neg x) = F64.isNaN x := by
  have h : F64.magnitude (F64.neg x) = F64.magnitude x := by
    simp only [F64.magnitude, F64.neg, ← BitVec.toNat_setWidth]
    congr 1
    ext i hi
    simp
  simp only [F64.isNaN, h]

theorem F64.add_left_nan {d x y : F64} (h : F64.isNaN x = true) : F64.add d x y = d := by
  simp only [F64.add, F64.unpack_of_isNaN h]

theorem F64.add_right_nan {d x y : F64} (h : F64.isNaN y = true) : F64.add d x y = d := by
  simp only [F64.add, F64.unpack_of_isNaN h]
  split <;> simp_all

theorem F64.mul_left_nan {d x y : F64} (h : F64.isNaN x = true) : F64.mul d x y = d := by
  simp only [F64.mul, F64.unpack_of_isNaN h]

theorem F64.mul_right_nan {d x y : F64} (h : F64.isNaN y = true) : F64.mul d x y = d := by
  simp only [F64.mul, F64.unpack_of_isNaN h]
  split <;> simp_all

theorem F64.div_left_nan {d x y : F64} (h : F64.isNaN x = true) : F64.div d x y = d := by
  simp only [F64.div, F64.unpack_of_isNaN h]

theorem F64.div_right_nan {d x y : F64} (h : F64.isNaN y = true) : F64.div d x y = d := by
  simp only [F64.div, F64.unpack_of_isNaN h]
  split <;> simp_all

/-- The draw of a sum shows only where the sum is a NaN. -/
theorem F64.add_draw {d d' : F64} (h : F64.isNaN d = true) (h' : F64.isNaN d' = true) (x y : F64) :
    F64.agree (F64.add d x y) (F64.add d' x y) := by
  unfold F64.add
  repeat' split
  all_goals first | exact .inl rfl | exact .inr ⟨h, h'⟩

/-- The draw of a product shows only where the product is a NaN. -/
theorem F64.mul_draw {d d' : F64} (h : F64.isNaN d = true) (h' : F64.isNaN d' = true) (x y : F64) :
    F64.agree (F64.mul d x y) (F64.mul d' x y) := by
  unfold F64.mul
  repeat' split
  all_goals first | exact .inl rfl | exact .inr ⟨h, h'⟩

/-- The draw of a quotient shows only where the quotient is a NaN. -/
theorem F64.div_draw {d d' : F64} (h : F64.isNaN d = true) (h' : F64.isNaN d' = true) (x y : F64) :
    F64.agree (F64.div d x y) (F64.div d' x y) := by
  unfold F64.div
  repeat' split
  all_goals first | exact .inl rfl | exact .inr ⟨h, h'⟩

theorem F64.add_agree {d d' x x' y y' : F64} (h : F64.isNaN d = true) (h' : F64.isNaN d' = true)
    (hx : F64.agree x x') (hy : F64.agree y y') : F64.agree (F64.add d x y) (F64.add d' x' y') := by
  rcases hx with rfl | ⟨a, b⟩
  · rcases hy with rfl | ⟨a, b⟩
    · exact F64.add_draw h h' _ _
    · rw [F64.add_right_nan a, F64.add_right_nan b]; exact .inr ⟨h, h'⟩
  · rw [F64.add_left_nan a, F64.add_left_nan b]; exact .inr ⟨h, h'⟩

theorem F64.neg_agree {x y : F64} (h : F64.agree x y) : F64.agree (F64.neg x) (F64.neg y) := by
  rcases h with rfl | ⟨a, b⟩
  · exact .inl rfl
  · exact .inr ⟨by rw [F64.isNaN_neg, a], by rw [F64.isNaN_neg, b]⟩

theorem F64.sub_agree {d d' x x' y y' : F64} (h : F64.isNaN d = true) (h' : F64.isNaN d' = true)
    (hx : F64.agree x x') (hy : F64.agree y y') : F64.agree (F64.sub d x y) (F64.sub d' x' y') :=
  F64.add_agree h h' hx (F64.neg_agree hy)

theorem F64.mul_agree {d d' x x' y y' : F64} (h : F64.isNaN d = true) (h' : F64.isNaN d' = true)
    (hx : F64.agree x x') (hy : F64.agree y y') : F64.agree (F64.mul d x y) (F64.mul d' x' y') := by
  rcases hx with rfl | ⟨a, b⟩
  · rcases hy with rfl | ⟨a, b⟩
    · exact F64.mul_draw h h' _ _
    · rw [F64.mul_right_nan a, F64.mul_right_nan b]; exact .inr ⟨h, h'⟩
  · rw [F64.mul_left_nan a, F64.mul_left_nan b]; exact .inr ⟨h, h'⟩

theorem F64.div_agree {d d' x x' y y' : F64} (h : F64.isNaN d = true) (h' : F64.isNaN d' = true)
    (hx : F64.agree x x') (hy : F64.agree y y') : F64.agree (F64.div d x y) (F64.div d' x' y') := by
  rcases hx with rfl | ⟨a, b⟩
  · rcases hy with rfl | ⟨a, b⟩
    · exact F64.div_draw h h' _ _
    · rw [F64.div_right_nan a, F64.div_right_nan b]; exact .inr ⟨h, h'⟩
  · rw [F64.div_left_nan a, F64.div_left_nan b]; exact .inr ⟨h, h'⟩

end Sys2Proof.Machine
end

