-- ==== Sys2Proof/Laws/Memory.lean ====
section
/-!
SUPPORT. The laws of DMEM: what a byte, a word and a vector read as after a write, and that every operation keeps the
canonical form.
-/

namespace Sys2Proof.Machine

/-! ### One byte -/

@[simp] theorem readByte_nil (a : Nat) : Memory.readByte [] a = none := rfl

@[simp] theorem readByte_cons (b : Nat) (v : Byte) (m : Memory) (a : Nat) :
    Memory.readByte ((b, v) :: m) a = if b = a then some v else Memory.readByte m a := rfl

/-- A byte reads as what the last write to it stored, and a write leaves every other byte alone. -/
@[simp] theorem readByte_writeByte (m : Memory) (a x : Nat) (v : Byte) :
    (m.writeByte a v).readByte x = if a = x then some v else m.readByte x := by
  induction m with
  | nil => rfl
  | cons c m ih =>
    obtain ⟨b, u⟩ := c
    simp only [Memory.writeByte]
    split
    · rfl
    · split
      · next h => subst h; simp only [readByte_cons]; split <;> rfl
      · simp only [readByte_cons, ih]
        split
        · next h h' => subst h'; rw [if_neg h]
        · rfl

/-- A byte with a value is listed. -/
theorem mem_of_readByte {m : Memory} {a : Nat} {v : Byte} (h : m.readByte a = some v) : (a, v) ∈ m := by
  induction m with
  | nil => cases h
  | cons c m ih =>
    obtain ⟨b, u⟩ := c
    rw [readByte_cons] at h
    split at h
    · next hb => cases h; subst hb; exact List.mem_cons_self
    · exact List.mem_cons_of_mem _ (ih h)

/-- A listed byte reads as its value, where the offsets rise. -/
theorem readByte_of_mem {m : Memory} (hm : m.rising) {a : Nat} {v : Byte} (h : (a, v) ∈ m) : m.readByte a = some v := by
  induction m with
  | nil => cases h
  | cons c m ih =>
    obtain ⟨b, u⟩ := c
    rw [Memory.rising, List.pairwise_cons] at hm
    rcases List.mem_cons.1 h with h | h
    · cases h; simp
    · have := hm.1 _ h
      rw [readByte_cons, if_neg (by simp only at this; omega)]
      exact ih hm.2 h

/-- What a write lists. -/
theorem mem_writeByte {m : Memory} {a : Nat} {v : Byte} {c : Host.Cell} (h : c ∈ m.writeByte a v) :
    c = (a, v) ∨ c ∈ m := by
  induction m with
  | nil => exact .inl (by simpa [Memory.writeByte] using h)
  | cons d m ih =>
    obtain ⟨b, u⟩ := d
    simp only [Memory.writeByte] at h
    split at h
    · exact (List.mem_cons.1 h)
    · split at h
      · rcases List.mem_cons.1 h with h | h
        · exact .inl h
        · exact .inr (List.mem_cons_of_mem _ h)
      · rcases List.mem_cons.1 h with h | h
        · exact .inr (h ▸ List.mem_cons_self)
        · exact (ih h).imp id (List.mem_cons_of_mem _)

/-- A write keeps the offsets strictly rising. -/
theorem rising_writeByte {m : Memory} (hm : m.rising) (a : Nat) (v : Byte) : (m.writeByte a v).rising := by
  induction m with
  | nil => exact List.pairwise_singleton _ _
  | cons d m ih =>
    obtain ⟨b, u⟩ := d
    have hm' := hm
    rw [Memory.rising, List.pairwise_cons] at hm
    simp only [Memory.writeByte]
    split
    · next h =>
      refine List.pairwise_cons.2 ⟨fun c hc => ?_, hm'⟩
      rcases List.mem_cons.1 hc with hc | hc
      · subst hc; exact h
      · exact Nat.lt_trans h (hm.1 c hc)
    · split
      · next h => subst h; exact List.pairwise_cons.2 hm
      · next h h' =>
        refine List.pairwise_cons.2 ⟨fun c hc => ?_, ih hm.2⟩
        rcases mem_writeByte hc with hc | hc
        · subst hc; simp only; omega
        · exact hm.1 c hc

/-- Two rising memories that read alike are one list. -/
theorem eq_of_readByte_eq {m m' : Memory} (hm : m.rising) (hm' : m'.rising) (h : ∀ a, m.readByte a = m'.readByte a) :
    m = m' := by
  have nodup : ∀ {n : Memory}, n.rising → n.Nodup := fun hn =>
    hn.imp fun {c d} hcd he => by subst he; exact Nat.lt_irrefl _ hcd
  have mem : ∀ c, c ∈ m ↔ c ∈ m' := fun ⟨a, v⟩ =>
    ⟨fun hc => mem_of_readByte (by rw [← h, readByte_of_mem hm hc]),
      fun hc => mem_of_readByte (by rw [h, readByte_of_mem hm' hc])⟩
  exact ((List.perm_ext_iff_of_nodup (nodup hm) (nodup hm')).2 mem).eq_of_pairwise
    (fun c d _ _ h₁ h₂ => absurd h₁ (Nat.lt_asymm h₂)) hm hm'

/-! ### One word -/

@[simp] theorem byteOffset_inj {w k w' k' : Nat} (hk : k < 8) (hk' : k' < 8) :
    byteOffset w k = byteOffset w' k' ↔ w = w' ∧ k = k' := by
  simp only [byteOffset]; omega

/-- What each byte reads as after a word is written. -/
theorem readByte_writeWord (m : Memory) (w : Nat) (v : Word) (x : Nat) :
    (m.writeWord w v).readByte x =
      if byteOffset w 0 ≤ x ∧ x < byteOffset (w + 1) 0 then some (v.extractLsb' (8 * (x - byteOffset w 0)) 8)
      else m.readByte x := by
  have key : ∀ n, n ≤ 8 →
      (((List.range n).foldl (fun m k => m.writeByte (byteOffset w k) (v.extractLsb' (8 * k) 8)) m).readByte x =
        if byteOffset w 0 ≤ x ∧ x < byteOffset w n then some (v.extractLsb' (8 * (x - byteOffset w 0)) 8)
        else m.readByte x) := by
    intro n
    induction n with
    | zero => intro _; simp only [List.range_zero, List.foldl_nil]; rw [if_neg]; omega
    | succ n ih =>
      intro hn
      rw [List.range_succ, List.foldl_append, List.foldl_cons, List.foldl_nil, readByte_writeByte, ih (by omega)]
      by_cases hx : byteOffset w n = x
      · rw [if_pos hx, if_pos (by simp only [byteOffset] at hx ⊢; omega)]
        congr 2
        simp only [byteOffset] at hx ⊢; omega
      · rw [if_neg hx]
        congr 1
        simp only [byteOffset] at hx ⊢
        exact propext (by omega)
  have h8 := key 8 (Nat.le_refl _)
  have e : byteOffset (w + 1) 0 = byteOffset w 8 := by simp only [byteOffset]; omega
  rw [e]; exact h8

/-- The eight bytes of a word put together are the word (`20_memory.md` R72). -/
theorem wordOfBytes (v : Word) :
    (v.extractLsb' 56 8 ++ v.extractLsb' 48 8 ++ v.extractLsb' 40 8 ++ v.extractLsb' 32 8 ++ v.extractLsb' 24 8
      ++ v.extractLsb' 16 8 ++ v.extractLsb' 8 8 ++ v.extractLsb' 0 8 : BitVec 64) = v := by
  apply BitVec.eq_of_getLsbD_eq
  intro i hi
  simp only [BitVec.getLsbD_append, BitVec.getLsbD_extractLsb']
  rcases Nat.lt_or_ge i 8 with h | h
  · simp [h]
  rcases Nat.lt_or_ge i 16 with h₁ | h₁
  · simp [show ¬ i < 8 by omega, show i - 8 < 8 by omega, show 8 + (i - 8) = i by omega]
  rcases Nat.lt_or_ge i 24 with h₂ | h₂
  · simp [show ¬ i < 8 by omega, show ¬ i - 8 < 8 by omega, show i - 8 - 8 < 8 by omega,
      show 16 + (i - 8 - 8) = i by omega]
  rcases Nat.lt_or_ge i 32 with h₃ | h₃
  · simp [show ¬ i < 8 by omega, show ¬ i - 8 < 8 by omega, show ¬ i - 8 - 8 < 8 by omega,
      show i - 8 - 8 - 8 < 8 by omega, show 24 + (i - 8 - 8 - 8) = i by omega]
  rcases Nat.lt_or_ge i 40 with h₄ | h₄
  · simp [show ¬ i < 8 by omega, show ¬ i - 8 < 8 by omega, show ¬ i - 8 - 8 < 8 by omega,
      show ¬ i - 8 - 8 - 8 < 8 by omega, show i - 8 - 8 - 8 - 8 < 8 by omega,
      show 32 + (i - 8 - 8 - 8 - 8) = i by omega]
  rcases Nat.lt_or_ge i 48 with h₅ | h₅
  · simp [show ¬ i < 8 by omega, show ¬ i - 8 < 8 by omega, show ¬ i - 8 - 8 < 8 by omega,
      show ¬ i - 8 - 8 - 8 < 8 by omega, show ¬ i - 8 - 8 - 8 - 8 < 8 by omega,
      show i - 8 - 8 - 8 - 8 - 8 < 8 by omega, show 40 + (i - 8 - 8 - 8 - 8 - 8) = i by omega]
  rcases Nat.lt_or_ge i 56 with h₆ | h₆
  · simp [show ¬ i < 8 by omega, show ¬ i - 8 < 8 by omega, show ¬ i - 8 - 8 < 8 by omega,
      show ¬ i - 8 - 8 - 8 < 8 by omega, show ¬ i - 8 - 8 - 8 - 8 < 8 by omega,
      show ¬ i - 8 - 8 - 8 - 8 - 8 < 8 by omega, show i - 8 - 8 - 8 - 8 - 8 - 8 < 8 by omega,
      show 48 + (i - 8 - 8 - 8 - 8 - 8 - 8) = i by omega]
  · simp [show ¬ i < 8 by omega, show ¬ i - 8 < 8 by omega, show ¬ i - 8 - 8 < 8 by omega,
      show ¬ i - 8 - 8 - 8 < 8 by omega, show ¬ i - 8 - 8 - 8 - 8 < 8 by omega,
      show ¬ i - 8 - 8 - 8 - 8 - 8 < 8 by omega, show ¬ i - 8 - 8 - 8 - 8 - 8 - 8 < 8 by omega,
      show i - 8 - 8 - 8 - 8 - 8 - 8 - 8 < 8 by omega, show 56 + (i - 8 - 8 - 8 - 8 - 8 - 8 - 8) = i by omega]

/-- A word's value depends on its eight bytes alone. -/
theorem readWord_congr {m m' : Memory} {w : Nat} (h : ∀ k, k < 8 → m.readByte (byteOffset w k) = m'.readByte (byteOffset w k)) :
    m.readWord w = m'.readWord w := by
  simp only [Memory.readWord, h 0 (by omega), h 1 (by omega), h 2 (by omega), h 3 (by omega), h 4 (by omega),
    h 5 (by omega), h 6 (by omega), h 7 (by omega)]

/-- A word is written exactly where all of its bytes are. -/
theorem readWord_isSome_iff (m : Memory) (w : Nat) :
    (m.readWord w).isSome ↔ ∀ k, k < 8 → (m.readByte (byteOffset w k)).isSome := by
  constructor
  · intro h k hk
    unfold Memory.readWord at h
    split at h
    · rcases (by omega : k = 0 ∨ k = 1 ∨ k = 2 ∨ k = 3 ∨ k = 4 ∨ k = 5 ∨ k = 6 ∨ k = 7) with
        rfl | rfl | rfl | rfl | rfl | rfl | rfl | rfl <;> simp [*]
    · cases h
  · intro h
    obtain ⟨b0, h0⟩ := Option.isSome_iff_exists.1 (h 0 (by omega))
    obtain ⟨b1, h1⟩ := Option.isSome_iff_exists.1 (h 1 (by omega))
    obtain ⟨b2, h2⟩ := Option.isSome_iff_exists.1 (h 2 (by omega))
    obtain ⟨b3, h3⟩ := Option.isSome_iff_exists.1 (h 3 (by omega))
    obtain ⟨b4, h4⟩ := Option.isSome_iff_exists.1 (h 4 (by omega))
    obtain ⟨b5, h5⟩ := Option.isSome_iff_exists.1 (h 5 (by omega))
    obtain ⟨b6, h6⟩ := Option.isSome_iff_exists.1 (h 6 (by omega))
    obtain ⟨b7, h7⟩ := Option.isSome_iff_exists.1 (h 7 (by omega))
    simp [Memory.readWord, h0, h1, h2, h3, h4, h5, h6, h7]

/-- A word reads as what the last write to it stored. -/
@[simp] theorem readWord_writeWord_same (m : Memory) (w : Nat) (v : Word) : (m.writeWord w v).readWord w = some v := by
  have h : ∀ k, k < 8 → (m.writeWord w v).readByte (byteOffset w k) = some (v.extractLsb' (8 * k) 8) := by
    intro k hk
    rw [readByte_writeWord, if_pos (by simp only [byteOffset]; omega)]
    congr 3; simp only [byteOffset]; omega
  simp only [Memory.readWord, h 0 (by omega), h 1 (by omega), h 2 (by omega), h 3 (by omega), h 4 (by omega),
    h 5 (by omega), h 6 (by omega), h 7 (by omega), Option.some.injEq]
  exact wordOfBytes v

/-- A write of a word leaves every other word alone. -/
theorem readWord_writeWord_other (m : Memory) {w w' : Nat} (v : Word) (h : w ≠ w') :
    (m.writeWord w v).readWord w' = m.readWord w' := by
  apply readWord_congr
  intro k hk
  rw [readByte_writeWord, if_neg (by simp only [byteOffset]; omega)]

/-! ### A vector -/

/-- A vector write leaves every byte outside its buffer alone. -/
theorem readByte_writeVec_outside (m : Memory) (b : Nat) (V : Vec) (x : Nat)
    (h : ¬ (byteOffset b 0 ≤ x ∧ x < byteOffset (b + V.length) 0)) : (m.writeVec b V).readByte x = m.readByte x := by
  induction V generalizing m b with
  | nil => rfl
  | cons v V ih =>
    simp only [Memory.writeVec, List.length_cons] at h ⊢
    rw [ih _ _ (by simp only [byteOffset] at h ⊢; omega), readByte_writeWord,
      if_neg (by simp only [byteOffset] at h ⊢; omega)]

/-- A vector write leaves every word outside its buffer alone. -/
theorem readWord_writeVec_outside (m : Memory) (b : Nat) (V : Vec) (w : Nat) (h : w < b ∨ b + V.length ≤ w) :
    (m.writeVec b V).readWord w = m.readWord w := by
  apply readWord_congr
  intro k hk
  exact readByte_writeVec_outside _ _ _ _ (by simp only [byteOffset]; omega)

/-- Element `j` of a vector is the word `b + j` after the vector is written (`20_memory.md` R81). -/
theorem readWord_writeVec_inside (m : Memory) (b : Nat) (V : Vec) (j : Nat) (h : j < V.length) :
    (m.writeVec b V).readWord (b + j) = some V[j] := by
  induction V generalizing m b j with
  | nil => cases h
  | cons v V ih =>
    simp only [Memory.writeVec]
    cases j with
    | zero =>
      rw [readWord_writeVec_outside _ _ _ _ (by omega)]
      exact readWord_writeWord_same _ _ _
    | succ j =>
      have := ih (m.writeWord b v) (b + 1) j (by simpa using h)
      rw [show b + (j + 1) = b + 1 + j by omega, this]
      rfl

/-- Reading a vector answers exactly its words; it has as many elements as the buffer has words. -/
theorem readVec_ok_iff (m : Memory) (b n : Nat) (V : Vec) :
    m.readVec b n = .ok V ↔ V.length = n ∧ ∀ j (h : j < V.length), m.readWord (b + j) = some V[j] := by
  induction n generalizing b V with
  | zero =>
    simp only [Memory.readVec, Except.ok.injEq]
    constructor
    · rintro rfl; exact ⟨rfl, fun j h => absurd h (Nat.not_lt_zero j)⟩
    · rintro ⟨h, -⟩; exact (List.eq_nil_of_length_eq_zero h).symm
  | succ n ih =>
    simp only [Memory.readVec]
    constructor
    · intro h
      split at h
      · cases h
      · next v hv =>
        split at h
        · next vs hvs =>
          cases h
          obtain ⟨hl, hr⟩ := (ih (b + 1) vs).1 hvs
          refine ⟨by simp [hl], fun j hj => ?_⟩
          cases j with
          | zero => exact hv
          | succ j => rw [show b + (j + 1) = b + 1 + j by omega]; exact hr j (by simpa using hj)
        · cases h
    · rintro ⟨hl, hr⟩
      obtain _ | ⟨v, vs⟩ := V
      · cases hl
      have hv : m.readWord b = some v := hr 0 (by simp)
      have hvs : m.readVec (b + 1) n = .ok vs := (ih (b + 1) vs).2
        ⟨by simpa using hl, fun j hj => by
          rw [show b + 1 + j = b + (j + 1) by omega]; exact hr (j + 1) (by simpa using hj)⟩
      simp only [hv, hvs]

/-- Reading a vector stops only at an unwritten word of the buffer. -/
theorem readVec_error {m : Memory} {b n : Nat} {f : Fault} (h : m.readVec b n = .error f) :
    ∃ w, b ≤ w ∧ w < b + n ∧ m.readWord w = none ∧ f = .unwrittenInput w := by
  induction n generalizing b with
  | zero => cases h
  | succ n ih =>
    simp only [Memory.readVec] at h
    split at h
    · next hw => cases h; exact ⟨b, Nat.le_refl _, by omega, hw, rfl⟩
    · split at h
      · cases h
      · next e he =>
        cases h
        obtain ⟨w, h₁, h₂, h₃, h₄⟩ := ih he
        exact ⟨w, by omega, by omega, h₃, h₄⟩

/-! ### Marking words unwritten -/

/-- After words are marked unwritten their bytes have no value, and every other byte reads as before
(`70_reset_and_hazards.md` R262). -/
theorem readByte_forget (m : Memory) (b n x : Nat) :
    (m.forget b n).readByte x = if byteOffset b 0 ≤ x ∧ x < byteOffset (b + n) 0 then none else m.readByte x := by
  induction m with
  | nil => simp only [Memory.forget, List.filter_nil, readByte_nil, ite_self]
  | cons c m ih =>
    obtain ⟨a, v⟩ := c
    simp only [Memory.forget, List.filter_cons, Bool.not_eq_true', Bool.and_eq_false_iff, decide_eq_false_iff_not] at ih ⊢
    by_cases ha : byteOffset b 0 ≤ a ∧ a < byteOffset (b + n) 0
    · rw [if_neg (by omega), ih, readByte_cons]
      by_cases hx : byteOffset b 0 ≤ x ∧ x < byteOffset (b + n) 0
      · rw [if_pos hx, if_pos hx]
      · rw [if_neg hx, if_neg hx, if_neg (by rintro rfl; exact hx ha)]
    · rw [if_pos (by omega), readByte_cons, readByte_cons, ih]
      by_cases hx : byteOffset b 0 ≤ x ∧ x < byteOffset (b + n) 0
      · rw [if_pos hx, if_neg (by rintro rfl; exact ha hx), if_pos hx]
      · rw [if_neg hx, if_neg hx]

/-! ### The canonical form is kept -/

theorem rising_writeWord {m : Memory} (hm : m.rising) (w : Nat) (v : Word) : (m.writeWord w v).rising := by
  unfold Memory.writeWord
  generalize List.range 8 = ks
  induction ks generalizing m with
  | nil => exact hm
  | cons k ks ih => exact ih (rising_writeByte hm _ _)

/-- The canonical form, said through reads: offsets rise, a byte with a value lies in the window, and its word is
written whole. -/
theorem wf_iff (p : Params) (m : Memory) :
    m.wf p ↔ m.rising ∧ ∀ a, (m.readByte a).isSome →
      (dmemWindow ≤ a ∧ a < dmemWindow + 8 * p.dmemWords) ∧ (m.readWord ((a - dmemWindow) / 8)).isSome := by
  constructor
  · rintro ⟨h₁, h₂, h₃⟩
    refine ⟨h₁, fun a ha => ?_⟩
    obtain ⟨v, hv⟩ := Option.isSome_iff_exists.1 ha
    exact ⟨h₂ (a, v) (mem_of_readByte hv), h₃ (a, v) (mem_of_readByte hv)⟩
  · rintro ⟨h₁, h₂⟩
    have written : ∀ c ∈ m, (m.readByte c.1).isSome := fun ⟨a, v⟩ hc =>
      Option.isSome_iff_exists.2 ⟨v, readByte_of_mem h₁ hc⟩
    exact ⟨h₁, fun c hc => (h₂ c.1 (written c hc)).1, fun c hc => (h₂ c.1 (written c hc)).2⟩

/-- Writing a word of DMEM keeps the canonical form. -/
theorem wf_writeWord {p : Params} {m : Memory} (hm : m.wf p) {w : Nat} (hw : w < p.dmemWords) (v : Word) :
    (m.writeWord w v).wf p := by
  rw [wf_iff] at hm ⊢
  refine ⟨rising_writeWord hm.1 _ _, fun a ha => ?_⟩
  rw [readByte_writeWord] at ha
  by_cases hx : byteOffset w 0 ≤ a ∧ a < byteOffset (w + 1) 0
  · have hdiv : (a - dmemWindow) / 8 = w := by simp only [byteOffset, dmemWindow] at hx ⊢; omega
    rw [hdiv]
    exact ⟨by simp only [byteOffset] at hx; omega, by simp⟩
  · rw [if_neg hx] at ha
    obtain ⟨h₁, h₂⟩ := hm.2 a ha
    refine ⟨h₁, ?_⟩
    rw [readWord_writeWord_other _ _ (by simp only [byteOffset, dmemWindow] at hx h₁ ⊢; omega)]
    exact h₂

/-- Writing a vector inside DMEM keeps the canonical form. -/
theorem wf_writeVec {p : Params} {m : Memory} (hm : m.wf p) (b : Nat) (V : Vec) (h : V = [] ∨ b + V.length ≤ p.dmemWords) :
    (m.writeVec b V).wf p := by
  induction V generalizing m b with
  | nil => exact hm
  | cons v V ih =>
    have h' : b + (V.length + 1) ≤ p.dmemWords := by simpa using h
    exact ih (wf_writeWord hm (by omega) v) (b + 1) (by by_cases hV : V = [] <;> [exact .inl hV; exact .inr (by omega)])

/-- Marking whole words unwritten keeps the canonical form. -/
theorem wf_forget {p : Params} {m : Memory} (hm : m.wf p) (b n : Nat) : (m.forget b n).wf p := by
  rw [wf_iff] at hm ⊢
  refine ⟨hm.1.filter _, fun a ha => ?_⟩
  rw [readByte_forget] at ha
  split at ha
  · cases ha
  next hx =>
  obtain ⟨h₁, h₂⟩ := hm.2 a ha
  refine ⟨h₁, ?_⟩
  rw [readWord_isSome_iff] at h₂ ⊢
  intro k hk
  rw [readByte_forget, if_neg (by simp only [byteOffset, dmemWindow] at hx h₁ ⊢; omega)]
  exact h₂ k hk

/-- Nothing written is in canonical form. -/
theorem wf_nil (p : Params) : Memory.wf p [] := ⟨List.Pairwise.nil, by simp, by simp⟩

end Sys2Proof.Machine
end

