-- ==== Sys2Proof/Laws/State.lean ====
section
/-!
SUPPORT. One lemma for each field and each update of the state, so that no proof unfolds an update.
-/

namespace Sys2Proof.Machine

variable (s : State) (l : Latch) (c : ErrorCode) (v : Word) (op : PortOp)

/-! ### `accept` changes the engine alone (`42_control.md` R212) -/

@[simp] theorem accept_params : (accept l s).params = s.params := rfl
@[simp] theorem accept_ie : (accept l s).ie = s.ie := rfl
@[simp] theorem accept_status : (accept l s).status = s.status := rfl
@[simp] theorem accept_operands : (accept l s).operands = s.operands := rfl
@[simp] theorem accept_engine : (accept l s).engine = .busy l := rfl
@[simp] theorem accept_mem : (accept l s).mem = s.mem := rfl
@[simp] theorem accept_maxFftSize : (accept l s).maxFftSize = s.maxFftSize := rfl
@[simp] theorem accept_port : (accept l s).port = s.port := rfl
@[simp] theorem accept_inputs : (accept l s).inputs = s.inputs := rfl
@[simp] theorem accept_draws : (accept l s).draws = s.draws := rfl

/-! ### `reject` changes STATUS alone (`60_exceptions.md` R232) -/

@[simp] theorem reject_params : (reject c s).params = s.params := rfl
@[simp] theorem reject_ie : (reject c s).ie = s.ie := rfl
@[simp] theorem reject_status : (reject c s).status = s.status.rejected c.code := rfl
@[simp] theorem reject_operands : (reject c s).operands = s.operands := rfl
@[simp] theorem reject_engine : (reject c s).engine = s.engine := rfl
@[simp] theorem reject_mem : (reject c s).mem = s.mem := rfl
@[simp] theorem reject_maxFftSize : (reject c s).maxFftSize = s.maxFftSize := rfl
@[simp] theorem reject_port : (reject c s).port = s.port := rfl
@[simp] theorem reject_inputs : (reject c s).inputs = s.inputs := rfl
@[simp] theorem reject_draws : (reject c s).draws = s.draws := rfl

/-! ### `issue` changes STATUS and, where the checks pass, the engine (`42_control.md` R211) -/

@[simp] theorem issue_none : issue v none s = accept ⟨v, s.operands⟩ { s with status := s.status.issued v } := rfl
@[simp] theorem issue_some : issue v (some c) s = reject c { s with status := s.status.issued v } := rfl
@[simp] theorem issue_params (r) : (issue v r s).params = s.params := by cases r <;> rfl
@[simp] theorem issue_ie (r) : (issue v r s).ie = s.ie := by cases r <;> rfl
@[simp] theorem issue_operands (r) : (issue v r s).operands = s.operands := by cases r <;> rfl
@[simp] theorem issue_mem (r) : (issue v r s).mem = s.mem := by cases r <;> rfl
@[simp] theorem issue_maxFftSize (r) : (issue v r s).maxFftSize = s.maxFftSize := by cases r <;> rfl
@[simp] theorem issue_port (r) : (issue v r s).port = s.port := by cases r <;> rfl
@[simp] theorem issue_inputs (r) : (issue v r s).inputs = s.inputs := by cases r <;> rfl
@[simp] theorem issue_draws (r) : (issue v r s).draws = s.draws := by cases r <;> rfl

/-! ### `errorResponse` sets HOSTERR and answers ERROR (`20_memory.md` R76) -/

@[simp] theorem errorResponse_params : (errorResponse op s).params = s.params := rfl
@[simp] theorem errorResponse_ie : (errorResponse op s).ie = s.ie := rfl
@[simp] theorem errorResponse_status : (errorResponse op s).status = s.status.hostError := rfl
@[simp] theorem errorResponse_operands : (errorResponse op s).operands = s.operands := rfl
@[simp] theorem errorResponse_engine : (errorResponse op s).engine = s.engine := rfl
@[simp] theorem errorResponse_mem : (errorResponse op s).mem = s.mem := rfl
@[simp] theorem errorResponse_maxFftSize : (errorResponse op s).maxFftSize = s.maxFftSize := rfl
@[simp] theorem errorResponse_inputs : (errorResponse op s).inputs = s.inputs := rfl
@[simp] theorem errorResponse_draws : (errorResponse op s).draws = s.draws := rfl

/-! ### `resetCore` (`70_reset_and_hazards.md` R260) -/

@[simp] theorem resetCore_params : (resetCore s).params = s.params := rfl
@[simp] theorem resetCore_ie : (resetCore s).ie = false := rfl
@[simp] theorem resetCore_status : (resetCore s).status = Status.reset := rfl
@[simp] theorem resetCore_operands : (resetCore s).operands = Operands.reset := rfl
@[simp] theorem resetCore_engine : (resetCore s).engine = .idle := rfl
@[simp] theorem resetCore_mem : (resetCore s).mem = memAfterReset s.engine s.mem := rfl
@[simp] theorem resetCore_maxFftSize : (resetCore s).maxFftSize = 0 := rfl
@[simp] theorem resetCore_port : (resetCore s).port = s.port := rfl
@[simp] theorem resetCore_inputs : (resetCore s).inputs = s.inputs := rfl
@[simp] theorem resetCore_draws : (resetCore s).draws = s.draws := rfl

/-! ### `csrWrite` changes CTRL, STATUS or one operand register (`10_state.md` R33 to R43) -/

variable (r : Csr)

@[simp] theorem csrWrite_params : (csrWrite s v r).params = s.params := by cases r <;> rfl
@[simp] theorem csrWrite_engine : (csrWrite s v r).engine = s.engine := by cases r <;> rfl
@[simp] theorem csrWrite_mem : (csrWrite s v r).mem = s.mem := by cases r <;> rfl
@[simp] theorem csrWrite_maxFftSize : (csrWrite s v r).maxFftSize = s.maxFftSize := by cases r <;> rfl
@[simp] theorem csrWrite_port : (csrWrite s v r).port = s.port := by cases r <;> rfl
@[simp] theorem csrWrite_inputs : (csrWrite s v r).inputs = s.inputs := by cases r <;> rfl
@[simp] theorem csrWrite_draws : (csrWrite s v r).draws = s.draws := by cases r <;> rfl

/-- A register write leaves STATUS alone, or is the write-1-to-clear of it (`10_state.md` R37). -/
theorem csrWrite_status : (csrWrite s v r).status = s.status ∨ (r = .status ∧ (csrWrite s v r).status = s.status.clear v) := by
  cases r <;> first | exact .inl rfl | exact .inr ⟨rfl, rfl⟩

/-! ### The fields of STATUS -/

variable (st : Status) (k : BitVec 8)

@[simp] theorem Status.issued_done : (st.issued v).done = false := rfl
@[simp] theorem Status.issued_err : (st.issued v).err = false := rfl
@[simp] theorem Status.issued_ovr : (st.issued v).ovr = st.ovr := rfl
@[simp] theorem Status.issued_hosterr : (st.issued v).hosterr = st.hosterr := rfl
@[simp] theorem Status.issued_errcode : (st.issued v).errcode = 0 := rfl
@[simp] theorem Status.issued_lastop : (st.issued v).lastop = opcField v := rfl
@[simp] theorem Status.rejected_done : (st.rejected k).done = true := rfl
@[simp] theorem Status.rejected_err : (st.rejected k).err = true := rfl
@[simp] theorem Status.rejected_ovr : (st.rejected k).ovr = st.ovr := rfl
@[simp] theorem Status.rejected_hosterr : (st.rejected k).hosterr = st.hosterr := rfl
@[simp] theorem Status.rejected_errcode : (st.rejected k).errcode = k := rfl
@[simp] theorem Status.rejected_lastop : (st.rejected k).lastop = st.lastop := rfl
@[simp] theorem Status.completed_done : st.completed.done = true := rfl
@[simp] theorem Status.completed_err : st.completed.err = st.err := rfl
@[simp] theorem Status.completed_ovr : st.completed.ovr = st.ovr := rfl
@[simp] theorem Status.completed_hosterr : st.completed.hosterr = st.hosterr := rfl
@[simp] theorem Status.completed_errcode : st.completed.errcode = st.errcode := rfl
@[simp] theorem Status.completed_lastop : st.completed.lastop = st.lastop := rfl
@[simp] theorem Status.overrun_done : st.overrun.done = st.done := rfl
@[simp] theorem Status.overrun_err : st.overrun.err = st.err := rfl
@[simp] theorem Status.overrun_ovr : st.overrun.ovr = true := rfl
@[simp] theorem Status.overrun_errcode : st.overrun.errcode = st.errcode := rfl
@[simp] theorem Status.overrun_lastop : st.overrun.lastop = st.lastop := rfl
@[simp] theorem Status.hostError_done : st.hostError.done = st.done := rfl
@[simp] theorem Status.hostError_err : st.hostError.err = st.err := rfl
@[simp] theorem Status.hostError_hosterr : st.hostError.hosterr = true := rfl
@[simp] theorem Status.hostError_errcode : st.hostError.errcode = st.errcode := rfl
@[simp] theorem Status.hostError_lastop : st.hostError.lastop = st.lastop := rfl
@[simp] theorem Status.clear_lastop : (st.clear v).lastop = st.lastop := rfl

/-! ### Reset (`10_state.md` R52) -/

@[simp] theorem reset_inputs : State.reset.inputs = [] := rfl
@[simp] theorem reset_engine : State.reset.engine = .idle := rfl
@[simp] theorem reset_mem : State.reset.mem = [] := rfl
@[simp] theorem reset_params : State.reset.params = Params.exampleConfig := rfl

end Sys2Proof.Machine
end

