-- ==== Sys2Proof/Laws/Vectors.lean ====
section
/-!
SUPPORT. How many elements each pure function returns (`40_cepstral.md` R131 to R136, `41_spectral.md` R172 to R176).
-/

namespace Sys2Proof.Machine

@[simp] theorem zeros_length (n : Nat) : (zeros n).length = n := List.length_replicate

@[simp] theorem warpTail_length (N : Numerics) (a dp gp : F64) (ds : Vec) : (warpTail N a dp gp ds).length = ds.length := by
  induction ds generalizing N dp gp with
  | nil => rfl
  | cons d ds ih => simp only [warpTail, List.length_cons, ih]

@[simp] theorem freqtPass_length (N : Numerics) (a b c : F64) (g : Vec) : (freqtPass N a b c g).length = g.length := by
  match g with
  | [] => rfl
  | [_] => rfl
  | _ :: _ :: ds => simp only [freqtPass, List.length_cons, warpTail_length]

@[simp] theorem freqtPasses_length (N : Numerics) (a b : F64) (cs g : Vec) :
    (freqtPasses N a b cs g).length = g.length := by
  induction cs generalizing N g with
  | nil => rfl
  | cons c cs ih => simp only [freqtPasses, ih, freqtPass_length]

@[simp] theorem freqtF_length (N : Numerics) (c1 : Vec) (m1 m2 : Nat) (a : F64) : (freqtF N c1 m1 m2 a).length = m2 + 1 := by
  simp only [freqtF, freqtPasses_length, zeros_length]

@[simp] theorem freqtuPass_length (N : Numerics) (a c : F64) (g : Vec) : (freqtuPass N a c g).length = g.length := by
  cases g with
  | nil => rfl
  | cons d ds => simp only [freqtuPass, List.length_cons, warpTail_length]

@[simp] theorem freqtuPasses_length (N : Numerics) (a : F64) (cs g : Vec) : (freqtuPasses N a cs g).length = g.length := by
  induction cs generalizing N g with
  | nil => rfl
  | cons c cs ih => simp only [freqtuPasses, ih, freqtuPass_length]

@[simp] theorem freqtuF_length (N : Numerics) (c1 : Vec) (m1 m2 : Nat) (a : F64) :
    (freqtuF N c1 m1 m2 a).length = m2 + 1 := by
  simp only [freqtuF, freqtuPasses_length, zeros_length]

/-- A fold that adds one element a turn. -/
theorem foldl_snoc_length {α β : Type} (f : List β → α → β) (l : List α) (z : List β) :
    (l.foldl (fun z x => z ++ [f z x]) z).length = z.length + l.length := by
  induction l generalizing z with
  | nil => rfl
  | cons x l ih => simp only [List.foldl_cons, ih, List.length_append, List.length_cons, List.length_nil]; omega

@[simp] theorem gc2gcF_length (N : Numerics) (c1 : Vec) (m1 : Nat) (g1 : F64) (m2 : Nat) (g2 : F64) :
    (gc2gcF N c1 m1 g1 m2 g2).length = m2 + 1 := by
  unfold gc2gcF
  rw [foldl_snoc_length (fun c2 i0 => gc2gcElem (N.at (i0 + 1)) c1 m1 g1 g2 c2 (i0 + 1))]
  simp only [List.length_cons, List.length_nil, List.length_range]; omega

@[simp] theorem gnormF_length (N : Numerics) (c : Vec) (m : Nat) (g : F64) : (gnormF N c m g).length = m + 1 := by
  unfold gnormF; split <;> simp

@[simp] theorem ignormF_length (N : Numerics) (c : Vec) (m : Nat) (g : F64) : (ignormF N c m g).length = m + 1 := by
  unfold ignormF; split <;> simp

@[simp] theorem mgc2mgcF_length (N : Numerics) (c1 : Vec) (m1 : Nat) (a1 g1 : F64) (m2 : Nat) (a2 g2 : F64) :
    (mgc2mgcF N c1 m1 a1 g1 m2 a2 g2).length = m2 + 1 := by
  unfold mgc2mgcF; dsimp only; split <;> simp

/-- A fold keeps what each of its turns keeps. -/
theorem foldl_keeps {α β γ : Type} (q : β → γ) (f : β → α → β) (h : ∀ z x, q (f z x) = q z) (l : List α) (z : β) :
    q (l.foldl f z) = q z := by
  induction l generalizing z with
  | nil => rfl
  | cons x l ih => rw [List.foldl_cons, ih, h]

/-- The lengths of a pair of arrays. -/
def Pair.lengths (z : Pair) : Nat × Nat := (z.1.length, z.2.length)

@[simp] theorem fftButterfly_lengths (N : Numerics) (s c : F64) (lmx p : Nat) (z : Pair) :
    Pair.lengths (fftButterfly N s c lmx p z) = Pair.lengths z := by
  simp only [fftButterfly, Pair.lengths, List.length_set]

@[simp] theorem fftStage_lengths (N : Numerics) (n lmx lf : Nat) (z : Pair) :
    Pair.lengths (fftStage N n lmx lf z) = Pair.lengths z :=
  foldl_keeps Pair.lengths _ (fun _ _ => foldl_keeps Pair.lengths _ (fun _ _ => fftButterfly_lengths _ _ _ _ _ _) _ _) _ _

@[simp] theorem fftStages_lengths (N : Numerics) (n fuel lix lf : Nat) (z : Pair) :
    Pair.lengths (fftStages N n fuel lix lf z) = Pair.lengths z := by
  induction fuel generalizing N lix lf z with
  | zero => rfl
  | succ fuel ih =>
    simp only [fftStages]
    split
    · rfl
    · rw [ih, fftStage_lengths]

@[simp] theorem fftLastStage_lengths (N : Numerics) (n : Nat) (z : Pair) :
    Pair.lengths (fftLastStage N n z) = Pair.lengths z :=
  foldl_keeps Pair.lengths _ (fun _ _ => by simp only [Pair.lengths, List.length_set]) _ _

@[simp] theorem swapElems_length (V : Vec) (i j : Nat) : (swapElems V i j).length = V.length := by
  simp only [swapElems, List.length_set]

@[simp] theorem bitReverse_lengths (n : Nat) (z : Pair) : Pair.lengths (bitReverse n z) = Pair.lengths z :=
  foldl_keeps (fun w : Nat × Pair => Pair.lengths w.2) _
    (fun _ _ => by dsimp only; split <;> simp only [Pair.lengths, swapElems_length]) _ _

/-- FFT_F returns as many elements as it is given (R172). -/
theorem fftF_lengths (N : Numerics) (x y : Vec) (n : Nat) : Pair.lengths (fftF N x y n) = (x.length, y.length) := by
  simp only [fftF, bitReverse_lengths, fftLastStage_lengths, fftStages_lengths]
  rfl

@[simp] theorem fftF_length_fst (N : Numerics) (x y : Vec) (n : Nat) : (fftF N x y n).1.length = x.length :=
  congrArg Prod.fst (fftF_lengths N x y n)

@[simp] theorem fftF_length_snd (N : Numerics) (x y : Vec) (n : Nat) : (fftF N x y n).2.length = y.length :=
  congrArg Prod.snd (fftF_lengths N x y n)

@[simp] theorem rfftF_length_fst (N : Numerics) (xr : Vec) (L : Nat) : (rfftF N xr L).1.length = L := by
  simp only [rfftF, List.length_map, List.length_range]

@[simp] theorem rfftF_length_snd (N : Numerics) (xr : Vec) (L : Nat) : (rfftF N xr L).2.length = L := by
  simp only [rfftF, List.length_map, List.length_range]

@[simp] theorem c2spF_length_fst (N : Numerics) (c : Vec) (m L : Nat) : (c2spF N c m L).1.length = L :=
  rfftF_length_fst _ _ _

@[simp] theorem c2spF_length_snd (N : Numerics) (c : Vec) (m L : Nat) : (c2spF N c m L).2.length = L :=
  rfftF_length_snd _ _ _

@[simp] theorem mgc2spF_length_fst (N : Numerics) (c : Vec) (m : Nat) (a g : F64) (L : Nat) :
    (mgc2spF N c m a g L).1.length = L := c2spF_length_fst _ _ _ _

@[simp] theorem mgc2spF_length_snd (N : Numerics) (c : Vec) (m : Nat) (a g : F64) (L : Nat) :
    (mgc2spF N c m a g L).2.length = L := c2spF_length_snd _ _ _ _

/-- POWSP_F returns L/2 + 1 values (R176, R185). -/
@[simp] theorem powspF_length (N : Numerics) (c : Vec) (m : Nat) (a g : F64) (L : Nat) :
    (powspF N c m a g L).length = L / 2 + 1 := by
  simp only [powspF, List.length_map, List.length_range]

end Sys2Proof.Machine
end

