-- ==== Sys2Proof/Laws/Ops.lean ====
section
/-!
SUPPORT. One lemma for each shared operation that says everything it can do: a command's read and write of DMEM, the two
steps of a command, the meaning of each command as those two steps, the decoder, the host port, and one step of the
machine.
-/

namespace Sys2Proof.Machine

/-! ### A command's reads and writes of DMEM -/

/-- A buffer that has a word lies in DMEM where it is not beyond it (`60_exceptions.md` R237). -/
theorem beyond_eq_false_iff (p : Params) (b n : Nat) :
    Buffer.beyond p ⟨b, n⟩ = false ↔ n = 0 ∨ b + n ≤ p.dmemWords := by
  simp only [Buffer.beyond, Bool.and_eq_false_iff, decide_eq_false_iff_not]; omega

/-- A buffer in DMEM whose words hold `V` is read as `V`. -/
theorem memRead_of_holds {p : Params} {m : Memory} {b : Nat} {V : Vec} (hr : b + V.length ≤ p.dmemWords)
    (h : Holds m b V) : memRead p m b V.length = .ok V := by
  rw [memRead, (beyond_eq_false_iff p b V.length).2 (.inr hr)]
  exact (readVec_ok_iff m b V.length V).2 ⟨rfl, h⟩

/-- What a command's read answers: the words of the buffer, or a stop at an unwritten word of it, or at its end beyond
DMEM. -/
theorem memRead_cases (p : Params) (m : Memory) (b n : Nat) :
    (∃ V, memRead p m b n = .ok V ∧ V.length = n ∧ Holds m b V) ∨
    (∃ w, memRead p m b n = .error (.unwrittenInput w) ∧ b ≤ w ∧ w < b + n ∧ m.readWord w = none) ∨
    (∃ w, memRead p m b n = .error (.outsideDmem w) ∧ Buffer.beyond p ⟨b, n⟩ = true) := by
  unfold memRead
  split
  · next h => exact .inr (.inr ⟨_, rfl, h⟩)
  · cases hr : m.readVec b n with
    | ok V =>
      obtain ⟨hl, hh⟩ := (readVec_ok_iff m b n V).1 hr
      exact .inl ⟨V, rfl, hl, hh⟩
    | error f =>
      obtain ⟨w, h₁, h₂, h₃, rfl⟩ := readVec_error hr
      exact .inr (.inl ⟨w, rfl, h₁, h₂, h₃⟩)

/-- A write inside DMEM happens. -/
theorem memWrite_of_fits {p : Params} (m : Memory) {b : Nat} {V : Vec} (h : b + V.length ≤ p.dmemWords) :
    memWrite p m b V = .ok (m.writeVec b V) := by
  rw [memWrite, (beyond_eq_false_iff p b V.length).2 (.inr h)]; rfl

/-- What a command's write does: the vector stands in its buffer, every byte outside it reads as before, and the
canonical form is kept. -/
theorem memWrite_ok {p : Params} {m m' : Memory} {b : Nat} {V : Vec} (h : memWrite p m b V = .ok m') :
    Holds m' b V ∧ SameOutside [⟨b, V.length⟩] m m' ∧ (m.wf p → m'.wf p) := by
  unfold memWrite at h
  split at h
  · cases h
  next hb =>
  cases h
  refine ⟨fun j hj => readWord_writeVec_inside m b V j hj, fun a ha => ?_, fun hm => ?_⟩
  · exact readByte_writeVec_outside m b V a (ha _ List.mem_cons_self)
  · have := (beyond_eq_false_iff p b V.length).1 (by simpa using hb)
    exact wf_writeVec hm b V (this.imp List.eq_nil_of_length_eq_zero id)

/-- A write to words apart from a buffer leaves what the buffer holds. -/
theorem Holds.of_sameOutside {m m' : Memory} {b c n : Nat} {V : Vec} (h : Holds m b V) (hs : SameOutside [⟨c, n⟩] m m')
    (hd : b + V.length ≤ c ∨ c + n ≤ b) : Holds m' b V := by
  intro j hj
  rw [← h j hj]
  apply readWord_congr
  intro k hk
  refine hs _ fun d hd' => ?_
  rw [List.mem_singleton] at hd'
  subst hd'
  simp only [Buffer.covers, byteOffset]
  omega

/-! ### The two steps of a command -/

/-- Issue: a command in an IDLE engine (`42_control.md` R211). -/
theorem runCommand_idle {i : Instr} {f : Operands → Footprint} {body : Body} {s : State} (h : s.engine = .idle) :
    runCommand i f body s = .next (issue (encodeWord i) (checkFootprint s.params (f s.operands)) s) := by
  simp only [runCommand, h]

/-- Completion: a command in a BUSY engine (`42_control.md` R214). -/
theorem runCommand_busy {i : Instr} {f : Operands → Footprint} {body : Body} {s : State} {l : Latch}
    (h : s.engine = .busy l) : runCommand i f body s = complete f body l s := by
  simp only [runCommand, h]

/-- A completion answers a next state exactly where the body answers a memory, and this is that state. -/
theorem complete_of_ok {f : Operands → Footprint} {body : Body} {l : Latch} {s : State} {m : Memory}
    (h : body (numerics.at s.draws) s.params l.ops s.mem = .ok m) :
    complete f body l s = .next { s with
      mem := m
      status := s.status.completed
      engine := .idle
      maxFftSize := grownFftSize (f l.ops) s.maxFftSize
      draws := s.draws + 1 } := by
  simp only [complete, h]

/-- Everything a completion can do. -/
theorem complete_cases (f : Operands → Footprint) (body : Body) (l : Latch) (s : State) :
    (∃ m, body (numerics.at s.draws) s.params l.ops s.mem = .ok m ∧ complete f body l s = .next { s with
        mem := m
        status := s.status.completed
        engine := .idle
        maxFftSize := grownFftSize (f l.ops) s.maxFftSize
        draws := s.draws + 1 }) ∨
    ∃ e, body (numerics.at s.draws) s.params l.ops s.mem = .error e ∧ complete f body l s = .fault e := by
  unfold complete
  cases body (numerics.at s.draws) s.params l.ops s.mem with
  | ok m => exact .inl ⟨m, rfl, rfl⟩
  | error e => exact .inr ⟨e, rfl, rfl⟩

/-- Each command's pseudocode. -/
def bodyOf : Instr → Body
  | .nop => nopBody
  | .fft => fftBody
  | .rfft => rfftBody
  | .freqt => freqtBody
  | .freqtu => freqtuBody
  | .gc2gc => gc2gcBody
  | .gnorm => gnormBody
  | .ignorm => ignormBody
  | .mgc2mgc => mgc2mgcBody
  | .c2sp => c2spBody
  | .mgc2sp => mgc2spBody
  | .powsp => powspBody

/-- Every meaning is the two steps of its command (`42_control.md` R210). -/
theorem exec_eq (i : Instr) (s : State) : exec i s = runCommand i (footprint i) (bodyOf i) s := by
  cases i <;> rfl

/-! ### What a body does to DMEM -/

/-- A command with one output vector: read a buffer, write the result. -/
theorem oneOutput_ok {p : Params} {m m' : Memory} {a n b : Nat} {F : Vec → Vec} {k : Nat} (hF : ∀ V, (F V).length = k)
    (h : (do let c ← memRead p m a n; memWrite p m b (F c)) = .ok m') :
    ∃ V, V.length = n ∧ Holds m a V ∧ Holds m' b (F V) ∧ SameOutside [⟨b, k⟩] m m' ∧ (m.wf p → m'.wf p) := by
  rcases memRead_cases p m a n with ⟨V, hV, hl, hh⟩ | ⟨w, hw, -⟩ | ⟨w, hw, -⟩
  · rw [hV] at h
    obtain ⟨h₁, h₂, h₃⟩ := memWrite_ok h
    exact ⟨V, hl, hh, h₁, hF V ▸ h₂, h₃⟩
  · rw [hw] at h; cases h
  · rw [hw] at h; cases h

/-- Two output vectors written one after the other. -/
theorem twoOutputs_ok {p : Params} {m m' : Memory} {b c k : Nat} {X Y : Vec} (hX : X.length = k) (hY : Y.length = k)
    (h : (do let m₁ ← memWrite p m b X; memWrite p m₁ c Y) = .ok m') :
    SameOutside [⟨b, k⟩, ⟨c, k⟩] m m' ∧ (m.wf p → m'.wf p) ∧ Holds m' c Y ∧
      (b + k ≤ c ∨ c + k ≤ b → Holds m' b X) := by
  cases hm : memWrite p m b X with
  | error e => rw [hm] at h; cases h
  | ok m₁ =>
    rw [hm] at h
    obtain ⟨h₁, h₂, h₃⟩ := memWrite_ok hm
    obtain ⟨g₁, g₂, g₃⟩ := memWrite_ok (show memWrite p m₁ c Y = .ok m' from h)
    rw [hX] at h₂
    rw [hY] at g₂
    refine ⟨fun a ha => ?_, fun hm => g₃ (h₃ hm), g₁, fun hd => h₁.of_sameOutside g₂ (by rw [hX]; exact hd)⟩
    rw [g₂ a fun d hd => ha d (List.mem_cons_of_mem _ hd), h₂ a fun d hd => ha d (by
      rw [List.mem_singleton.1 hd]; exact List.mem_cons_self)]

/-- A body changes no byte outside its command's output buffers and keeps the canonical form (`20_memory.md` R81). -/
theorem bodyOf_frame {i : Instr} {N : Numerics} {p : Params} {o : Operands} {m m' : Memory}
    (h : bodyOf i N p o m = .ok m') : SameOutside (footprint i o).outputs m m' ∧ (m.wf p → m'.wf p) := by
  cases i with
  | nop => cases h; exact ⟨fun _ _ => rfl, id⟩
  | freqt => exact let ⟨_, _, _, _, h₁, h₂⟩ := oneOutput_ok (fun V => freqtF_length N V _ _ _) h; ⟨h₁, h₂⟩
  | freqtu => exact let ⟨_, _, _, _, h₁, h₂⟩ := oneOutput_ok (fun V => freqtuF_length N V _ _ _) h; ⟨h₁, h₂⟩
  | gc2gc => exact let ⟨_, _, _, _, h₁, h₂⟩ := oneOutput_ok (fun V => gc2gcF_length N V _ _ _ _) h; ⟨h₁, h₂⟩
  | gnorm => exact let ⟨_, _, _, _, h₁, h₂⟩ := oneOutput_ok (fun V => gnormF_length N V _ _) h; ⟨h₁, h₂⟩
  | ignorm => exact let ⟨_, _, _, _, h₁, h₂⟩ := oneOutput_ok (fun V => ignormF_length N V _ _) h; ⟨h₁, h₂⟩
  | mgc2mgc => exact let ⟨_, _, _, _, h₁, h₂⟩ := oneOutput_ok (fun V => mgc2mgcF_length N V _ _ _ _ _ _) h; ⟨h₁, h₂⟩
  | powsp => exact let ⟨_, _, _, _, h₁, h₂⟩ := oneOutput_ok (fun V => powspF_length N V _ _ _ _) h; ⟨h₁, h₂⟩
  | rfft =>
    simp only [bodyOf, rfftBody] at h
    cases hr : memRead p m o.aBase.toNat o.len.toNat with
    | error e => rw [hr] at h; cases h
    | ok c =>
      rw [hr] at h
      exact let ⟨h₁, h₂, _⟩ := twoOutputs_ok (rfftF_length_fst N c _) (rfftF_length_snd N c _) h; ⟨h₁, h₂⟩
  | c2sp =>
    simp only [bodyOf, c2spBody] at h
    cases hr : memRead p m o.aBase.toNat (o.m1.toNat + 1) with
    | error e => rw [hr] at h; cases h
    | ok c =>
      rw [hr] at h
      exact let ⟨h₁, h₂, _⟩ := twoOutputs_ok (c2spF_length_fst N c _ _) (c2spF_length_snd N c _ _) h; ⟨h₁, h₂⟩
  | mgc2sp =>
    simp only [bodyOf, mgc2spBody] at h
    cases hr : memRead p m o.aBase.toNat (o.m1.toNat + 1) with
    | error e => rw [hr] at h; cases h
    | ok c =>
      rw [hr] at h
      exact let ⟨h₁, h₂, _⟩ := twoOutputs_ok (mgc2spF_length_fst N c _ _ _ _) (mgc2spF_length_snd N c _ _ _ _) h; ⟨h₁, h₂⟩
  | fft =>
    simp only [bodyOf, fftBody] at h
    rcases memRead_cases p m o.aBase.toNat o.len.toNat with ⟨x, hx, hlx, -⟩ | ⟨w, hw, -⟩ | ⟨w, hw, -⟩
    · rcases memRead_cases p m o.bBase.toNat o.len.toNat with ⟨y, hy, hly, -⟩ | ⟨w, hw, -⟩ | ⟨w, hw, -⟩
      · rw [hx, hy] at h
        have := twoOutputs_ok ((fftF_length_fst N x y o.len.toNat).trans hlx)
          ((fftF_length_snd N x y o.len.toNat).trans hly) h
        exact ⟨this.1, this.2.1⟩
      · rw [hx, hw] at h; cases h
      · rw [hx, hw] at h; cases h
    · rw [hw] at h; cases h
    · rw [hw] at h; cases h

/-! ### Decoding -/

/-- The bytes of a word put together are the word again. -/
theorem decode_wordBytes (v : Word) : decode (wordBytes v) = decodeWord v := by
  have h : bytesValue (wordBytes v) = v.toNat := by
    simp only [wordBytes, show List.range 8 = [0, 1, 2, 3, 4, 5, 6, 7] from rfl, List.map_cons, List.map_nil, bytesValue,
      BitVec.extractLsb'_toNat, Nat.shiftRight_eq_div_pow]
    have := v.isLt
    omega
  rw [decode, if_pos (show (wordBytes v).length = 8 by simp [wordBytes]), h, BitVec.ofNat_toNat, BitVec.setWidth_eq]

/-- The command set's words decode to their commands. -/
@[simp] theorem decodeWord_encodeWord (i : Instr) : decodeWord (encodeWord i) = .ok i := by cases i <;> rfl

/-- A word that decodes to a command is that command's word: RSV = 0 and OPC is the map's (`30_encoding.md` R102). -/
theorem encodeWord_of_decodeWord {v : Word} {i : Instr} (hd : decodeWord v = .ok i) : encodeWord i = v := by
  unfold decodeWord at hd
  split at hd
  · next hr =>
    have hrsv : v.toNat / 2 ^ 8 % 2 ^ 56 = 0 := by
      have := congrArg BitVec.toNat hr
      simpa [rsvField, BitVec.extractLsb'_toNat, Nat.shiftRight_eq_div_pow] using this
    have hopc : (opcField v).toNat = v.toNat := by
      simp only [opcField, BitVec.extractLsb'_toNat, Nat.shiftRight_eq_div_pow]
      have := v.isLt
      omega
    split at hd
    · next j hj =>
      cases hd
      unfold decodeOpcode at hj
      rw [hopc] at hj
      apply BitVec.eq_of_toNat_eq
      split at hj <;> first | (cases hj; next h => rw [h]; rfl) | cases hj
    · cases hd
  · cases hd

/-- LATCH passes the checks exactly where its word is a command whose footprint does (`60_exceptions.md` R231). -/
theorem check_eq_none_iff (p : Params) (l : Latch) :
    check p l = none ↔ ∃ i, decodeWord l.cmd = .ok i ∧ checkFootprint p (footprint i l.ops) = none := by
  unfold check
  cases decodeWord l.cmd with
  | ok i => simp
  | error e => simp

/-- A footprint that passes every check (`60_exceptions.md` R231). -/
theorem checkFootprint_eq_none_iff (p : Params) (f : Footprint) :
    checkFootprint p f = none ↔ f.length.any (badLength p) = false ∧ badOrder p f = false ∧ badParam f = false ∧
      outOfRange p f = false ∧ outputsOverlap f = false := by
  unfold checkFootprint
  cases f.length.any (badLength p) <;> cases badOrder p f <;> cases badParam f <;> cases outOfRange p f <;>
    cases outputsOverlap f <;> simp

/-! ### The host port and one step -/

/-- Everything an access on the bus can do. -/
theorem busAccess_cases (addr bytes : Nat) (op : PortOp) (s : State) :
    busAccess addr bytes op s = .next s ∨
    busAccess addr bytes op s = .next (errorResponse op s) ∨
    (∃ r, busAccess addr bytes op s = .next { s with port := some (.read false (csrRead s r)) }) ∨
    (∃ r v, busAccess addr bytes op s = .next (csrWrite { s with port := some (.write false) } v r)) ∨
    (∃ v, busAccess addr bytes op s = commandWrite v { s with port := some (.write false) }) ∨
    (∃ w v, s.engine = .idle ∧ s.mem.readWord w = some v ∧
      busAccess addr bytes op s = .next { s with port := some (.read false v) }) ∨
    (∃ w, s.engine = .idle ∧ s.mem.readWord w = none ∧ busAccess addr bytes op s = .fault (.unwrittenRead w)) ∨
    (∃ w v, s.engine = .idle ∧ w < s.params.dmemWords ∧
      busAccess addr bytes op s = .next { s with mem := s.mem.writeWord w v, port := some (.write false) }) := by
  unfold busAccess
  split
  · next off _ =>
    unfold portAccess
    split
    · exact .inr (.inl rfl)
    · next hal =>
      split
      · next r _ =>
        cases op with
        | read => exact .inr (.inr (.inl ⟨r, rfl⟩))
        | write v =>
          cases r <;> first
            | exact .inr (.inr (.inr (.inr (.inl ⟨v, rfl⟩))))
            | exact .inr (.inr (.inr (.inl ⟨_, v, rfl⟩)))
      · next w hr =>
        have hw : w < s.params.dmemWords := by
          unfold regionOf at hr
          split at hr
          · cases hr
          · split at hr
            · cases hr
            · split at hr
              · cases hr; omega
              · cases hr
        unfold dmemAccess
        split
        · exact .inr (.inl rfl)
        · next he =>
          cases op with
          | read =>
            dsimp only
            split
            · next v hv => exact .inr (.inr (.inr (.inr (.inr (.inl ⟨w, v, he, hv, rfl⟩)))))
            · next hv => exact .inr (.inr (.inr (.inr (.inr (.inr (.inl ⟨w, he, hv, rfl⟩))))))
          | write v => exact .inr (.inr (.inr (.inr (.inr (.inr (.inr ⟨w, v, he, hw, rfl⟩))))))
      · exact .inr (.inl rfl)
  · exact .inl rfl

/-- Everything a CMD write can do (`42_control.md` R211, `70_reset_and_hazards.md` R271). -/
theorem commandWrite_cases (v : Word) (s : State) :
    (∃ l, s.engine = .busy l ∧ commandWrite v s = .next { s with status := s.status.overrun }) ∨
    (s.engine = .idle ∧ commandWrite v s = .next (issue v (check s.params ⟨v, s.operands⟩) s)) := by
  unfold commandWrite
  cases he : s.engine with
  | busy l => exact .inl ⟨l, rfl, rfl⟩
  | idle =>
    refine .inr ⟨rfl, ?_⟩
    simp only [decode_wordBytes, check]
    cases hd : decodeWord v with
    | error e => rfl
    | ok i =>
      dsimp only
      rw [exec_eq, runCommand_idle he, encodeWord_of_decodeWord hd]

/-- Everything a step can do (`70_reset_and_hazards.md` R270). -/
theorem step_cases (s : State) :
    (∃ rest, (s.inputs = [] ∧ rest = [] ∨ s.inputs = .engine :: rest) ∧ step s = engineTurn { s with inputs := rest }) ∨
    (∃ addr bytes op rest, s.inputs = .bus addr bytes op :: rest ∧
      step s = busAccess addr bytes op { s with inputs := rest }) ∨
    (∃ rest, s.inputs = .reset :: rest ∧ step s = .next (resetCore { s with inputs := rest })) := by
  obtain ⟨p, ie, st, o, e, m, size, port, ins, draws⟩ := s
  match ins with
  | [] => exact .inl ⟨[], .inl ⟨rfl, rfl⟩, rfl⟩
  | .engine :: rest => exact .inl ⟨rest, .inr rfl, rfl⟩
  | .bus addr bytes op :: rest => exact .inr (.inl ⟨addr, bytes, op, rest, rfl, rfl⟩)
  | .reset :: rest => exact .inr (.inr ⟨rest, rfl, rfl⟩)

end Sys2Proof.Machine
end

