-- ==== Sys2Proof/Laws/PerInstr.lean ====
section
/-!
SUPPORT. One fact about each command as syntax: its table word is legal, its bytes decode to it, and its opcode is the
word itself (`30_encoding.md` R101, R102, R107).
-/

namespace Sys2Proof.Laws.DecodesBack

/-- The word of `i` is legal and is its opcode with zeros above; its eight bytes, and the same bits as the opcode table
numbers them, decode to `i`. -/
def Statement (i : Instr) : Prop :=
  wordLegal (encodeWord i) = true ∧ encodeWord i = (opcodeOf i).setWidth 64 ∧ decode (encode i) = .ok i ∧
    decodeTableWord 64 (encodeWord i).toNat = some i

theorem nop : Statement .nop := ⟨rfl, rfl, rfl, rfl⟩
theorem fft : Statement .fft := ⟨rfl, rfl, rfl, rfl⟩
theorem rfft : Statement .rfft := ⟨rfl, rfl, rfl, rfl⟩
theorem freqt : Statement .freqt := ⟨rfl, rfl, rfl, rfl⟩
theorem freqtu : Statement .freqtu := ⟨rfl, rfl, rfl, rfl⟩
theorem gc2gc : Statement .gc2gc := ⟨rfl, rfl, rfl, rfl⟩
theorem gnorm : Statement .gnorm := ⟨rfl, rfl, rfl, rfl⟩
theorem ignorm : Statement .ignorm := ⟨rfl, rfl, rfl, rfl⟩
theorem mgc2mgc : Statement .mgc2mgc := ⟨rfl, rfl, rfl, rfl⟩
theorem c2sp : Statement .c2sp := ⟨rfl, rfl, rfl, rfl⟩
theorem mgc2sp : Statement .mgc2sp := ⟨rfl, rfl, rfl, rfl⟩
theorem powsp : Statement .powsp := ⟨rfl, rfl, rfl, rfl⟩

end Sys2Proof.Laws.DecodesBack
end

