-- ==== Sys2Proof/Tests/Slice0.lean ====
section
/-!
SUPPORT. Tests of the model against the spec's own words, examples and vectors, and a witness for every statement of
`Certificates/Slice0/Obligations.lean` that has hypotheses. A test's name ends in its source where that is a numbered
section of `95_test_vectors.md`.
-/

namespace Sys2Proof.Tests

open Sys2Proof.Machine

-- One theorem at a time: with the default stacks, many kernel evaluations at once ask for too much address space.
set_option Elab.async false

/-! ### Helpers -/

/-- The bit patterns of a few numbers. -/
def z0 : F64 := 0x0000000000000000#64
def n0 : F64 := 0x8000000000000000#64
def half : F64 := 0x3FE0000000000000#64
def one : F64 := 0x3FF0000000000000#64
def two : F64 := 0x4000000000000000#64
def three : F64 := 0x4008000000000000#64
def four : F64 := 0x4010000000000000#64
def ten : F64 := 0x4024000000000000#64
def mHalf : F64 := 0xBFE0000000000000#64
def mOne : F64 := 0xBFF0000000000000#64
def mTwo : F64 := 0xC000000000000000#64
def maxFinite : F64 := 0x7FEFFFFFFFFFFFFF#64
def minFinite : F64 := 0xFFEFFFFFFFFFFFFF#64
def aNaN : F64 := 0x7FF8000000000000#64

/-- Lawful parameters with SIN constantly 1: right for every twiddle a transform of length 4 asks SIN for (`§3.5`). -/
def toy : Numerics :=
  { exp := fun _ => one, log := fun _ => z0, pow := fun _ _ => one, sin := fun _ => one, nanDraw := fun _ => 0 }

/-- The example configuration, IDLE, with these operands. -/
def idleWith (o : Operands) : State := { State.reset with operands := o }

/-- The same with the command in flight and DMEM as given. -/
def busyWith (i : Instr) (o : Operands) (m : Memory) : State :=
  { State.reset with engine := .busy ⟨encodeWord i, o⟩, mem := m, status := { Status.reset with lastop := opcodeOf i } }

/-- DMEM with `V` from word `b` on and nothing else written. -/
def memOf (b : Nat) (V : Vec) : Memory := Memory.writeVec [] b V

/-- The state with one event to come. -/
def withEvent (s : State) (e : Event) : State := { s with inputs := [e] }

/-- The state an outcome gives. -/
def next? (o : Host.Outcome State Fault Refusal) : Option State :=
  match o with
  | .next t => some t
  | .fault _ => none
  | .refused _ => none

/-- The fault an outcome gives. -/
def fault? (o : Host.Outcome State Fault Refusal) : Option Fault :=
  match o with
  | .next _ => none
  | .fault f => some f
  | .refused _ => none

/-- The port response and the STATUS word after one step. -/
def answer (s : State) : Option (Option PortResponse × Word) :=
  (next? (step s)).map fun t => (t.port, statusWord t.engine t.status)

/-- STATUS right after a CMD write of `v` (`§4.1`). -/
def issued (o : Operands) (v : Word) : Option Word :=
  let s := idleWith o
  (next? (step (withEvent s (s.writesAt 0x020 v)))).map fun t => statusWord t.engine t.status

/-- `n` DMEM words from `b` on after the completion of a command. -/
def completed (i : Instr) (o : Operands) (m : Memory) (b n : Nat) : Option (List (Option Word)) :=
  (next? (exec i (busyWith i o m))).map fun t => (List.range n).map fun k => t.mem.readWord (b + k)

/-- Operands of the transforms of length 4 at words 0 and 4. -/
def fftOps : Operands := { Operands.reset with bBase := 4, len := 4 }

/-- Operands of a cepstral command of order 1 at words 0 and 8. -/
def cepOps : Operands := { Operands.reset with bBase := 8, cBase := 16, m1 := 1, m2 := 2, len := 4 }

/-! ### Well-formedness: each check refuses an ill-formed term -/

theorem test_wf_example : Params.exampleConfig.wf = true := by decide
theorem test_wf_least : Params.wf ⟨256, 4, 2, 0⟩ = true := by decide
theorem test_wf_greatest : Params.wf ⟨2 ^ 17, 2 ^ 16, 65535, 0⟩ = true := by decide
theorem test_wf_dmem_power : Params.dmemOk ⟨1000, 4, 2, 0⟩ = false := by decide
theorem test_wf_dmem_small : Params.dmemOk ⟨128, 4, 2, 0⟩ = false := by decide
theorem test_wf_dmem_large : Params.dmemOk ⟨2 ^ 18, 4, 2, 0⟩ = false := by decide
theorem test_wf_lmax_power : Params.lmaxOk ⟨4096, 1000, 512, 0⟩ = false := by decide
theorem test_wf_lmax_small : Params.lmaxOk ⟨4096, 2, 512, 0⟩ = false := by decide
theorem test_wf_lmax_dmem : Params.lmaxOk ⟨4096, 4096, 512, 0⟩ = false := by decide
theorem test_wf_mmax_small : Params.mmaxOk ⟨4096, 1024, 511, 0⟩ = false := by decide
theorem test_wf_mmax_large : Params.mmaxOk ⟨2 ^ 17, 1024, 65536, 0⟩ = false := by decide
theorem test_wf_mmax_dmem : Params.mmaxOk ⟨4096, 1024, 4096, 0⟩ = false := by decide
theorem test_word_opcode : wordLegal 0x0C = false := by decide
theorem test_word_reserved : wordLegal 0x100 = false := by decide
theorem test_instr_wf : Instr.all.all Instr.wellFormed = true := by decide

/-! ### Decoding: words written out from the opcode map (`30_encoding.md` R100, R102) -/

theorem test_decode_nop : decode [0x00, 0x00, 0x00, 0x00, 0x00, 0x00, 0x00, 0x00] = .ok .nop := by rfl
theorem test_decode_fft : decode [0x01, 0x00, 0x00, 0x00, 0x00, 0x00, 0x00, 0x00] = .ok .fft := by rfl
theorem test_decode_rfft : decode [0x02, 0x00, 0x00, 0x00, 0x00, 0x00, 0x00, 0x00] = .ok .rfft := by rfl
theorem test_decode_freqt : decode [0x03, 0x00, 0x00, 0x00, 0x00, 0x00, 0x00, 0x00] = .ok .freqt := by rfl
theorem test_decode_freqtu : decode [0x04, 0x00, 0x00, 0x00, 0x00, 0x00, 0x00, 0x00] = .ok .freqtu := by rfl
theorem test_decode_gc2gc : decode [0x05, 0x00, 0x00, 0x00, 0x00, 0x00, 0x00, 0x00] = .ok .gc2gc := by rfl
theorem test_decode_gnorm : decode [0x06, 0x00, 0x00, 0x00, 0x00, 0x00, 0x00, 0x00] = .ok .gnorm := by rfl
theorem test_decode_ignorm : decode [0x07, 0x00, 0x00, 0x00, 0x00, 0x00, 0x00, 0x00] = .ok .ignorm := by rfl
theorem test_decode_mgc2mgc : decode [0x08, 0x00, 0x00, 0x00, 0x00, 0x00, 0x00, 0x00] = .ok .mgc2mgc := by rfl
theorem test_decode_c2sp : decode [0x09, 0x00, 0x00, 0x00, 0x00, 0x00, 0x00, 0x00] = .ok .c2sp := by rfl
theorem test_decode_mgc2sp : decode [0x0A, 0x00, 0x00, 0x00, 0x00, 0x00, 0x00, 0x00] = .ok .mgc2sp := by rfl
theorem test_decode_powsp : decode [0x0B, 0x00, 0x00, 0x00, 0x00, 0x00, 0x00, 0x00] = .ok .powsp := by rfl
theorem test_decode_first_reserved :
    decode [0x0C, 0x00, 0x00, 0x00, 0x00, 0x00, 0x00, 0x00] = .error (.reservedOpcode 0x0C) := by rfl
theorem test_decode_last_reserved :
    decode [0xFF, 0x00, 0x00, 0x00, 0x00, 0x00, 0x00, 0x00] = .error (.reservedOpcode 0xFF) := by rfl
theorem test_decode_rsv_low :
    decode [0x00, 0x01, 0x00, 0x00, 0x00, 0x00, 0x00, 0x00] = .error (.reservedBits 1) := by rfl
theorem test_decode_rsv_high :
    decode [0x01, 0x00, 0x00, 0x00, 0x00, 0x00, 0x00, 0x80] = .error (.reservedBits 0x80000000000000) := by rfl
theorem test_decode_short : decode [0x01, 0x00, 0x00, 0x00] = .error (.notOneWord 4) := by rfl
theorem test_table_word : decodeTableWord 64 0x0B = some .powsp := by rfl
theorem test_table_word_reserved : decodeTableWord 64 0x0C = none := by rfl
theorem test_fetch_word : (next? (step (State.reset.withFetchWord 64 0x06))).map (fun t => t.engine) =
    some (.busy ⟨0x06, Operands.reset⟩) := by decide +kernel

/-! ### binary64 (`00_scope.md` R10, R11; `95_test_vectors.md` rows) -/

theorem test_add_tie_even : F64.add 0 one 0x3CA0000000000000#64 = one := by decide +kernel
theorem test_mul_inexact : F64.mul 0 0x3FB999999999999A#64 three = 0x3FD3333333333334#64 := by decide +kernel
theorem test_div_third : F64.div 0 two 0x3FE8000000000000#64 = 0x4005555555555555#64 := by decide +kernel
theorem test_sub_cancel : F64.sub 0 one one = z0 := by decide +kernel
theorem test_overflow : F64.add 0 0x7FEFFFFFFFFFFFFF#64 0x7FEFFFFFFFFFFFFF#64 = 0x7FF0000000000000#64 := by decide +kernel
theorem test_subnormal : F64.mul 0 0x0010000000000000#64 half = 0x0008000000000000#64 := by decide +kernel

/-! ### The pure functions: rows that hold in every configuration, or where SIN(PI/2) = 1 -/

/-- R131's example (`§3.1`). -/
theorem test_freqt_example : freqtF toy [one, one] 1 2 half = [0x3FF8000000000000#64, 0x3FE8000000000000#64,
    0xBFD8000000000000#64] := by decide +kernel
/-- A −0.0 kept with alpha −0.0 (`§3.1`). -/
theorem test_freqt_negative_zero : freqtF toy [one, n0, three] 2 1 n0 = [one, n0] := by decide +kernel
/-- Extension past m1 (`§3.1`). -/
theorem test_freqtu_extension : freqtuF toy [one, one] 1 3 half = [one, 0x3FD0000000000000#64, mHalf,
    0x3FDC000000000000#64] := by decide +kernel
/-- Exponents −1 to 0, padding (`§3.2`). -/
theorem test_gc2gc_basic : gc2gcF toy [one, half, 0x3FD0000000000000#64] 2 mOne 4 z0 = [one, half,
    0x3FD8000000000000#64, 0x3FC5555555555555#64, 0x3FBC000000000000#64] := by decide +kernel
/-- R133's example (`§3.2`). -/
theorem test_gc2gc_example : gc2gcF toy [one, one] 1 z0 2 mOne = [one, one, mHalf] := by decide +kernel
/-- The rescaled coefficient of R134's example (`§3.3`). -/
theorem test_gnorm_rescaled : elem (gnormF toy [half, two] 1 mHalf) 1 = 0x4005555555555555#64 := by decide +kernel
/-- g = −0.0 takes the g = 0 branch (`§3.3`). -/
theorem test_gnorm_negative_zero : gnormF toy [z0, one] 1 n0 = [one, one] := by decide +kernel
/-- The g = 0 branch (`§3.3`). -/
theorem test_ignorm_zero : ignormF toy [one, one] 1 z0 = [z0, one] := by decide +kernel
/-- R135's example with k = POW(4, −0.5) = 0.5 (`§3.3`). -/
theorem test_ignorm_example : ignormF { toy with pow := fun _ _ => half } [four, one] 1 mHalf = [one, half] := by
  decide +kernel
/-- The fast path, padding (`§3.4`). -/
theorem test_mgc2mgc_fast : mgc2mgcF toy [z0, one, two] 2 0x3FC999999999999A#64 z0 4 0x3FC999999999999A#64 z0 =
    [z0, one, two, z0, z0] := by decide +kernel
/-- The warp path with EXP and LOG inverse to one another at the one point they are asked for (`§3.4`, first row). -/
theorem test_mgc2mgc_warp : mgc2mgcF { toy with log := fun _ => half } [z0, one] 1 z0 z0 2 half z0 =
    [half, 0x3FE8000000000000#64, 0xBFD8000000000000#64] := by decide +kernel
/-- R172's example (`§3.5`). -/
theorem test_fft_example : fftF toy [one, two, three, four] [z0, z0, z0, z0] 4 =
    ([ten, mTwo, mTwo, mTwo], [z0, two, z0, mTwo]) := by decide +kernel
/-- A complex exponential (`§3.5`). -/
theorem test_fft_exponential : fftF toy [one, z0, mOne, z0] [z0, one, z0, mOne] 4 =
    ([z0, four, z0, z0], [z0, z0, z0, z0]) := by decide +kernel
/-- R173's example (`§3.5`). -/
theorem test_rfft_example : rfftF toy [one, two, three, four] 4 = ([ten, mTwo, mTwo, mTwo], [z0, two, z0, mTwo]) := by
  decide +kernel
/-- The signs of zeros (`§3.5`, alternating). -/
theorem test_rfft_alternating : rfftF toy [one, mOne, one, mOne] 4 = ([z0, z0, four, z0], [z0, n0, z0, z0]) := by
  decide +kernel
/-- R174's example (`§3.6`). -/
theorem test_c2sp_example : c2spF toy [z0, one] 1 4 = ([one, z0, mOne, z0], [z0, mOne, z0, one]) := by decide +kernel
/-- R175's example (`§3.6`). -/
theorem test_mgc2sp_zero : mgc2spF toy [z0, z0] 1 0x3FDAE147AE147AE1#64 z0 4 = ([z0, z0, z0, z0], [z0, n0, z0, z0]) := by
  decide +kernel
/-- R181's example (`§3.6`). -/
theorem test_powsp_zero : powspF toy [z0, z0, z0] 2 0x3FDAE147AE147AE1#64 mHalf 8 = [one, one, one, one, one] := by
  decide +kernel

/-! ### Issue (`§4.1`): STATUS right after the CMD write -/

theorem test_issue_reserved_opcode : issued Operands.reset 0x0C = some 0x00000000000C0106#64 := by decide +kernel
theorem test_issue_reserved_bits : issued Operands.reset 0x100 = some 0x0000000000000106#64 := by decide +kernel
theorem test_issue_nop_any : issued { Operands.reset with len := 3, fa1 := two, aBase := 0xFFFFFFFF } 0x00 =
    some 0x0000000000000001#64 := by decide +kernel
theorem test_issue_least_length : issued { Operands.reset with len := 4, bBase := 8 } 0x01 = some 0x0000000000010001#64 := by
  decide +kernel
theorem test_issue_bad_length : issued { Operands.reset with len := 6, bBase := 8 } 0x01 = some 0x0000000000010206#64 := by
  decide +kernel
theorem test_issue_order_first : issued { Operands.reset with m1 := 600, fa1 := one } 0x03 = some 0x0000000000030306#64 := by
  decide +kernel
theorem test_issue_c2sp_order : issued { Operands.reset with m1 := 4, len := 4, bBase := 8, cBase := 16 } 0x09 =
    some 0x0000000000090306#64 := by decide +kernel
theorem test_issue_alpha_nan : issued { Operands.reset with fa1 := aNaN, bBase := 8 } 0x03 = some 0x0000000000030406#64 := by
  decide +kernel
theorem test_issue_alpha_last : issued { Operands.reset with fa1 := 0x3FEFFFFFFFFFFFFF#64, bBase := 8 } 0x03 =
    some 0x0000000000030001#64 := by decide +kernel
theorem test_issue_gamma_below : issued { Operands.reset with fg1 := 0xBFF0000000000001#64, bBase := 8 } 0x07 =
    some 0x0000000000070406#64 := by decide +kernel
theorem test_issue_no_wrap : issued { Operands.reset with aBase := 0xFFFFFFFF, len := 4, bBase := 8 } 0x01 =
    some 0x0000000000010506#64 := by decide +kernel
theorem test_issue_last_fit : issued { Operands.reset with len := 16, bBase := 4087 } 0x0B = some 0x00000000000B0001#64 := by
  decide +kernel
theorem test_issue_overlap : issued { Operands.reset with len := 4, bBase := 3 } 0x01 = some 0x0000000000010606#64 := by
  decide +kernel
theorem test_issue_adjacent : issued fftOps 0x01 = some 0x0000000000010001#64 := by decide +kernel

/-! ### Completion of a command in the machine -/

/-- NOP's completion leaves STATUS = 2 (`42_control.md` R215). -/
theorem test_nop_completes : (next? (exec .nop (busyWith .nop Operands.reset []))).map
    (fun t => statusWord t.engine t.status) = some 0x2 := by decide +kernel
/-- FREQT's example, from words 0 and 1 to words 8 to 10, and word 11 untouched. -/
theorem test_freqt_completes : completed .freqt { cepOps with fa1 := half } (memOf 0 [one, one]) 8 4 =
    some [some 0x3FF8000000000000#64, some 0x3FE8000000000000#64, some 0xBFD8000000000000#64, none] := by decide +kernel
/-- FREQTU's example in place (`40_cepstral.md` R130). -/
theorem test_freqtu_in_place : completed .freqtu { cepOps with fa1 := half, bBase := 0 } (memOf 0 [one, one]) 0 4 =
    some [some one, some 0x3FD0000000000000#64, some mHalf, none] := by decide +kernel
/-- GC2GC's example. -/
theorem test_gc2gc_completes : completed .gc2gc { cepOps with fg2 := mOne } (memOf 0 [one, one]) 8 4 =
    some [some one, some one, some mHalf, none] := by decide +kernel
/-- GNORM with g = 0 of c0 = 0. -/
theorem test_gnorm_completes : completed .gnorm cepOps (memOf 0 [z0, one]) 8 3 = some [some one, some one, none] := by
  decide +kernel
/-- IGNORM with g = 0 of c0 = 1. -/
theorem test_ignorm_completes : completed .ignorm cepOps (memOf 0 [one, one]) 8 3 = some [some z0, some one, none] := by
  decide +kernel
/-- A word the command needs and nothing wrote stops the model (`10_state.md` R45). -/
theorem test_unwritten_input : fault? (exec .freqt (busyWith .freqt cepOps (memOf 0 [one]))) =
    some (.unwrittenInput 1) := by decide +kernel

/-! ### The host port (`§4.2`) -/

/-- One access from the state after reset. -/
def accessAnswer (addr bytes : Nat) (op : PortOp) : Option (Option PortResponse × Word) :=
  answer (withEvent State.reset (.bus addr bytes op))

theorem test_read_id : accessAnswer 0x000000 8 .read = some (some (.read false 0x4D47435300070001#64), 0) := by
  decide +kernel
theorem test_read_caps : accessAnswer 0x000008 8 .read = some (some (.read false 0x0000000002000A0C#64), 0) := by
  decide +kernel
theorem test_read_reserved_csr : accessAnswer 0x000078 8 .read = some (some (.read false 0), 0) := by decide +kernel
theorem test_write_reserved_csr : accessAnswer 0x000FF8 8 (.write 0xFFFF) = some (some (.write false), 0) := by
  decide +kernel
theorem test_read_misaligned : accessAnswer 0x000004 8 .read = some (some (.read true 0), 0x10) := by decide +kernel
theorem test_read_narrow : accessAnswer 0x000000 4 .read = some (some (.read true 0), 0x10) := by decide +kernel
theorem test_read_reserved_first : accessAnswer 0x001000 8 .read = some (some (.read true 0), 0x10) := by decide +kernel
theorem test_read_reserved_last : accessAnswer 0x0FFFF8 8 .read = some (some (.read true 0), 0x10) := by decide +kernel
theorem test_read_past_dmem : accessAnswer 0x108000 8 .read = some (some (.read true 0), 0x10) := by decide +kernel
theorem test_write_last_word : accessAnswer 0x107FF8 8 (.write one) = some (some (.write false), 0) := by decide +kernel
theorem test_read_unwritten : fault? (step (withEvent State.reset (.bus 0x100000 8 .read))) =
    some (.unwrittenRead 0) := by decide +kernel
theorem test_m1_keeps_low_half : (next? (step (withEvent State.reset (.bus 0x40 8 (.write 0x0000000100000005#64))))).map
    (fun t => csrRead t .m1) = some 5 := by decide +kernel
theorem test_dmem_while_busy : answer (withEvent (busyWith .fft fftOps []) (.bus 0x100000 8 (.write two))) =
    some (some (.write true), 0x10011) := by decide +kernel
theorem test_command_while_busy : answer (withEvent (busyWith .fft fftOps []) (.bus 0x20 8 (.write 6))) =
    some (some (.write false), 0x10009) := by decide +kernel
/-- DMEM bytes are little-endian (`20_memory.md` R72). -/
theorem test_byte_order : (memOf 0 [0x0123456789ABCDEF#64]).readByte 0x100000 = some 0xEF := by decide +kernel
/-- A reset while BUSY leaves the output words unwritten and the input words as they were (`70_reset_and_hazards.md`
R262). -/
theorem test_reset_while_busy : (next? (step (withEvent (busyWith .freqt { cepOps with bBase := 1 } (memOf 0 [one, two]))
    .reset))).map (fun t => (t.mem.readWord 0, t.mem.readWord 1)) = some (some one, none) := by decide +kernel

/-! ### Witnesses: states and operands that meet the hypotheses of each statement -/

/-- The host's CMD write of a legal word while IDLE, and both ways a BUSY engine gets its step. -/
theorem witness_stepRunsDecodedCommand :
    (∃ (s : State) (v : Word) (i : Instr) (rest : List Event), s.engine = .idle ∧ decodeWord v = .ok i ∧
      s.inputs = s.writesAt 0x020 v :: rest) ∧
    (∃ (s : State) (l : Latch) (i : Instr), s.engine = .busy l ∧ decodeWord l.cmd = .ok i ∧ s.inputs = []) ∧
    ∃ (s : State) (l : Latch) (i : Instr) (rest : List Event), s.engine = .busy l ∧ decodeWord l.cmd = .ok i ∧
      s.inputs = .engine :: rest :=
  ⟨⟨withEvent State.reset (State.reset.writesAt 0x020 0x0B), 0x0B, .powsp, [], rfl, rfl, rfl⟩,
    ⟨busyWith .fft fftOps [], _, .fft, rfl, rfl, rfl⟩,
    ⟨withEvent (busyWith .gnorm cepOps []) .engine, _, .gnorm, [], rfl, rfl, rfl⟩⟩

theorem witness_issueAccepts : ∃ (s : State) (i : Instr), s.engine = .idle ∧
    check s.params ⟨encodeWord i, s.operands⟩ = none :=
  ⟨idleWith fftOps, .fft, rfl, by decide +kernel⟩

theorem witness_issueRejects : ∃ (s : State) (i : Instr) (c : ErrorCode), s.engine = .idle ∧
    check s.params ⟨encodeWord i, s.operands⟩ = some c :=
  ⟨idleWith Operands.reset, .fft, .badLength, rfl, by decide +kernel⟩

/-- The least word with RSV ≠ 0, and the least reserved opcode. -/
theorem witness_illegalWordRefused :
    (∃ (s : State) (v : Word) (rest : List Event), s.engine = .idle ∧ s.inputs = s.writesAt 0x020 v :: rest ∧
      v.toNat / 2 ^ 8 ≠ 0) ∧
    ∃ (s : State) (v : Word) (rest : List Event), s.engine = .idle ∧ s.inputs = s.writesAt 0x020 v :: rest ∧
      0x0C ≤ v.toNat % 2 ^ 8 :=
  ⟨⟨withEvent State.reset (State.reset.writesAt 0x020 0x100), 0x100, [], rfl, rfl, by decide⟩,
    ⟨withEvent State.reset (State.reset.writesAt 0x020 0x0C), 0x0C, [], rfl, rfl, by decide⟩⟩

theorem witness_commandWriteWhileBusyDropped : ∃ (s : State) (l : Latch) (v : Word) (rest : List Event),
    s.engine = .busy l ∧ s.inputs = s.writesAt 0x020 v :: rest :=
  ⟨withEvent (busyWith .fft fftOps []) (State.reset.writesAt 0x020 6), _, 6, [], rfl, rfl⟩

/-- The last legal word, the first reserved opcode, the least and the greatest RSV ≠ 0. -/
theorem witness_wordIsLegalOrIllegal :
    ((0x0B#64).toNat / 2 ^ 8 = 0 ∧ (0x0B#64).toNat % 2 ^ 8 ≤ 0x0B) ∧ 0x0C ≤ (0x0C#64).toNat % 2 ^ 8 ∧
      (0x100#64).toNat / 2 ^ 8 ≠ 0 ∧ (0xFFFFFFFFFFFFFFFF#64).toNat / 2 ^ 8 ≠ 0 := by decide

/-- Each code of the checks is some command's first condition, at a boundary of its range. -/
theorem witness_checkReportsFirstCondition :
    check Params.exampleConfig ⟨0x0C, Operands.reset⟩ = some .illegalOpcode ∧
    check Params.exampleConfig ⟨encodeWord .fft, { fftOps with len := 2 }⟩ = some .badLength ∧
    check Params.exampleConfig ⟨encodeWord .freqt, { cepOps with m1 := 513 }⟩ = some .badOrder ∧
    check Params.exampleConfig ⟨encodeWord .freqt, { cepOps with fa1 := one }⟩ = some .badParam ∧
    check Params.exampleConfig ⟨encodeWord .fft, { fftOps with aBase := 4093 }⟩ = some .addrRange ∧
    check Params.exampleConfig ⟨encodeWord .fft, { fftOps with bBase := 3 }⟩ = some .overlap ∧
    check Params.exampleConfig ⟨encodeWord .fft, { fftOps with aBase := 4092 }⟩ = none := by decide +kernel

theorem witness_nopCompletes : ∃ (s : State) (l : Latch), s.engine = .busy l :=
  ⟨busyWith .nop Operands.reset [], _, rfl⟩

/-- FFT in flight with both buffers written. -/
def fftMem : Memory := memOf 0 [one, two, three, four, z0, z0, z0, z0]

theorem witness_fftCompletes : ∃ (s : State) (l : Latch) (x y : Vec), s.engine = .busy l ∧
    check s.params ⟨encodeWord .fft, l.ops⟩ = none ∧ x.length = l.ops.len.toNat ∧ Holds s.mem l.ops.aBase.toNat x ∧
    y.length = l.ops.len.toNat ∧ Holds s.mem l.ops.bBase.toNat y :=
  ⟨busyWith .fft fftOps fftMem, _, [one, two, three, four], [z0, z0, z0, z0], rfl, by decide +kernel, rfl,
    by unfold Holds; decide +kernel, rfl, by unfold Holds; decide +kernel⟩

theorem witness_rfftCompletes : ∃ (s : State) (l : Latch) (x : Vec), s.engine = .busy l ∧
    check s.params ⟨encodeWord .rfft, l.ops⟩ = none ∧ x.length = l.ops.len.toNat ∧ Holds s.mem l.ops.aBase.toNat x :=
  ⟨busyWith .rfft fftOps (memOf 0 [one, two, three, four]), _, [one, two, three, four], rfl, by decide +kernel, rfl,
    fun j hj => readWord_writeVec_inside [] 0 _ j hj⟩

/-- The cepstral and spectral commands of order 1 from word 0, for each of the nine. -/
theorem witness_cepstrumCompletes : ∀ i ∈ [Instr.freqt, .freqtu, .gc2gc, .gnorm, .ignorm, .mgc2mgc, .c2sp, .mgc2sp, .powsp],
    ∃ (s : State) (l : Latch) (c : Vec), s.engine = .busy l ∧ check s.params ⟨encodeWord i, l.ops⟩ = none ∧
      c.length = l.ops.m1.toNat + 1 ∧ Holds s.mem l.ops.aBase.toNat c := by
  intro i hi
  refine ⟨busyWith i cepOps (memOf 0 [z0, one]), _, [z0, one], rfl, ?_, rfl,
    fun j hj => readWord_writeVec_inside [] 0 _ j hj⟩
  revert i
  decide +kernel

/-- The same commands at the greatest order, the last length and the last words of the example configuration. -/
theorem witness_cepstrumBoundary : ∀ i ∈ [Instr.freqt, .freqtu, .gc2gc, .gnorm, .ignorm, .mgc2mgc, .mgc2sp, .powsp],
    check Params.exampleConfig ⟨encodeWord i, { Operands.reset with
      aBase := 3583, bBase := 2048, cBase := 3072, m1 := 512, m2 := 512, len := 1024, fa1 := 0x3FEFFFFFFFFFFFFF#64,
      fg1 := mOne, fg2 := n0 }⟩ = none := by decide +kernel

/-- The greatest order C2SP takes at the shortest length, and the least; the last value of POWSP. -/
theorem witness_spectralFunctions :
    (∃ (c : Vec) (m L : Nat), c.length = m + 1 ∧ m + 1 ≤ L ∧ L - (m + 1) = 0) ∧
    (∃ (c : Vec) (m L : Nat), c.length = m + 1 ∧ m + 1 ≤ L ∧ m = 0) ∧ ∃ L i : Nat, i ≤ L / 2 ∧ i = L / 2 :=
  ⟨⟨[one, two, three, four], 3, 4, rfl, by decide, rfl⟩, ⟨[one], 0, 4, rfl, by decide, rfl⟩, 4, 2, by decide, rfl⟩

/-- Both outcomes: a completion, and a stop at the one unwritten input word. -/
theorem witness_completionStopsOnlyAtUnwrittenInput :
    (next? (exec .freqt (busyWith .freqt cepOps (memOf 0 [one, one])))).isSome = true ∧
    fault? (exec .freqt (busyWith .freqt cepOps (memOf 1 [one]))) = some (.unwrittenInput 0) := by decide +kernel

/-- Lengths 1, 2 and 3: no general line, the line at index 1, and the first use of the general line. A source of one
coefficient, whose only pass is the last. -/
theorem witness_freqtPassRecurrence : 1 ≤ [z0].length ∧ 2 ≤ [one, two].length ∧
    (∃ (d : Vec) (j : Nat), 1 ≤ d.length ∧ 2 ≤ j ∧ j < d.length) ∧
    ∃ (c : Vec) (m1 i : Nat), c.length = m1 + 1 ∧ i ≤ m1 :=
  ⟨by decide, by decide, ⟨[one, two, three], 2, by decide, by decide, by decide⟩, [one], 0, 0, rfl, by decide⟩

theorem witness_freqtuPassRecurrence : (∃ (d : Vec) (j : Nat), 1 ≤ d.length ∧ 1 ≤ j ∧ j < d.length) ∧
    ∃ (c : Vec) (m1 i : Nat), c.length = m1 + 1 ∧ i ≤ m1 :=
  ⟨⟨[one, two], 1, by decide, by decide, by decide⟩, [one], 0, 0, rfl, by decide⟩

/-- Indices at the bound, and zero exponents of both signs with a finite source: sums in the range, and a product that
leaves it. -/
theorem witness_gc2gcRecurrence :
    (∃ m2 i : Nat, m2 ≤ 65535 ∧ 1 ≤ i ∧ i ≤ m2) ∧ F64.isZero z0 = true ∧ F64.isZero n0 = true ∧
    (∀ x ∈ [z0, one, one], F64.isFinite x = true) ∧
    (let r := gc2gcF toy [z0, one, one] 2 z0 2 n0
     F64.isFinite (convSum1 toy [z0, one, one] r 2 2) = true ∧ F64.isFinite (convSum2 toy [z0, one, one] r 2 2) = true) ∧
    (∀ x ∈ [z0, maxFinite], F64.isFinite x = true) ∧
    F64.isFinite (convSum1 toy [z0, maxFinite] (gc2gcF toy [z0, maxFinite] 1 z0 2 n0) 1 2) = false :=
  ⟨⟨65535, 65535, by decide, by decide, by decide⟩, by decide, by decide,
    by simp [F64.isFinite, F64.magnitude, z0, one], by decide +kernel,
    by simp [F64.isFinite, F64.magnitude, z0, maxFinite], by decide +kernel⟩

theorem witness_gnormValues : F64.isZero n0 = true ∧ F64.isZero mOne = false ∧ ∃ i m : Nat, 1 ≤ i ∧ i ≤ m :=
  ⟨by decide, by decide, 1, 1, by decide, by decide⟩

theorem witness_ignormValues : F64.isZero n0 = true ∧ F64.isZero mHalf = false ∧ ∃ i m : Nat, 1 ≤ i ∧ i ≤ m :=
  ⟨by decide, by decide, 1, 1, by decide, by decide⟩

/-- The greatest constant below 1, the least above −1, and −0.0; constants whose shift is +0.0, −0.0, and no zero. -/
theorem witness_equalWarpTakesFastPath : warpLegal 0x3FEFFFFFFFFFFFFF#64 = true ∧ warpLegal 0xBFEFFFFFFFFFFFFF#64 = true ∧
    warpLegal n0 = true ∧ F64.isZero (warpShift (toy.at 0) half half) = true ∧
    F64.isZero (warpShift (toy.at 0) z0 n0) = true ∧ F64.isZero (warpShift (toy.at 0) half z0) = false := by
  decide +kernel

/-- Finite coefficients with a −0.0 among them and every difference in the range, an index on either side of m1; and a
difference out of the range, at the least index for FREQT and at the least for FREQTU. -/
theorem witness_freqtZeroAlphaTruncatesOrPads : F64.isZero n0 = true ∧
    (∃ (c : Vec) (m1 m2 : Nat), c.length = m1 + 1 ∧ (∀ x ∈ c, F64.isFinite x = true) ∧
      (∀ n, n + 2 ≤ m1 → F64.isFinite (toy.sub (elem c (n + 2)) (elem c n)) = true) ∧
      (∃ j, j ≤ m2 ∧ 2 ≤ j ∧ j ≤ m1) ∧ ∃ j, j ≤ m2 ∧ m1 < j) ∧
    (∃ (c : Vec) (m1 m2 : Nat), c.length = m1 + 1 ∧ (∀ x ∈ c, F64.isFinite x = true) ∧ 2 ≤ m2 ∧
      ∃ n, 1 ≤ n ∧ n + 2 ≤ m1 ∧ F64.isFinite (toy.sub (elem c (n + 2)) (elem c n)) = false) ∧
    ∃ (c : Vec) (m1 m2 : Nat), c.length = m1 + 1 ∧ (∀ x ∈ c, F64.isFinite x = true) ∧ 1 ≤ m2 ∧
      ∃ n, n + 2 ≤ m1 ∧ F64.isFinite (toy.sub (elem c (n + 2)) (elem c n)) = false := by
  refine ⟨by decide,
    ⟨[maxFinite, n0, maxFinite], 2, 3, rfl, by simp [F64.isFinite, F64.magnitude, n0, maxFinite], fun n hn => ?_,
      ⟨2, by decide⟩, 3, by decide⟩,
    ⟨[z0, maxFinite, z0, minFinite], 3, 2, rfl, by simp [F64.isFinite, F64.magnitude, z0, maxFinite, minFinite],
      by decide, 1, by decide, by decide, by decide +kernel⟩,
    [maxFinite, z0, minFinite], 2, 1, rfl, by simp [F64.isFinite, F64.magnitude, z0, maxFinite, minFinite], by decide,
    0, by decide, by decide +kernel⟩
  obtain rfl : n = 0 := by omega
  decide +kernel

/-- A zero of either sign. -/
theorem witness_freqtZeroAlphaUnboundedFails : F64.isZero z0 = true ∧ F64.isZero n0 = true := by decide

/-- The shortest transform, the largest table, the last index; the shortest and the longest length, with the first, a middle
and the last index of TW, and the last of TWC. -/
theorem witness_twiddleIndependentOfTableSize :
    (∃ j k t : Nat, 2 ≤ j ∧ j ≤ k ∧ k ≤ 16 ∧ 4 * t ≤ 3 * 2 ^ j) ∧
    ∀ k ∈ [2, 16], (2 ≤ k ∧ k ≤ 16) ∧ (∀ t ∈ [1, 2 ^ k / 2 + 1, 3 * 2 ^ k / 4], t ≠ 0 ∧ t ≠ 2 ^ k / 2 ∧ 4 * t ≤ 3 * 2 ^ k) ∧
      2 * (2 ^ k / 2) ≤ 2 ^ k :=
  ⟨⟨2, 16, 3, by decide, by decide, by decide, by decide⟩, by decide⟩

/-- Length 1, and the last index of length 4. -/
theorem witness_bitReversalPermutes : (∃ x : Vec, x.length = 2 ^ 0 ∧ 0 < 2 ^ 0) ∧
    ∃ (x : Vec) (i : Nat), x.length = 2 ^ 2 ∧ i < 2 ^ 2 :=
  ⟨⟨[one], rfl, by decide⟩, [one, two, three, four], 3, rfl, by decide⟩

/-- A butterfly on the last place of both arrays; the shortest transform and the longest; a stage and one butterfly of
it. -/
theorem witness_fftOfLengthTwo :
    (∃ (lmx p : Nat) (z : Pair), 1 ≤ lmx ∧ p + lmx < z.1.length ∧ p + lmx < z.2.length) ∧
    (∃ x : Vec, x.length = 2 ^ 1) ∧ (∃ x : Vec, x.length = 2 ^ 16) ∧
    ∃ k i j q h : Nat, 1 ≤ k ∧ k ≤ 16 ∧ i + 1 < k ∧ j < 2 ^ (k - 1 - i) ∧ q < 2 ^ k / (2 * 2 ^ (k - 1 - i)) ∧
      h < 2 ^ k / 2 :=
  ⟨⟨1, 0, ([one, two], [z0, z0]), by decide, by decide, by decide⟩, ⟨[one, two], rfl⟩,
    ⟨List.replicate (2 ^ 16) z0, List.length_replicate⟩, 2, 0, 1, 0, 1, by decide, by decide, by decide, by decide,
    by decide, by decide⟩

/-- The shortest transform and the longest, at their last index. -/
theorem witness_rfftConjugateSymmetric : (∃ M t : Nat, 2 ≤ M ∧ 1 ≤ t ∧ t < M ∧ M ≤ 2 ^ 15) ∧
    ∃ M t : Nat, 2 ≤ M ∧ 1 ≤ t ∧ t < M ∧ M = 2 ^ 15 :=
  ⟨⟨2, 1, by decide, by decide, by decide, by decide⟩, 2 ^ 15, 2 ^ 15 - 1, by decide, by decide, by decide, rfl⟩

/-- Lawful parameters with a finite SIN, a zero cepstrum with a −0.0, boundary constants, the shortest length. -/
theorem witness_powspOfZeroCepstrumIsOne : ∃ (N : Numerics) (c : Vec) (m k : Nat) (a g : F64), N.Lawful ∧
    (∀ x, F64.isFinite (N.sin x) = true) ∧ c.length = m + 1 ∧ (∀ x ∈ c, F64.isZero x = true) ∧ m ≤ 65535 ∧
    warpLegal a = true ∧ exponentLegal g = true ∧ 2 ≤ k ∧ k ≤ 16 :=
  ⟨toy, [z0, n0], 1, 2, 0xBFEFFFFFFFFFFFFF#64, mOne, ⟨fun _ => rfl, rfl, fun _ => rfl⟩,
    fun _ => (by decide : F64.isFinite one = true), rfl, by simp [F64.isZero, F64.magnitude, z0, n0], by decide,
    by decide +kernel, by decide +kernel, by decide, by decide⟩

/-- The largest finite value and the least subnormal; a NaN, and zeros of both signs; an exact sum of zero and one
that is not. -/
theorem witness_arithmeticRoundsToNearestEven : F64.isFinite maxFinite = true ∧
    F64.isFinite 0x0000000000000001#64 = true ∧ F64.isZero 0x0000000000000001#64 = false ∧ F64.isNaN aNaN = true ∧
    (∀ s, F64.isFinite (F64.zero s) = true ∧ F64.isZero (F64.zero s) = true) ∧
    F64.value n0 + F64.value n0 = 0 ∧ F64.value one + F64.value n0 ≠ 0 := by
  refine ⟨by decide, by decide, by decide, by decide, by decide, ?_, ?_⟩ <;>
    norm_num [F64.value, F64.unpack, F64.magnitude, F64.sign, n0, one,
      show (0x3FF0000000000000#64).msb = false by decide]

/-- Infinities of both signs, NaNs, and zeros of both signs through the four operations (IEEE 754, `00_scope.md` R10). -/
theorem test_special_values :
    F64.add 7 (F64.inf false) (F64.inf true) = 7 ∧ F64.sub 7 (F64.inf true) one = F64.inf true ∧ F64.add 7 n0 n0 = n0 ∧
    F64.sub 7 n0 n0 = z0 ∧ F64.mul 7 (F64.inf true) n0 = 7 ∧ F64.mul 7 n0 one = n0 ∧ F64.div 7 z0 n0 = 7 ∧
    F64.div 7 mOne z0 = F64.inf true ∧ F64.div 7 mOne (F64.inf true) = z0 ∧
    F64.div 7 (F64.inf true) (F64.inf true) = 7 ∧ F64.add 7 aNaN one = 7 := by decide +kernel

theorem witness_integerConversionExact : ∃ k : Nat, k ≤ 2 ^ 53 := ⟨2 ^ 53, Nat.le_refl _⟩

/-- The least and the greatest NaN pattern. -/
theorem witness_numericsObeyTheLaws : F64.isNaN 0x7FF0000000000001#64 = true ∧ F64.isNaN 0xFFFFFFFFFFFFFFFF#64 = true := by
  decide

/-- Each ground for the ERROR response, at a boundary of its range, in states whose next event is that access. -/
theorem witness_badAccessGetsError : ∀ c ∈ [(0x000FF8, 4, none), (0x000001, 8, none), (0x1FFFFF, 8, none),
    (0x001000, 8, none), (0x0FFFF8, 8, none), (0x108000, 8, none), (0x1FFFF8, 8, none),
    (0x100000, 8, some ()), (0x107FF8, 8, some ())],
    ∃ (s : State) (off bytes : Nat) (op : PortOp) (rest : List Event), off = c.1 ∧ bytes = c.2.1 ∧ off < 2 ^ 21 ∧
      s.inputs = .bus (s.params.coreBase + off) bytes op :: rest ∧
      (bytes ≠ 8 ∨ off % 8 ≠ 0 ∨ (0x1000 ≤ off ∧ off < 0x100000) ∨ 0x100000 + 8 * s.params.dmemWords ≤ off ∨
        (0x100000 ≤ off ∧ ∃ l, s.engine = .busy l)) := by
  intro c hc
  refine ⟨withEvent (busyWith .fft fftOps []) (.bus c.1 c.2.1 .read), c.1, c.2.1, .read, [], rfl, rfl, ?_, ?_, ?_⟩
  · revert c; decide
  · show _ = [Event.bus (0 + c.1) c.2.1 .read]; rw [Nat.zero_add]; rfl
  · have h : c.2.1 ≠ 8 ∨ c.1 % 8 ≠ 0 ∨ (0x1000 ≤ c.1 ∧ c.1 < 0x100000) ∨ 0x100000 + 8 * 4096 ≤ c.1 ∨ 0x100000 ≤ c.1 := by
      revert c; decide
    exact h.imp_right (Or.imp_right (Or.imp_right (Or.imp_right fun h => ⟨h, _, rfl⟩)))

/-- A read of every offset of the CSR window that the statement names, the first and last reserved ones among them. -/
theorem witness_registerReads : ∀ off : Nat, ∃ (s : State) (rest : List Event), s.inputs = s.readsAt off :: rest :=
  fun off => ⟨withEvent State.reset (State.reset.readsAt off), [], rfl⟩

theorem witness_registerReads_range : 0x078 ≤ 0x078 ∧ 0x078 % 8 = 0 ∧ 0xFF8 ≤ 0xFF8 ∧ 0xFF8 % 8 = 0 := by decide

theorem witness_capsReportsConfiguration : ∃ (s : State) (rest : List Event), s.params.wf = true ∧
    s.inputs = s.readsAt 0x008 :: rest :=
  ⟨withEvent (State.powerOn ⟨2 ^ 17, 2 ^ 16, 65535, 0⟩) ((State.powerOn ⟨2 ^ 17, 2 ^ 16, 65535, 0⟩).readsAt 0x008), [],
    by decide, rfl⟩

/-- A write of any value to any offset of the CSR window: STATUS, CTRL, the operand registers, ID, CAPS and the reserved
offsets from 0x078 to 0xFF8. -/
theorem witness_registerWrites : ∀ (off : Nat) (v : Word), ∃ (s : State) (rest : List Event),
    s.inputs = s.writesAt off v :: rest :=
  fun off v => ⟨withEvent State.reset (State.reset.writesAt off v), [], rfl⟩

/-- The last word of DMEM. -/
theorem witness_dmemWriteStoresWord : ∃ (s : State) (w : Nat) (v : Word) (rest : List Event), s.params.wf = true ∧
    s.engine = .idle ∧ w < s.params.dmemWords ∧ s.inputs = s.writesAt (0x100000 + 8 * w) v :: rest :=
  ⟨withEvent State.reset (State.reset.writesAt (0x100000 + 8 * 4095) one), 4095, one, [], by decide, rfl, by decide, rfl⟩

/-- Word 0 written, and the last word unwritten. -/
theorem witness_dmemReadAnswersWord :
    (∃ (s : State) (w : Nat) (v : Word) (rest : List Event), s.params.wf = true ∧ s.engine = .idle ∧
      w < s.params.dmemWords ∧ s.inputs = s.readsAt (0x100000 + 8 * w) :: rest ∧ s.mem.readWord w = some v) ∧
    ∃ (s : State) (w : Nat) (rest : List Event), s.params.wf = true ∧ s.engine = .idle ∧ w < s.params.dmemWords ∧
      s.inputs = s.readsAt (0x100000 + 8 * w) :: rest ∧ s.mem.readWord w = none :=
  ⟨⟨withEvent { State.reset with mem := memOf 0 [one] } (State.reset.readsAt (0x100000 + 8 * 0)), 0, one, [], by decide,
      rfl, by decide, rfl, by decide +kernel⟩,
    ⟨withEvent { State.reset with mem := memOf 0 [one] } (State.reset.readsAt (0x100000 + 8 * 4095)), 4095, [], by decide,
      rfl, by decide, rfl, by decide +kernel⟩⟩

/-- With IE set: a completion, a refused issue, and a reset, each of which has a next state. -/
theorem witness_interruptLevel :
    (next? (exec .nop { busyWith .nop Operands.reset [] with ie := true })).map irq = some true ∧
    check Params.exampleConfig ⟨encodeWord .fft, Operands.reset⟩ = some .badLength ∧
    (next? (exec .fft { idleWith Operands.reset with ie := true })).map irq = some true ∧
    (next? (step (withEvent { busyWith .nop Operands.reset [] with ie := true } .reset))).map irq = some false := by
  decide +kernel

theorem witness_resetClearsRegisters : ∃ (s : State) (rest : List Event), s.inputs = .reset :: rest ∧ s.engine = .idle :=
  ⟨withEvent (idleWith fftOps) .reset, [], rfl, rfl⟩

theorem witness_resetAbandonsCommand : ∃ (s : State) (l : Latch) (i : Instr) (rest : List Event) (b : Buffer) (w : Nat),
    s.engine = .busy l ∧ decodeWord l.cmd = .ok i ∧ s.inputs = .reset :: rest ∧ b ∈ (footprint i l.ops).outputs ∧
    b.base ≤ w ∧ w < b.base + b.words :=
  ⟨withEvent (busyWith .fft fftOps fftMem) .reset, _, .fft, [], ⟨4, 4⟩, 7, rfl, rfl, rfl, by decide, by decide, by decide⟩

/-- The least and the greatest configuration. -/
theorem witness_resetMeetsInvariant : Params.wf ⟨256, 4, 2, 0⟩ = true ∧ Params.wf ⟨2 ^ 17, 2 ^ 16, 65535, 0⟩ = true := by
  decide

/-- FFT in flight with its inputs written and the host's CMD write and the engine's turn to come meets the invariant. -/
def inFlight : State :=
  { busyWith .fft fftOps fftMem with inputs := [State.reset.writesAt 0x020 6, .engine], maxFftSize := 8 }

theorem witness_invariant : inFlight.Inv where
  params := by decide
  mem := by decide +kernel
  errcodeClear := fun _ => rfl
  errcodeKnown := fun h => by cases h
  busy := fun l hl => by
    cases hl
    exact ⟨rfl, rfl, by decide +kernel, rfl⟩
  maxFftSize := .inr (by decide)

/-- It has a next state, its engine is BUSY, and no reset is to come. -/
theorem witness_runOn : (next? (step inFlight)).isSome = true ∧ inFlight.engine = .busy ⟨encodeWord .fft, fftOps⟩ ∧
    Event.reset ∉ inFlight.inputs := by
  refine ⟨by decide +kernel, rfl, by decide⟩

theorem witness_commandInFlightUndisturbed : ∃ (s : State) (l : Latch) (accesses rest : List Event), s.engine = .busy l ∧
    (∀ e ∈ accesses, e.isAccess = true) ∧ s.inputs = accesses ++ rest ∧ accesses ≠ [] :=
  ⟨inFlight, _, [State.reset.writesAt 0x020 6], [.engine], rfl, by decide, rfl, by decide⟩

/-- A refused issue leaves ERR and DONE; the host clears DONE alone. -/
theorem witness_errorWithoutDoneOnlyByHost :
    let s := { State.reset with status := { Status.reset with done := true, err := true, errcode := 2 } }
    (next? (step (withEvent s (s.writesAt 0x018 2)))).map (fun t => (t.status.err, t.status.done)) = some (true, false) := by
  decide +kernel

end Sys2Proof.Tests
end

section
/-!
PROOFS. The host's register writes and the interrupt level (`10_state.md` R37, R48).
-/

namespace Sys2Proof.Machine

/-! ### A register access as one step -/

/-- `CORE_BASE + off` reaches `off` (`20_memory.md` R70). -/
theorem portOffset_base_add (p : Params) {off : Nat} (h : off < 2 ^ 21) :
    portOffset p (p.coreBase + off) = some (BitVec.ofNat 21 off) := by
  rw [portOffset, if_pos (by omega), Nat.add_sub_cancel_left]

/-- The CSR window is the region's first 4 KiB (`20_memory.md` R73). -/
theorem regionOf_csr (p : Params) {off : Nat} (h : off < 0x1000) : regionOf p off = .csr (csrAt off) := if_pos h

/-- An aligned access of eight bytes inside the CSR window is an access to the register there. -/
theorem busAccess_csr (s : State) (op : PortOp) {off : Nat} (hlt : off < 0x1000) (hal : off % 8 = 0) :
    busAccess (s.params.coreBase + off) 8 op s = csrAccess (csrAt off) op s := by
  have hoff : (BitVec.ofNat 21 off).toNat = off := by
    rw [BitVec.toNat_ofNat, Nat.mod_eq_of_lt (by omega)]
  have hok : ¬(8 ≠ 8 ∨ off % 8 ≠ 0) := by omega
  simp only [busAccess, portOffset_base_add s.params (show off < 2 ^ 21 by omega), portAccess, hoff, if_neg hok,
    regionOf_csr s.params hlt]

/-- A write to a register other than CMD is answered OK in any state of the engine (`20_memory.md` R78). -/
theorem csrAccess_write {r : Csr} (hr : r ≠ .cmd) (v : Word) (s : State) :
    csrAccess r (.write v) s = .next (csrWrite { s with port := some (.write false) } v r) := by
  cases r with
  | cmd => exact absurd rfl hr
  | _ => rfl

/-- The step that takes a host access. -/
theorem step_bus {s : State} {addr bytes : Nat} {op : PortOp} {rest : List Event}
    (h : s.inputs = .bus addr bytes op :: rest) : step s = busAccess addr bytes op { s with inputs := rest } := by
  simp only [step, advance, h]

/-- The step that takes a host write to a register other than CMD. -/
theorem step_csrWrite {s : State} {off : Nat} {v : Word} {rest : List Event} (hlt : off < 0x1000) (hal : off % 8 = 0)
    (hr : csrAt off ≠ .cmd) (h : s.inputs = s.writesAt off v :: rest) :
    step s = .next (csrWrite { s with inputs := rest, port := some (.write false) } v (csrAt off)) :=
  (step_bus h).trans ((busAccess_csr { s with inputs := rest } (.write v) hlt hal).trans (csrAccess_write hr v _))

/-- Settles O45: offset 0x018 is STATUS, and its write is `Status.clear`. -/
theorem statusWriteClears : Obligations.StatusWriteClears := fun _ _ _ h =>
  step_csrWrite (off := 0x018) (by decide) (by decide) (by decide) h

/-! ### The interrupt level -/

theorem irq_eq_true_iff (s : State) : irq s = true ↔ s.ie = true ∧ s.status.done = true := Bool.and_eq_true_iff

/-- Where DONE is set IRQ is IE. -/
theorem irq_of_done {s : State} (h : s.status.done = true) : irq s = s.ie := by rw [irq, h, Bool.and_true]

/-- Where IE is clear IRQ is low. -/
theorem irq_of_not_ie {s : State} (h : s.ie = false) : irq s = false := by rw [irq, h, Bool.false_and]

/-- The checks of a command's own word are those of its footprint (`60_exceptions.md` R231). -/
@[simp] theorem check_encodeWord (p : Params) (i : Instr) (o : Operands) :
    check p ⟨encodeWord i, o⟩ = checkFootprint p (footprint i o) := by
  simp only [check, decodeWord_encodeWord]

/-- In an IDLE engine a command is issued with the result of its checks (`42_control.md` R211). -/
theorem exec_idle {s : State} (i : Instr) (h : s.engine = .idle) :
    exec i s = .next (issue (encodeWord i) (check s.params ⟨encodeWord i, s.operands⟩) s) := by
  rw [exec_eq, runCommand_idle h, check_encodeWord]

/-- A refused issue sets DONE and leaves IE (`60_exceptions.md` R232). -/
theorem exec_refused_done {s t : State} {i : Instr} {c : ErrorCode} (hidle : s.engine = .idle)
    (hc : check s.params ⟨encodeWord i, s.operands⟩ = some c) (h : exec i s = .next t) :
    t.status.done = true ∧ t.ie = s.ie := by
  rw [exec_idle i hidle, hc] at h
  cases h
  exact ⟨rfl, rfl⟩

/-- A completion sets DONE and leaves IE (`42_control.md` R214). -/
theorem exec_completion_done {s t : State} {i : Instr} {l : Latch} (hbusy : s.engine = .busy l)
    (h : exec i s = .next t) : t.status.done = true ∧ t.ie = s.ie := by
  rw [exec_eq, runCommand_busy hbusy] at h
  rcases complete_cases (footprint i) (bodyOf i) l s with ⟨m, -, hnext⟩ | ⟨e, -, hfault⟩
  · rw [hnext] at h
    cases h
    exact ⟨rfl, rfl⟩
  · rw [hfault] at h
    cases h

/-- The step that takes a reset (`70_reset_and_hazards.md` R260). -/
theorem step_reset {s : State} {rest : List Event} (h : s.inputs = .reset :: rest) :
    step s = .next (resetCore { s with inputs := rest }) := by
  simp only [step, advance, h]

/-- Settles O50: a completion and a refused issue set DONE and leave IE, a reset clears IE. -/
theorem interruptLevel : Obligations.InterruptLevel := by
  refine ⟨irq_eq_true_iff, ?completion, ?refused, ?reset⟩
  case completion =>
    intro s t i l hbusy h
    obtain ⟨hdone, hie⟩ := exec_completion_done hbusy h
    rw [irq_of_done hdone, hie]
  case refused =>
    intro s t i c hidle hc h
    obtain ⟨hdone, hie⟩ := exec_refused_done hidle hc h
    rw [irq_of_done hdone, hie]
  case reset =>
    intro s t rest hin h
    rw [step_reset hin] at h
    cases h
    exact irq_of_not_ie (resetCore_ie _)

end Sys2Proof.Machine
end

section
/-!
PROOFS. The host's accesses that get the ERROR response (`20_memory.md` R71, R74, R76, R77).
-/

namespace Sys2Proof.Machine

/-- An address in the core's region is an access at its offset there (`20_memory.md` R70). -/
theorem busAccess_base_add (s : State) (bytes : Nat) (op : PortOp) {off : Nat} (h : off < 2 ^ 21) :
    busAccess (s.params.coreBase + off) bytes op s = portAccess (BitVec.ofNat 21 off) bytes op s := by
  simp only [busAccess, portOffset_base_add s.params h]

/-- Between the CSR window and DMEM, and from the end of DMEM on, the region is reserved (`20_memory.md` R73). -/
theorem regionOf_reserved (p : Params) {off : Nat}
    (h : 0x1000 ≤ off ∧ off < dmemWindow ∨ dmemWindow + 8 * p.dmemWords ≤ off) : regionOf p off = .reserved := by
  have hwindow : 0x1000 ≤ dmemWindow := by decide
  rw [regionOf, if_neg (by omega)]
  rcases h with ⟨-, hgap⟩ | hend
  · exact if_pos hgap
  · rw [if_neg (by omega), if_neg (by omega)]

/-- From the DMEM window on there is no register (`20_memory.md` R73). -/
theorem regionOf_ne_csr (p : Params) {off : Nat} (h : dmemWindow ≤ off) (r : Csr) : regionOf p off ≠ .csr r := by
  have hwindow : 0x1000 ≤ dmemWindow := by decide
  rw [regionOf, if_neg (by omega), if_neg (by omega)]
  split
  · exact Region.noConfusion
  · exact Region.noConfusion

/-- While BUSY the core answers any access to DMEM with ERROR (`20_memory.md` R77). -/
theorem dmemAccess_busy {s : State} {l : Latch} (h : s.engine = .busy l) (w : Nat) (op : PortOp) :
    dmemAccess w op s = .next (errorResponse op s) := by
  simp only [dmemAccess, h]

section
variable (s : State) {off : Offset} {bytes : Nat} (op : PortOp)

/-- The size or the alignment is wrong (`20_memory.md` R71). -/
theorem portAccess_malformed (h : bytes ≠ 8 ∨ off.toNat % 8 ≠ 0) :
    portAccess off bytes op s = .next (errorResponse op s) := if_pos h

/-- In a reserved range the size and the alignment do not matter (`20_memory.md` R74). -/
theorem portAccess_reserved (h : regionOf s.params off.toNat = .reserved) :
    portAccess off bytes op s = .next (errorResponse op s) := by
  rw [portAccess, h]
  exact ite_self _

/-- While BUSY every access outside the CSR window gets ERROR (`20_memory.md` R74, R77). -/
theorem portAccess_busy {l : Latch} (he : s.engine = .busy l) (h : ∀ r, regionOf s.params off.toNat ≠ .csr r) :
    portAccess off bytes op s = .next (errorResponse op s) := by
  cases hregion : regionOf s.params off.toNat with
  | csr r => exact absurd hregion (h r)
  | dmem w =>
    rw [portAccess, hregion]
    simp only [dmemAccess_busy he, ite_self]
  | reserved => exact portAccess_reserved s op hregion

end

/-- Settles O41, by the ground of the access; all lead to `errorResponse`. -/
theorem badAccessGetsError : Obligations.BadAccessGetsError := by
  intro s off bytes op rest hoff hin hbad
  have hnat : (BitVec.ofNat 21 off).toNat = off := by
    rw [BitVec.toNat_ofNat, Nat.mod_eq_of_lt hoff]
  have herror : portAccess (BitVec.ofNat 21 off) bytes op { s with inputs := rest } =
      .next (errorResponse op { s with inputs := rest }) := by
    rcases hbad with hsize | halign | hgap | hend | ⟨hdmem, l, hbusy⟩
    · exact portAccess_malformed _ op (.inl hsize)
    · exact portAccess_malformed _ op (.inr (hnat.symm ▸ halign))
    · exact portAccess_reserved _ op (hnat.symm ▸ regionOf_reserved s.params (.inl hgap))
    · exact portAccess_reserved _ op (hnat.symm ▸ regionOf_reserved s.params (.inr hend))
    · exact portAccess_busy _ op hbusy (hnat.symm ▸ regionOf_ne_csr s.params hdmem)
  exact (step_bus hin).trans ((busAccess_base_add { s with inputs := rest } bytes op hoff).trans herror)

end Sys2Proof.Machine
end

section
/-!
PROOFS. Rules about the arithmetic with its draws (`00_scope.md` R10, R12) and about the elements of a vector (R9).
-/

namespace Sys2Proof.Machine

/-! ### The draw of a NaN -/

theorem F64.magnitude_or (x y : F64) : F64.magnitude (x ||| y) = F64.magnitude x ||| F64.magnitude y := by
  simp only [F64.magnitude, BitVec.toNat_or, Nat.or_mod_two_pow]

/-- Every draw selects a NaN (`00_scope.md` R12). -/
theorem F64.isNaN_nanOf (draw : Word) : F64.isNaN (F64.nanOf draw) = true := by
  have hexp : 0x7FF0000000000000 ≤ F64.magnitude (draw ||| 0x7FF0000000000000#64) := by
    rw [F64.magnitude_or]
    exact Nat.right_le_or
  rw [F64.nanOf]
  split
  · assumption
  · next hinf =>
    have hmag : F64.magnitude (draw ||| 0x7FF0000000000000#64) = 0x7FF0000000000000 := by
      simp only [F64.isNaN, decide_eq_true_eq] at hinf
      omega
    rw [F64.isNaN, F64.magnitude_or, hmag]
    decide

section
variable (N N' : Numerics) {x x' y y' : F64}

@[simp] theorem Numerics.isNaN_nan : F64.isNaN N.nan = true := F64.isNaN_nanOf _

/-- Evaluations at two places agree (`00_scope.md` R12). -/
theorem Numerics.add_agree (hx : F64.agree x x') (hy : F64.agree y y') : F64.agree (N.add x y) (N'.add x' y') :=
  F64.add_agree N.isNaN_nan N'.isNaN_nan hx hy

theorem Numerics.sub_agree (hx : F64.agree x x') (hy : F64.agree y y') : F64.agree (N.sub x y) (N'.sub x' y') :=
  F64.sub_agree N.isNaN_nan N'.isNaN_nan hx hy

theorem Numerics.mul_agree (hx : F64.agree x x') (hy : F64.agree y y') : F64.agree (N.mul x y) (N'.mul x' y') :=
  F64.mul_agree N.isNaN_nan N'.isNaN_nan hx hy

theorem Numerics.div_agree (hx : F64.agree x x') (hy : F64.agree y y') : F64.agree (N.div x y) (N'.div x' y') :=
  F64.div_agree N.isNaN_nan N'.isNaN_nan hx hy

/-- The draw replaces a function's result only where that is a NaN. -/
theorem Numerics.drawn_agree (r : F64) : F64.agree (N.drawn r) r := by
  rw [Numerics.drawn]
  split
  · next hnan => exact .inr ⟨N.isNaN_nan, hnan⟩
  · exact F64.agree_refl r

/-- The place of an operation does not change EXP. -/
theorem Numerics.expAt_at_agree (k : Nat) (x : F64) : F64.agree ((N.at k).expAt x) (N.exp x) :=
  (N.at k).drawn_agree _

/-- The place of an operation does not change LOG. -/
theorem Numerics.logAt_at_agree (k : Nat) (x : F64) : F64.agree ((N.at k).logAt x) (N.log x) :=
  (N.at k).drawn_agree _

/-- The place of an operation does not change POW. -/
theorem Numerics.powAt_at_agree (k : Nat) (x y : F64) : F64.agree ((N.at k).powAt x y) (N.pow x y) :=
  (N.at k).drawn_agree _

end

/-! ### Comparison with zero -/

theorem F64.key_eq_zero_iff (x : F64) : F64.key x = 0 ↔ F64.magnitude x = 0 := by
  rw [F64.key]
  split <;> omega

/-- `x == 0.0` holds of the zeros of both signs and of nothing else (`00_scope.md` R10). -/
theorem F64.eq_lit0 (x : F64) : F64.eq x F64.lit0 = F64.isZero x := by
  have hmag : F64.magnitude F64.lit0 = 0 := by decide
  have hkey : F64.key F64.lit0 = 0 := (F64.key_eq_zero_iff _).2 hmag
  rw [Bool.eq_iff_iff]
  simp only [F64.eq, F64.isNaN, F64.isZero, hmag, hkey, Bool.and_eq_true, Bool.not_eq_true', decide_eq_false_iff_not,
    beq_iff_eq, F64.key_eq_zero_iff]
  omega

/-! ### Elements of a vector -/

@[simp] theorem elem_cons_succ (x : F64) (V : Vec) (j : Nat) : elem (x :: V) (j + 1) = elem V j := rfl

@[simp] theorem elem_map_range (f : Nat → F64) {n j : Nat} (h : j < n) : elem ((List.range n).map f) j = f j := by
  simp [elem, h]

/-- A vector of a first value and `m` computed ones has at index `i ≥ 1` the value computed at `i − 1`. -/
theorem elem_cons_map_range (x : F64) (f : Nat → F64) {m i : Nat} (hpos : 1 ≤ i) (hle : i ≤ m) :
    elem (x :: (List.range m).map f) i = f (i - 1) := by
  obtain ⟨j, rfl⟩ := Nat.exists_eq_add_of_le' hpos
  exact (elem_cons_succ _ _ _).trans (elem_map_range f hle)

end Sys2Proof.Machine
end

section
/-!
PROOFS. Gain normalization and denormalization, element by element (`40_cepstral.md` R134, R135).
-/

namespace Sys2Proof.Machine

/-! ### The two branches of GNORM_F and IGNORM_F -/

/-- R134's `k = 1.0 + g * c[0]`, at the places GNORM_F evaluates it. -/
def gnormGain (N : Numerics) (c : Vec) (g : F64) : F64 := (N.at 0).add F64.lit1 ((N.at 1).mul g (elem c 0))

section
variable (N : Numerics) (c : Vec) (m : Nat) {g : F64}

theorem gnormF_of_isZero (h : F64.isZero g = true) :
    gnormF N c m g = (N.at 5).expAt (elem c 0) :: (List.range m).map fun j => elem c (j + 1) :=
  if_neg (by rw [F64.eq_lit0, h]; decide)

theorem gnormF_of_not_isZero (h : F64.isZero g = false) :
    gnormF N c m g = (N.at 2).powAt (gnormGain N c g) ((N.at 3).div F64.lit1 g)
      :: (List.range m).map fun j => ((N.at 4).at j).div (elem c (j + 1)) (gnormGain N c g) :=
  if_pos ((F64.eq_lit0 g).trans h)

theorem ignormF_of_isZero (h : F64.isZero g = true) :
    ignormF N c m g = (N.at 4).logAt (elem c 0) :: (List.range m).map fun j => elem c (j + 1) :=
  if_neg (by rw [F64.eq_lit0, h]; decide)

theorem ignormF_of_not_isZero (h : F64.isZero g = false) :
    ignormF N c m g = (N.at 1).div ((N.at 2).sub ((N.at 0).powAt (elem c 0) g) F64.lit1) g
      :: (List.range m).map fun j => ((N.at 3).at j).mul ((N.at 0).powAt (elem c 0) g) (elem c (j + 1)) :=
  if_pos ((F64.eq_lit0 g).trans h)

/-- The draws inside the gain of GNORM_F show only in a NaN's bits. -/
theorem gnormGain_agree (g : F64) : F64.agree (gnormGain N c g) (N.add F64.lit1 (N.mul g (elem c 0))) :=
  Numerics.add_agree _ _ (F64.agree_refl _) (Numerics.mul_agree _ _ (F64.agree_refl _) (F64.agree_refl _))

end

/-- Settles O27, by the branch R134 takes; `k` and the exponent are the values GNORM_F itself computes. -/
theorem gnormValues : Obligations.GnormValues := by
  intro N c m g
  refine ⟨gnormF_length N c m g, fun hzero => ?zero, fun hne => ?nonzero⟩
  case zero =>
    rw [gnormF_of_isZero N c m hzero]
    refine ⟨N.expAt_at_agree 5 _, fun i hpos hle => ?_⟩
    rw [elem_cons_map_range _ _ hpos hle, Nat.sub_add_cancel hpos]
  case nonzero =>
    rw [gnormF_of_not_isZero N c m hne]
    refine ⟨gnormGain N c g, (N.at 3).div F64.lit1 g, gnormGain_agree N c g, ?exponent, N.powAt_at_agree 2 _ _, ?tail⟩
    case exponent => exact Numerics.div_agree _ _ (F64.agree_refl _) (F64.agree_refl _)
    case tail =>
      intro i hpos hle
      rw [elem_cons_map_range _ _ hpos hle, Nat.sub_add_cancel hpos]
      exact Numerics.div_agree _ _ (F64.agree_refl _) (F64.agree_refl _)

/-- Settles O28, by the branch R135 takes; POW's own draw is carried on by the three operations after it. -/
theorem ignormValues : Obligations.IgnormValues := by
  intro N c m g k
  have hk : F64.agree ((N.at 0).powAt (elem c 0) g) k := N.powAt_at_agree 0 _ _
  refine ⟨ignormF_length N c m g, fun hzero => ?zero, fun hne => ?nonzero⟩
  case zero =>
    rw [ignormF_of_isZero N c m hzero]
    refine ⟨N.logAt_at_agree 4 _, fun i hpos hle => ?_⟩
    rw [elem_cons_map_range _ _ hpos hle, Nat.sub_add_cancel hpos]
  case nonzero =>
    rw [ignormF_of_not_isZero N c m hne]
    refine ⟨?first, ?tail⟩
    case first =>
      have hsub : F64.agree ((N.at 2).sub ((N.at 0).powAt (elem c 0) g) F64.lit1) (N.sub k F64.lit1) :=
        Numerics.sub_agree _ _ hk (F64.agree_refl _)
      exact Numerics.div_agree _ _ hsub (F64.agree_refl _)
    case tail =>
      intro i hpos hle
      rw [elem_cons_map_range _ _ hpos hle, Nat.sub_add_cancel hpos]
      exact Numerics.mul_agree _ _ hk (F64.agree_refl _)

end Sys2Proof.Machine
end

section
/-!
PROOFS. The place of a finite pattern on the number line, and the ranges of R236 that the bit-level tests of a warping
constant and of an exponent decide (`00_scope.md` R14; `60_exceptions.md` R236).
-/

namespace Sys2Proof.Machine

/-! ### The value of a finite pattern -/

/-- The absolute value, in units of 2^(−1074), of the finite patterns whose bits [62:0] are `n` (`00_scope.md` R14). -/
def F64.scaled (n : Nat) : Nat := if n / 2 ^ 52 = 0 then n else (2 ^ 52 + n % 2 ^ 52) * 2 ^ (n / 2 ^ 52 - 1)

/-- The next pattern up is a greater value: within a binade the fraction grows, at its end the exponent does. -/
theorem F64.scaled_lt_succ (n : Nat) : F64.scaled n < F64.scaled (n + 1) := by
  by_cases hfrac : n % 2 ^ 52 + 1 < 2 ^ 52
  case pos =>
    have hdiv : (n + 1) / 2 ^ 52 = n / 2 ^ 52 := by omega
    have hmod : (n + 1) % 2 ^ 52 = n % 2 ^ 52 + 1 := by omega
    rw [F64.scaled, F64.scaled, hdiv, hmod]
    split
    · exact n.lt_succ_self
    · exact Nat.mul_lt_mul_of_pos_right (by omega) (Nat.two_pow_pos _)
  case neg =>
    have hdiv : (n + 1) / 2 ^ 52 = n / 2 ^ 52 + 1 := by omega
    have hmod : (n + 1) % 2 ^ 52 = 0 := by omega
    rw [F64.scaled, F64.scaled, hdiv, hmod, if_neg (Nat.succ_ne_zero _), Nat.add_sub_cancel]
    split
    · next hsub => rw [hsub]; omega
    · next hnormal =>
      obtain ⟨k, hk⟩ := Nat.exists_eq_succ_of_ne_zero hnormal
      have hpos : 0 < 2 ^ k := Nat.two_pow_pos k
      have hmant : 2 ^ 52 + n % 2 ^ 52 = 2 ^ 53 - 1 := by omega
      rw [hk, hmant, Nat.succ_sub_one, Nat.pow_succ 2 k]
      generalize 2 ^ k = u at hpos ⊢
      omega

theorem F64.scaled_lt_scaled_iff (m n : Nat) : F64.scaled m < F64.scaled n ↔ m < n :=
  (strictMono_nat_of_lt_succ F64.scaled_lt_succ).lt_iff_lt

/-- The fields of a finite pattern multiply out to its absolute value (`00_scope.md` R14). -/
theorem F64.unpack_of_isFinite {x : F64} (h : F64.isFinite x = true) :
    ∃ m e, F64.unpack x = .fin (F64.sign x) m e ∧ m * 2 ^ e = F64.scaled (F64.magnitude x) := by
  have hexp : F64.magnitude x / 2 ^ 52 ≠ 2047 := by
    simp only [F64.isFinite, decide_eq_true_eq] at h
    omega
  rw [F64.unpack, if_neg hexp, F64.scaled]
  split
  · next hsub => exact ⟨_, _, rfl, by omega⟩
  · exact ⟨_, _, rfl, rfl⟩

/-- The value of a finite pattern, in units of 2^(−1074). -/
def F64.signedScaled (x : F64) : Int :=
  if F64.sign x then -(F64.scaled (F64.magnitude x)) else F64.scaled (F64.magnitude x)

theorem F64.value_eq_signedScaled {x : F64} (h : F64.isFinite x = true) :
    F64.value x = (F64.signedScaled x : ℚ) / 2 ^ 1074 := by
  obtain ⟨m, e, hunpack, hscaled⟩ := F64.unpack_of_isFinite h
  rw [F64.value, F64.signedScaled, hunpack, ← hscaled]
  cases F64.sign x
  · simp
  · simp [neg_div]

/-- Signed values are ordered as their places `F64.key`: both are odd in the sign bit and rise with bits [62:0]. -/
theorem F64.signedScaled_lt_iff (x y : F64) : F64.signedScaled x < F64.signedScaled y ↔ F64.key x < F64.key y := by
  have hzero : F64.scaled 0 = 0 := rfl
  have hxy := F64.scaled_lt_scaled_iff (F64.magnitude x) (F64.magnitude y)
  have hyx := F64.scaled_lt_scaled_iff (F64.magnitude y) (F64.magnitude x)
  have hx := F64.scaled_lt_scaled_iff 0 (F64.magnitude x)
  have hy := F64.scaled_lt_scaled_iff 0 (F64.magnitude y)
  rw [F64.signedScaled, F64.signedScaled, F64.key, F64.key]
  split <;> split <;> omega

/-- Finite values are ordered as their places on the number line (`00_scope.md` R10, R14). -/
theorem F64.value_lt_value_iff {x y : F64} (hx : F64.isFinite x = true) (hy : F64.isFinite y = true) :
    F64.value x < F64.value y ↔ F64.key x < F64.key y := by
  rw [F64.value_eq_signedScaled hx, F64.value_eq_signedScaled hy, div_lt_div_iff_of_pos_right (by positivity),
    Int.cast_lt, F64.signedScaled_lt_iff]

theorem F64.value_le_value_iff {x y : F64} (hx : F64.isFinite x = true) (hy : F64.isFinite y = true) :
    F64.value x ≤ F64.value y ↔ F64.key x ≤ F64.key y := by
  rw [← not_lt, F64.value_lt_value_iff hy hx, not_lt]

/-! ### IEEE comparisons of finite patterns -/

theorem F64.isNaN_of_isFinite {x : F64} (h : F64.isFinite x = true) : F64.isNaN x = false := by
  simp only [F64.isFinite, F64.isNaN, decide_eq_true_eq, decide_eq_false_iff_not] at h ⊢
  omega

/-- `x < y` in IEEE comparison is `<` of the values (`60_exceptions.md` R236). -/
theorem F64.lt_iff_value_lt {x y : F64} (hx : F64.isFinite x = true) (hy : F64.isFinite y = true) :
    F64.lt x y = true ↔ F64.value x < F64.value y := by
  simp [F64.lt, F64.isNaN_of_isFinite hx, F64.isNaN_of_isFinite hy, F64.value_lt_value_iff hx hy]

/-- `x ≤ y` in IEEE comparison is `≤` of the values (`60_exceptions.md` R236). -/
theorem F64.le_iff_value_le {x y : F64} (hx : F64.isFinite x = true) (hy : F64.isFinite y = true) :
    F64.le x y = true ↔ F64.value x ≤ F64.value y := by
  simp [F64.le, F64.isNaN_of_isFinite hx, F64.isNaN_of_isFinite hy, F64.value_le_value_iff hx hy]

theorem F64.key_le_of_lt {x y : F64} (h : F64.lt x y = true) : F64.key x ≤ F64.key y := by
  simp only [F64.lt, Bool.and_eq_true, decide_eq_true_eq] at h
  obtain ⟨-, -, hkey⟩ := h
  exact hkey.le

theorem F64.key_le_of_le {x y : F64} (h : F64.le x y = true) : F64.key x ≤ F64.key y := by
  simp only [F64.le, Bool.and_eq_true, decide_eq_true_eq] at h
  obtain ⟨-, -, hkey⟩ := h
  exact hkey

/-- A pattern whose place lies between those of −1.0 and 1.0 is finite: the infinities and the NaNs lie beyond. -/
theorem F64.isFinite_of_key_mem {x : F64} (hlow : F64.key F64.litNeg1 ≤ F64.key x)
    (hhigh : F64.key x ≤ F64.key F64.lit1) : F64.isFinite x = true := by
  have hneg : F64.key F64.litNeg1 = -0x3FF0000000000000 := by decide
  have hone : F64.key F64.lit1 = 0x3FF0000000000000 := by decide
  rw [hneg, F64.key] at hlow
  rw [hone, F64.key] at hhigh
  simp only [F64.isFinite, decide_eq_true_eq]
  split at hlow
  · omega
  · next hpos =>
    rw [if_neg hpos] at hhigh
    omega

/-! ### The ranges of R236 -/

theorem F64.value_lit0 : F64.value F64.lit0 = 0 := by
  norm_num [F64.value, F64.unpack, F64.magnitude, F64.lit0]

theorem F64.value_lit1 : F64.value F64.lit1 = 1 := by
  have hunits : F64.signedScaled F64.lit1 = 2 ^ 1074 := by decide +kernel
  rw [F64.value_eq_signedScaled (by decide), hunits, Int.cast_pow, Int.cast_ofNat, div_self (by positivity)]

theorem F64.value_litNeg1 : F64.value F64.litNeg1 = -1 := by
  have hunits : F64.signedScaled F64.litNeg1 = -2 ^ 1074 := by decide +kernel
  rw [F64.value_eq_signedScaled (by decide), hunits, Int.cast_neg, Int.cast_pow, Int.cast_ofNat, neg_div,
    div_self (by positivity)]

/-- The bit-level test of a warping constant decides the range (−1, 1) (`60_exceptions.md` R236). -/
theorem warpLegal_iff_warpInRange (a : F64) : warpLegal a = true ↔ warpInRange a := by
  have hneg : F64.isFinite F64.litNeg1 = true := by decide
  have hone : F64.isFinite F64.lit1 = true := by decide
  rw [warpLegal, Bool.and_eq_true, warpInRange, ← F64.value_litNeg1, ← F64.value_lit1]
  constructor
  · rintro ⟨hlow, hhigh⟩
    have hfin := F64.isFinite_of_key_mem (F64.key_le_of_lt hlow) (F64.key_le_of_lt hhigh)
    exact ⟨hfin, (F64.lt_iff_value_lt hneg hfin).1 hlow, (F64.lt_iff_value_lt hfin hone).1 hhigh⟩
  · rintro ⟨hfin, hlow, hhigh⟩
    exact ⟨(F64.lt_iff_value_lt hneg hfin).2 hlow, (F64.lt_iff_value_lt hfin hone).2 hhigh⟩

/-- The bit-level test of an exponent decides the range [−1, 0] (`60_exceptions.md` R236). -/
theorem exponentLegal_iff_exponentInRange (g : F64) : exponentLegal g = true ↔ exponentInRange g := by
  have hneg : F64.isFinite F64.litNeg1 = true := by decide
  have hzero : F64.isFinite F64.lit0 = true := by decide
  have hkey : F64.key F64.lit0 ≤ F64.key F64.lit1 := by decide
  rw [exponentLegal, Bool.and_eq_true, exponentInRange, ← F64.value_litNeg1, ← F64.value_lit0]
  constructor
  · rintro ⟨hlow, hhigh⟩
    have hfin := F64.isFinite_of_key_mem (F64.key_le_of_le hlow) ((F64.key_le_of_le hhigh).trans hkey)
    exact ⟨hfin, (F64.le_iff_value_le hneg hfin).1 hlow, (F64.le_iff_value_le hfin hzero).1 hhigh⟩
  · rintro ⟨hfin, hlow, hhigh⟩
    exact ⟨(F64.le_iff_value_le hneg hfin).2 hlow, (F64.le_iff_value_le hfin hzero).2 hhigh⟩

end Sys2Proof.Machine
end

section
/-!
PROOFS. `CHECK` reports the first code whose condition in the tables of `60_exceptions.md` R234 to R238 holds (R231).
-/

namespace Sys2Proof.Machine

/-! ### The first condition that holds -/

/-- `r` is the first code, in the order of the code table, whose condition `P` holds, or `none` where none holds
(`60_exceptions.md` R231). -/
def ReportsFirst (P : ErrorCode → Prop) : Option ErrorCode → Prop
  | none => ∀ c, ¬ P c
  | some c => P c ∧ ∀ c', c'.code.toNat < c.code.toNat → ¬ P c'

theorem ErrorCode.forall_iff {P : ErrorCode → Prop} :
    (∀ c, P c) ↔ P .illegalOpcode ∧ P .badLength ∧ P .badOrder ∧ P .badParam ∧ P .addrRange ∧ P .overlap := by
  constructor
  · exact fun h => ⟨h _, h _, h _, h _, h _, h _⟩
  · rintro ⟨hopcode, hlength, horder, hparam, hrange, hoverlap⟩ c
    cases c <;> assumption

/-- Each code has its own number (`60_exceptions.md` R230). -/
theorem ErrorCode.code_injective : ∀ c d : ErrorCode, c.code.toNat = d.code.toNat → c = d := by
  simp [ErrorCode.forall_iff, ErrorCode.code]

section
variable {P Q : ErrorCode → Prop} {r r' : Option ErrorCode}

/-- There is one first code. -/
theorem ReportsFirst.unique (h : ReportsFirst P r) (h' : ReportsFirst P r') : r = r' := by
  cases r with
  | none =>
    cases r' with
    | none => rfl
    | some d => exact absurd h'.1 (h d)
  | some c =>
    cases r' with
    | none => exact absurd h.1 (h' c)
    | some d =>
      rcases lt_trichotomy c.code.toNat d.code.toNat with hlt | heq | hgt
      · exact absurd h.1 (h'.2 c hlt)
      · rw [ErrorCode.code_injective c d heq]
      · exact absurd h'.1 (h.2 d hgt)

theorem ReportsFirst.eq_iff (h : ReportsFirst P r) : r = r' ↔ ReportsFirst P r' :=
  ⟨fun heq => heq ▸ h, h.unique⟩

/-- Two conditions have the same first code if they agree on each code below which none holds. -/
theorem ReportsFirst.congr (h : ReportsFirst P r)
    (hPQ : ∀ c, (∀ c', c'.code.toNat < c.code.toNat → ¬ P c') → (P c ↔ Q c)) : ReportsFirst Q r := by
  cases r with
  | none => exact fun c => (hPQ c fun c' _ => h c').not.1 (h c)
  | some c =>
    exact ⟨(hPQ c h.2).1 h.1, fun c' hlt => (hPQ c' fun c'' hlt' => h.2 c'' (hlt'.trans hlt)).not.1 (h.2 c' hlt)⟩

end

/-! ### The checks of a footprint, in order -/

/-- The test `CHECK` makes for each code on a footprint (`60_exceptions.md` R231). -/
def footprintFails (p : Params) (f : Footprint) : ErrorCode → Prop
  | .illegalOpcode => False
  | .badLength => f.length.any (badLength p) = true
  | .badOrder => badOrder p f = true
  | .badParam => badParam f = true
  | .addrRange => outOfRange p f = true
  | .overlap => outputsOverlap f = true

/-- The checks stop at the first test that fails. -/
theorem checkFootprint_reportsFirst (p : Params) (f : Footprint) :
    ReportsFirst (footprintFails p f) (checkFootprint p f) := by
  unfold checkFootprint
  split_ifs with hlength horder hparam hrange hoverlap <;>
    simp [ReportsFirst, ErrorCode.forall_iff, footprintFails, ErrorCode.code, *]

/-! ### The word's legality -/

theorem encodeWord_toNat_lt (i : Instr) : (encodeWord i).toNat < 0x0C := by cases i <;> decide

/-- A word with a reserved opcode or a nonzero RSV is refused (`60_exceptions.md` R233). -/
theorem check_of_illegal {v : Word} (o : Operands) (p : Params) (h : v.toNat / 2 ^ 8 ≠ 0 ∨ 0x0C ≤ v.toNat % 2 ^ 8) :
    check p ⟨v, o⟩ = some .illegalOpcode := by
  cases hd : decodeWord v with
  | error e => simp only [check, hd]
  | ok i =>
    have hlt := encodeWord_toNat_lt i
    rw [encodeWord_of_decodeWord hd] at hlt
    omega

/-! ### BAD_LENGTH (`60_exceptions.md` R234) -/

theorem isPowerOfTwo_iff (n : Nat) : isPowerOfTwo n = true ↔ ∃ k, n = 2 ^ k := by
  simp only [isPowerOfTwo, Bool.and_eq_true, bne_iff_ne, beq_iff_eq]
  constructor
  · exact fun h => ⟨_, h.2⟩
  · rintro ⟨k, rfl⟩
    exact ⟨(Nat.two_pow_pos k).ne', by rw [Nat.log2_two_pow]⟩

theorem badLength_iff (p : Params) (n : Nat) : badLength p n = true ↔ ¬ lengthAdmitted p n := by
  rw [lengthAdmitted, ← isPowerOfTwo_iff]
  simp only [badLength, Bool.or_eq_true, Bool.not_eq_true', decide_eq_true_eq, not_and_or, Bool.not_eq_true, not_le]

/-- LEN is tested for the commands that use it. -/
theorem badLength_footprint_iff (p : Params) (o : Operands) (i : Instr) :
    (footprint i o).length.any (badLength p) = true ↔ usesLength i ∧ ¬ lengthAdmitted p o.len.toNat := by
  rw [← badLength_iff]
  cases i with
  | fft | rfft | c2sp | mgc2sp | powsp => exact (and_iff_right (by simp [usesLength])).symm
  | nop | freqt | freqtu | gc2gc | gnorm | ignorm | mgc2mgc =>
    exact iff_of_false Bool.false_ne_true (by simp [usesLength])

/-! ### BAD_ORDER (`60_exceptions.md` R235) -/

/-- An order above MMAX, or C2SP's order at LEN or above. -/
theorem badOrder_iff (p : Params) {f : Footprint} {ms : List Nat} {reaches : Bool} (hm : f.orders = ms)
    (hr : f.orderReachesLength = reaches) : badOrder p f = true ↔ (∃ m ∈ ms, p.mmax < m) ∨ reaches = true := by
  simp [badOrder, hm, hr]

theorem badOrder_footprint_iff (p : Params) (o : Operands) (i : Instr) :
    badOrder p (footprint i o) = true ↔ orderRefused p o i := by
  cases i with
  | nop | fft | rfft => exact .trans (badOrder_iff p (ms := []) (reaches := false) rfl rfl) (by simp [orderRefused])
  | freqt | freqtu | gc2gc | mgc2mgc =>
    exact .trans (badOrder_iff p (ms := [o.m1.toNat, o.m2.toNat]) (reaches := false) rfl rfl) (by simp [orderRefused])
  | gnorm | ignorm | mgc2sp | powsp =>
    exact .trans (badOrder_iff p (ms := [o.m1.toNat]) (reaches := false) rfl rfl) (by simp [orderRefused])
  | c2sp =>
    exact .trans (badOrder_iff p (ms := [o.m1.toNat]) (reaches := decide (o.len.toNat ≤ o.m1.toNat)) rfl rfl)
      (by simp [orderRefused])

/-! ### BAD_PARAM (`60_exceptions.md` R236) -/

theorem badParam_iff {f : Footprint} {ws gs : List F64} (hw : f.warps = ws) (hg : f.exponents = gs) :
    badParam f = true ↔ (∃ a ∈ ws, ¬ warpInRange a) ∨ ∃ g ∈ gs, ¬ exponentInRange g := by
  simp [badParam, hw, hg, ← warpLegal_iff_warpInRange, ← exponentLegal_iff_exponentInRange]

theorem badParam_footprint_iff (o : Operands) (i : Instr) :
    badParam (footprint i o) = true ↔ paramRefused o i := by
  cases i with
  | nop | fft | rfft | c2sp => exact .trans (badParam_iff (ws := []) (gs := []) rfl rfl) (by simp [paramRefused])
  | freqt | freqtu => exact .trans (badParam_iff (ws := [o.fa1]) (gs := []) rfl rfl) (by simp [paramRefused])
  | gc2gc => exact .trans (badParam_iff (ws := []) (gs := [o.fg1, o.fg2]) rfl rfl) (by simp [paramRefused])
  | gnorm | ignorm => exact .trans (badParam_iff (ws := []) (gs := [o.fg1]) rfl rfl) (by simp [paramRefused])
  | mgc2mgc =>
    exact .trans (badParam_iff (ws := [o.fa1, o.fa2]) (gs := [o.fg1, o.fg2]) rfl rfl)
      (by simp [paramRefused, or_assoc])
  | mgc2sp | powsp => exact .trans (badParam_iff (ws := [o.fa1]) (gs := [o.fg1]) rfl rfl) (by simp [paramRefused])

/-! ### ADDR_RANGE (`60_exceptions.md` R237) -/

theorem outOfRange_iff (p : Params) {f : Footprint} {bs : List Buffer} (hbs : f.inputs ++ f.outputs = bs)
    (hpos : ∀ b ∈ bs, b.words ≠ 0) : outOfRange p f = true ↔ ∃ b ∈ bs, p.dmemWords < b.base + b.words := by
  rw [outOfRange, hbs, List.any_eq_true]
  refine exists_congr fun b => and_congr_right fun hb => ?_
  simp only [Buffer.beyond, Bool.and_eq_true, decide_eq_true_eq]
  have := hpos b hb
  omega

/-- Where LEN is not 0 no buffer is empty, and R237's test of a buffer is its table's. -/
theorem outOfRange_footprint_iff (p : Params) (o : Operands) (i : Instr) (hlen : usesLength i → o.len.toNat ≠ 0) :
    outOfRange p (footprint i o) = true ↔ rangeRefused p o i := by
  cases i with
  | nop => exact .trans (outOfRange_iff p (bs := []) rfl (by simp)) (by simp [rangeRefused])
  | fft =>
    have hne := hlen (by simp [usesLength])
    exact .trans (outOfRange_iff p (bs := [⟨o.aBase.toNat, o.len.toNat⟩, ⟨o.bBase.toNat, o.len.toNat⟩,
      ⟨o.aBase.toNat, o.len.toNat⟩, ⟨o.bBase.toNat, o.len.toNat⟩]) rfl (by simp [hne]))
      (by simp [rangeRefused, or_left_comm])
  | rfft =>
    have hne := hlen (by simp [usesLength])
    exact .trans (outOfRange_iff p (bs := [⟨o.aBase.toNat, o.len.toNat⟩, ⟨o.aBase.toNat, o.len.toNat⟩,
      ⟨o.bBase.toNat, o.len.toNat⟩]) rfl (by simp [hne])) (by simp [rangeRefused])
  | freqt | freqtu | gc2gc | mgc2mgc =>
    exact .trans (outOfRange_iff p (bs := [⟨o.aBase.toNat, o.m1.toNat + 1⟩, ⟨o.bBase.toNat, o.m2.toNat + 1⟩]) rfl
      (by simp)) (by simp [rangeRefused, Nat.add_assoc])
  | gnorm | ignorm =>
    exact .trans (outOfRange_iff p (bs := [⟨o.aBase.toNat, o.m1.toNat + 1⟩, ⟨o.bBase.toNat, o.m1.toNat + 1⟩]) rfl
      (by simp)) (by simp [rangeRefused, Nat.add_assoc])
  | c2sp | mgc2sp =>
    have hne := hlen (by simp [usesLength])
    exact .trans (outOfRange_iff p (bs := [⟨o.aBase.toNat, o.m1.toNat + 1⟩, ⟨o.bBase.toNat, o.len.toNat⟩,
      ⟨o.cBase.toNat, o.len.toNat⟩]) rfl (by simp [hne])) (by simp [rangeRefused, Nat.add_assoc])
  | powsp =>
    exact .trans (outOfRange_iff p (bs := [⟨o.aBase.toNat, o.m1.toNat + 1⟩, ⟨o.bBase.toNat, o.len.toNat / 2 + 1⟩]) rfl
      (by simp)) (by simp [rangeRefused, Nat.add_assoc])

/-! ### OVERLAP (`60_exceptions.md` R238) -/

/-- Buffers of one length share a word exactly where there is a word in both; two empty ones share none. -/
theorem shares_iff {x y : Buffer} (h : x.words = y.words) : x.shares y = true ↔ haveCommonWord x y := by
  simp only [Buffer.shares, Bool.and_eq_true, decide_eq_true_eq, haveCommonWord]
  constructor
  · exact fun _ => ⟨max x.base y.base, by omega⟩
  · rintro ⟨w, hx, hy⟩
    omega

theorem outputsOverlap_pair {f : Footprint} {x y : Buffer} (hout : f.outputs = [x, y]) (h : x.words = y.words) :
    outputsOverlap f = true ↔ haveCommonWord x y := by
  rw [← shares_iff h, outputsOverlap, hout]

theorem outputsOverlap_footprint_iff (o : Operands) (i : Instr) :
    outputsOverlap (footprint i o) = true ↔ overlapRefused o i := by
  cases i with
  | fft | rfft | c2sp | mgc2sp => exact outputsOverlap_pair rfl rfl
  | nop | freqt | freqtu | gc2gc | gnorm | ignorm | mgc2mgc | powsp => exact iff_of_false Bool.false_ne_true id

/-! ### The tables of the rules decide what `CHECK` reports -/

/-- Each test is its table's condition wherever `CHECK` comes to it. Only ADDR_RANGE needs that: R237's table counts a
buffer of LEN = 0 words that starts past DMEM, the test does not, and BAD_LENGTH comes first. -/
theorem footprintFails_iff_refusalCondition (p : Params) (o : Operands) (i : Instr) (c : ErrorCode)
    (hlower : ∀ c', c'.code.toNat < c.code.toNat → ¬ footprintFails p (footprint i o) c') :
    footprintFails p (footprint i o) c ↔ refusalCondition p o i c := by
  cases c with
  | illegalOpcode => exact Iff.rfl
  | badLength => exact badLength_footprint_iff p o i
  | badOrder => exact badOrder_footprint_iff p o i
  | badParam => exact badParam_footprint_iff o i
  | addrRange =>
    refine outOfRange_footprint_iff p o i fun huses hzero => hlower .badLength (by decide) ?_
    exact (badLength_footprint_iff p o i).2 ⟨huses, fun ⟨_, hfour, _⟩ => by omega⟩
  | overlap => exact outputsOverlap_footprint_iff o i

theorem check_reportsFirst (p : Params) (o : Operands) (i : Instr) :
    ReportsFirst (refusalCondition p o i) (check p ⟨encodeWord i, o⟩) := by
  rw [check_encodeWord]
  exact (checkFootprint_reportsFirst p (footprint i o)).congr (footprintFails_iff_refusalCondition p o i)

/-- Settles O10: `CHECK` reports the first failing test of the footprint, and up to there the tests are the tables. -/
theorem checkReportsFirstCondition : Obligations.CheckReportsFirstCondition := by
  intro p o
  refine ⟨fun v => check_of_illegal o p, fun i => ?_⟩
  have hfirst := check_reportsFirst p o i
  exact ⟨hfirst.eq_iff, fun c => hfirst.eq_iff⟩

end Sys2Proof.Machine
end

section
/-!
PROOFS. A reset while BUSY and a CMD write while BUSY (`70_reset_and_hazards.md` R262, R271).
-/

namespace Sys2Proof.Machine

/-! ### Marking the words of buffers unwritten -/

/-- After words are marked unwritten a byte has a value exactly where it had it and none of the words holds it. -/
theorem readByte_forget_eq_some_iff (m : Memory) (b : Buffer) (a : Nat) (v : Byte) :
    (m.forget b.base b.words).readByte a = some v ↔ m.readByte a = some v ∧ ¬ b.covers a := by
  rw [readByte_forget, Buffer.covers]
  split
  · next hcovers => simp [hcovers]
  · next houtside => simp [houtside]

/-- DMEM with every word of the buffers marked unwritten. -/
def Memory.forgetBuffers (m : Memory) (bs : List Buffer) : Memory :=
  bs.foldl (fun m b => m.forget b.base b.words) m

/-- What a reset does to DMEM while a command is in flight (`70_reset_and_hazards.md` R262). -/
theorem memAfterReset_busy {l : Latch} {i : Instr} (hd : decodeWord l.cmd = .ok i) (m : Memory) :
    memAfterReset (.busy l) m = m.forgetBuffers (footprint i l.ops).outputs := by
  simp only [memAfterReset, hd, Memory.forgetBuffers]

theorem readByte_forgetBuffers_eq_some_iff (m : Memory) (bs : List Buffer) (a : Nat) (v : Byte) :
    (m.forgetBuffers bs).readByte a = some v ↔ m.readByte a = some v ∧ ∀ b ∈ bs, ¬ b.covers a := by
  induction bs generalizing m with
  | nil => simp [Memory.forgetBuffers]
  | cons b bs ih =>
    rw [List.forall_mem_cons, ← and_assoc, ← readByte_forget_eq_some_iff]
    exact ih (m.forget b.base b.words)

theorem sameOutside_forgetBuffers (m : Memory) (bs : List Buffer) : SameOutside bs m (m.forgetBuffers bs) := by
  intro a houtside
  ext v
  exact (readByte_forgetBuffers_eq_some_iff m bs a v).trans (and_iff_left houtside)

/-- A word is unwritten where one of its bytes has no value. -/
theorem readWord_eq_none_of_readByte {m : Memory} {w k : Nat} (hk : k < 8) (h : m.readByte (byteOffset w k) = none) :
    m.readWord w = none := by
  rw [← Option.not_isSome_iff_eq_none, readWord_isSome_iff]
  intro hbytes
  simpa [h] using hbytes k hk

theorem readWord_forgetBuffers (m : Memory) {bs : List Buffer} {b : Buffer} (hb : b ∈ bs) {w : Nat}
    (hlow : b.base ≤ w) (hhigh : w < b.base + b.words) : (m.forgetBuffers bs).readWord w = none := by
  have hcovers : b.covers (byteOffset w 0) := by
    simp only [Buffer.covers, byteOffset]
    omega
  refine readWord_eq_none_of_readByte (by decide : 0 < 8) (Option.eq_none_iff_forall_ne_some.2 fun v hv => ?_)
  obtain ⟨-, houtside⟩ := (readByte_forgetBuffers_eq_some_iff m bs _ v).1 hv
  exact houtside b hb hcovers

/-- After a reset STATUS reads 0: no bit records an abandoned command (`70_reset_and_hazards.md` R262). -/
theorem statusWord_reset : statusWord .idle Status.reset = 0 := by decide

/-- Settles O52: the reset marks exactly the words of the output buffers unwritten, and STATUS and the engine are as
after power-on. -/
theorem resetAbandonsCommand : Obligations.ResetAbandonsCommand := by
  intro s l i rest hbusy hd hin
  have hmem : (resetCore { s with inputs := rest }).mem = s.mem.forgetBuffers (footprint i l.ops).outputs := by
    rw [resetCore_mem]
    exact hbusy.symm ▸ memAfterReset_busy hd s.mem
  refine ⟨_, step_reset hin, resetCore_engine _, statusWord_reset, ?same, ?unwritten⟩
  case same => exact hmem.symm ▸ sameOutside_forgetBuffers s.mem _
  case unwritten =>
    intro b hb w hlow hhigh
    rw [hmem]
    exact readWord_forgetBuffers s.mem hb hlow hhigh

/-! ### A CMD write while BUSY -/

/-- While BUSY a CMD write is dropped and sets OVR (`70_reset_and_hazards.md` R271). -/
theorem commandWrite_busy {s : State} {l : Latch} (h : s.engine = .busy l) (v : Word) :
    commandWrite v s = .next { s with status := s.status.overrun } := by
  simp only [commandWrite, h]

/-- The step that takes a CMD write: the response is OK (`20_memory.md` R70). -/
theorem step_commandWrite {s : State} {v : Word} {rest : List Event} (h : s.inputs = s.writesAt 0x020 v :: rest) :
    step s = commandWrite v { s with inputs := rest, port := some (.write false) } :=
  (step_bus h).trans (busAccess_csr { s with inputs := rest } (.write v) (off := 0x020) (by decide) (by decide))

/-- Settles O8: offset 0x020 is CMD, and while BUSY its write is `Status.overrun`. -/
theorem commandWriteWhileBusyDropped : Obligations.CommandWriteWhileBusyDropped := by
  intro s l v rest hbusy hin
  rw [step_commandWrite hin]
  exact commandWrite_busy (s := { s with inputs := rest, port := some (.write false) }) hbusy v

end Sys2Proof.Machine
end

section
/-!
PROOFS. Decoding and encoding of command words (`30_encoding.md` R100 to R102, R107).
-/

namespace Sys2Proof.Machine

/-! ### A word as a list of bytes -/

/-- Byte `k` of the number whose little-endian bytes these are (`20_memory.md` R72). -/
theorem bytesValue_div_mod (bytes : List Byte) (k : Nat) (hk : k < bytes.length) :
    bytesValue bytes / 2 ^ (8 * k) % 2 ^ 8 = bytes[k].toNat := by
  induction bytes generalizing k with
  | nil => exact absurd hk (Nat.not_lt_zero k)
  | cons b bs ih =>
    have hb : b.toNat < 256 := b.isLt
    cases k with
    | zero => rw [bytesValue, List.getElem_cons_zero]; omega
    | succ k =>
      have hshift : bytesValue (b :: bs) / 2 ^ (8 * (k + 1)) = bytesValue bs / 2 ^ (8 * k) := by
        rw [bytesValue, Nat.mul_succ, Nat.add_comm (8 * k) 8, pow_add, ← Nat.div_div_eq_div_mul]
        congr 1
        omega
      rw [hshift, List.getElem_cons_succ]
      exact ih k (Nat.lt_of_succ_lt_succ hk)

@[simp] theorem wordBytes_length (v : Word) : (wordBytes v).length = 8 := by simp [wordBytes]

/-- Eight bytes put together to a word are its bytes again (`20_memory.md` R72). -/
theorem wordBytes_bytesValue {bytes : List Byte} (h : bytes.length = 8) :
    wordBytes (BitVec.ofNat 64 (bytesValue bytes)) = bytes := by
  refine List.ext_getElem ((wordBytes_length _).trans h.symm) fun k hk hk' => BitVec.eq_of_toNat_eq ?_
  rw [← bytesValue_div_mod bytes k hk']
  have hdvd : 2 ^ 64 = 2 ^ (8 * k) * 2 ^ (8 + (56 - 8 * k)) := by rw [← pow_add]; congr 1; omega
  simp only [wordBytes, List.getElem_map, List.getElem_range, BitVec.extractLsb'_toNat, BitVec.toNat_ofNat,
    Nat.shiftRight_eq_div_pow]
  rw [hdvd, Nat.mod_mul_right_div_self, Nat.mod_mod_of_dvd _ (pow_dvd_pow 2 (Nat.le_add_right _ _))]

/-! ### What the decoder reads -/

/-- The decoder reads a command from exactly its own word (`30_encoding.md` R101, R102). -/
theorem decodeWord_eq_ok_iff (v : Word) (i : Instr) : decodeWord v = .ok i ↔ v = encodeWord i :=
  ⟨fun h => (encodeWord_of_decodeWord h).symm, fun h => h ▸ decodeWord_encodeWord i⟩

/-- Settles O3: the bytes of a word and the word determine each other, and a word decodes to a command exactly where it
is the command's. -/
theorem decodeEncodeAgree : Obligations.DecodeEncodeAgree := by
  intro bytes i
  constructor
  · intro h
    unfold decode at h
    split at h
    · next hlen => rw [← wordBytes_bytesValue hlen, (decodeWord_eq_ok_iff _ i).1 h, encode]
    · cases h
  · rintro rfl
    rw [encode, decode_wordBytes, decodeWord_encodeWord]

/-- Every opcode of the map has a command, whose word is the opcode with RSV = 0 (`30_encoding.md` R102). -/
theorem exists_encodeWord_of_le {n : Nat} (h : n ≤ 0x0B) : ∃ i, encodeWord i = BitVec.ofNat 64 n := by
  have hall : ∀ n < 0x0C, ∃ i ∈ Instr.all, encodeWord i = BitVec.ofNat 64 n := by decide
  obtain ⟨i, -, hi⟩ := hall n (Nat.lt_succ_of_le h)
  exact ⟨i, hi⟩

/-- Settles O2: a legal word is one of the twelve words, and each of these is legal. -/
theorem wordIsLegalOrIllegal : Obligations.WordIsLegalOrIllegal := by
  intro v
  constructor
  · rintro ⟨hrsv, hopc⟩
    obtain ⟨i, hi⟩ := exists_encodeWord_of_le (n := v.toNat) (by omega)
    have hv : v = encodeWord i := by rw [hi, BitVec.ofNat_toNat, BitVec.setWidth_eq]
    exact ⟨i, (decodeWord_eq_ok_iff v i).2 hv, hv⟩
  · intro hillegal
    cases hd : decodeWord v with
    | error e => exact ⟨e, rfl⟩
    | ok i =>
      have hlt := encodeWord_toNat_lt i
      rw [encodeWord_of_decodeWord hd] at hlt
      omega

/-- Settles O1: each word is its command's, so the decoder reads it back. -/
theorem commandWordsDecode : Obligations.CommandWordsDecode := by
  unfold Obligations.CommandWordsDecode
  exact ⟨decodeWord_encodeWord .nop, decodeWord_encodeWord .fft, decodeWord_encodeWord .rfft,
    decodeWord_encodeWord .freqt, decodeWord_encodeWord .freqtu, decodeWord_encodeWord .gc2gc,
    decodeWord_encodeWord .gnorm, decodeWord_encodeWord .ignorm, decodeWord_encodeWord .mgc2mgc,
    decodeWord_encodeWord .c2sp, decodeWord_encodeWord .mgc2sp, decodeWord_encodeWord .powsp⟩

end Sys2Proof.Machine
end

section
/-!
PROOFS. The steps of a command and of the host port: issue, completion of NOP, reads and writes of the registers, DMEM
while IDLE, reset (`42_control.md`, `10_state.md`, `20_memory.md`, `70_reset_and_hazards.md`).
-/

namespace Sys2Proof.Machine

/-! ### A step runs the decoded command -/

/-- In an IDLE engine a CMD write of a command's word is that command (`42_control.md` R211). -/
theorem commandWrite_idle {s : State} {v : Word} {i : Instr} (h : s.engine = .idle) (hd : decodeWord v = .ok i) :
    commandWrite v s = exec i s := by
  simp only [commandWrite, h, decode_wordBytes, hd]

/-- The engine's turn while BUSY is its command (`42_control.md` R214). -/
theorem engineTurn_busy {s : State} {l : Latch} {i : Instr} (h : s.engine = .busy l) (hd : decodeWord l.cmd = .ok i) :
    engineTurn s = exec i s := by
  simp only [engineTurn, h, hd]

/-- When no event is left the engine has the step (`70_reset_and_hazards.md` R275). -/
theorem step_nil {s : State} (h : s.inputs = []) : step s = engineTurn s := by
  simp only [step, advance, h]

theorem step_engine {s : State} {rest : List Event} (h : s.inputs = .engine :: rest) :
    step s = engineTurn { s with inputs := rest } := by
  simp only [step, advance, h]

/-- Settles O4: the CMD write while IDLE, and the engine's turn while BUSY at either place it can fall. -/
theorem stepRunsDecodedCommand : Obligations.StepRunsDecodedCommand := by
  refine ⟨?write, ?nothingLeft, ?turn⟩
  case write =>
    intro s v i rest hidle hd hin
    rw [step_commandWrite hin]
    exact commandWrite_idle (s := { s with inputs := rest, port := some (.write false) }) hidle hd
  case nothingLeft =>
    intro s l i hbusy hd hin
    rw [step_nil hin, engineTurn_busy hbusy hd]
  case turn =>
    intro s l i rest hbusy hd hin
    rw [step_engine hin]
    exact engineTurn_busy (s := { s with inputs := rest }) hbusy hd

/-! ### Issue -/

/-- The opcode of a command is the field OPC of its word (`30_encoding.md` R102). -/
@[simp] theorem opcField_encodeWord (i : Instr) : opcField (encodeWord i) = opcodeOf i := by cases i <;> decide

/-- Settles O5: the issue accepts where no check fails. -/
theorem issueAccepts : Obligations.IssueAccepts := by
  intro s i hidle hc
  rw [exec_idle i hidle, hc, ← opcField_encodeWord]
  rfl

/-- Settles O6: the issue rejects with the code of the check that fails. -/
theorem issueRejects : Obligations.IssueRejects := by
  intro s i c hidle hc
  rw [exec_idle i hidle, hc, ← opcField_encodeWord]
  rfl

/-- While IDLE a CMD write is issued with the result of the checks of its word (`42_control.md` R211). -/
theorem commandWrite_idle_eq_issue {s : State} (h : s.engine = .idle) (v : Word) :
    commandWrite v s = .next (issue v (check s.params ⟨v, s.operands⟩) s) := by
  rcases commandWrite_cases v s with ⟨l, hbusy, -⟩ | ⟨-, hissue⟩
  · rw [h] at hbusy
    cases hbusy
  · exact hissue

/-- OPC is the word's low byte (`30_encoding.md` R100). -/
theorem opcField_eq_ofNat (v : Word) : opcField v = BitVec.ofNat 8 v.toNat := by
  apply BitVec.eq_of_toNat_eq
  simp [opcField, BitVec.extractLsb'_toNat]

/-- Settles O7: the check of an illegal word is ILLEGAL_OPCODE, and the issue rejects with it. -/
theorem illegalWordRefused : Obligations.IllegalWordRefused := by
  intro s v rest hidle hin hillegal
  rw [step_commandWrite hin,
    commandWrite_idle_eq_issue (s := { s with inputs := rest, port := some (.write false) }) hidle v,
    check_of_illegal _ _ hillegal, ← opcField_eq_ofNat]
  rfl

/-- Settles O11: NOP's body leaves DMEM as it is, and no length is used. -/
theorem nopCompletes : Obligations.NopCompletes := by
  intro s l hbusy
  rw [exec_eq, runCommand_busy hbusy, complete_of_ok (f := footprint .nop) (body := bodyOf .nop) rfl]
  rfl

/-! ### Reads of the registers -/

/-- The step that takes a host read of a register (`10_state.md` R33 to R43; `20_memory.md` R80). -/
theorem step_csrRead {s : State} {off : Nat} {rest : List Event} (hlt : off < 0x1000) (hal : off % 8 = 0)
    (h : s.inputs = s.readsAt off :: rest) :
    step s = .next { s with inputs := rest, port := some (.read false (csrRead s (csrAt off))) } :=
  (step_bus h).trans (busAccess_csr { s with inputs := rest } .read hlt hal)

/-- From offset 0x078 on the CSR window is reserved (`10_state.md` R32). -/
theorem csrAt_reserved {off : Nat} (h : 0x078 ≤ off) : csrAt off = .reserved := by
  unfold csrAt
  split
  case h_16 => rfl
  all_goals omega

/-- CTRL reads as bit 0 = IE and zeros above (`10_state.md` R35). -/
theorem csrRead_ctrl (s : State) : csrRead s .ctrl = if s.ie then 1 else 0 := by
  rw [csrRead]
  cases s.ie <;> rfl

/-- Settles O42: each offset is a register's, which reads as its value. -/
theorem registerReads : Obligations.RegisterReads := by
  intro s off rest hin
  have answers : ∀ {v : Word}, off < 0x1000 → off % 8 = 0 → csrRead s (csrAt off) = v →
      step s = .next { s with inputs := rest, port := some (.read false v) } :=
    fun hlt hal hv => hv ▸ step_csrRead hlt hal hin
  refine ⟨?_, fun h => answers (by omega) (by omega) (by rw [h]; exact csrRead_ctrl s), ?_, ?_, ?_, ?_, ?_, ?_, ?_, ?_,
    ?_, ?_, ?_, ?_, fun hlow hhigh hal => answers (by omega) hal (by rw [csrAt_reserved hlow]; rfl)⟩
  all_goals exact fun h => answers (by omega) (by omega) (by rw [h]; rfl)

/-- A power of two that one byte can name the logarithm of. -/
theorem two_pow_ofNat_log2 {n k : Nat} (hpow : isPowerOfTwo n = true) (hle : n ≤ 2 ^ k) (hk : k < 2 ^ 8) :
    2 ^ (BitVec.ofNat 8 n.log2).toNat = n := by
  obtain ⟨j, rfl⟩ := (isPowerOfTwo_iff n).1 hpow
  have hj : j ≤ k := (Nat.pow_le_pow_iff_right (by decide)).1 hle
  rw [Nat.log2_two_pow, BitVec.toNat_ofNat, Nat.mod_eq_of_lt (by omega)]

/-- The limits of `00_scope.md` R5. -/
theorem Params.wf_iff (p : Params) : p.wf = true ↔
    (isPowerOfTwo p.dmemWords = true ∧ 2 ^ 8 ≤ p.dmemWords ∧ p.dmemWords ≤ 2 ^ 17) ∧
    (isPowerOfTwo p.lmax = true ∧ 4 ≤ p.lmax ∧ p.lmax ≤ 2 ^ 16 ∧ 2 * p.lmax ≤ p.dmemWords) ∧
    (p.lmax / 2 ≤ p.mmax ∧ p.mmax ≤ 65535 ∧ p.mmax + 1 ≤ p.dmemWords) := by
  simp only [Params.wf, Params.dmemOk, Params.lmaxOk, Params.mmaxOk, Bool.and_eq_true, decide_eq_true_eq]

/-- A field of a word put together from fields is that field (`10_state.md` R34, R36). -/
theorem extractLsb'_append_low {m n : Nat} (x : BitVec m) (y : BitVec n) : (x ++ y).extractLsb' 0 n = y := by
  ext i hi
  simp [hi, BitVec.getLsbD_append]

theorem extractLsb'_append_high {m n k len : Nat} (x : BitVec m) (y : BitVec n) :
    (x ++ y).extractLsb' (n + k) len = x.extractLsb' k len := by
  ext i hi
  simp [BitVec.getLsbD_append, Nat.add_assoc, show ¬ n + (k + i) < n by omega]

section
variable (p : Params)

theorem capsWord_dmem : (capsWord p).extractLsb' 0 8 = BitVec.ofNat 8 p.dmemWords.log2 :=
  extractLsb'_append_low _ _

theorem capsWord_lmax : (capsWord p).extractLsb' 8 8 = BitVec.ofNat 8 p.lmax.log2 :=
  (extractLsb'_append_high (k := 0) _ _).trans (extractLsb'_append_low _ _)

theorem capsWord_mmax : (capsWord p).extractLsb' 16 16 = BitVec.ofNat 16 p.mmax :=
  (extractLsb'_append_high (k := 8) _ _).trans
    ((extractLsb'_append_high (k := 0) _ _).trans (extractLsb'_append_low _ _))

theorem capsWord_zeros : (capsWord p).extractLsb' 32 32 = 0 :=
  (extractLsb'_append_high (k := 24) _ _).trans ((extractLsb'_append_high (k := 16) _ _).trans
    ((extractLsb'_append_high (k := 0) _ _).trans (by decide)))

end

/-- Settles O43: in an admitted configuration each size fits the field CAPS has for it. -/
theorem capsReportsConfiguration : Obligations.CapsReportsConfiguration := by
  intro s rest hwf hin
  obtain ⟨⟨hdpow, -, hdle⟩, ⟨hlpow, -, hlle, -⟩, -, hmle, -⟩ := (Params.wf_iff s.params).1 hwf
  refine ⟨capsWord s.params, step_csrRead (off := 0x008) (by decide) (by decide) hin, ?_, ?_, ?_, capsWord_zeros _⟩
  · rw [capsWord_dmem]; exact two_pow_ofNat_log2 hdpow hdle (by decide)
  · rw [capsWord_lmax]; exact two_pow_ofNat_log2 hlpow hlle (by decide)
  · rw [capsWord_mmax, BitVec.toNat_ofNat, Nat.mod_eq_of_lt (by omega)]

/-- BUSY is 1 exactly while the engine is BUSY (`10_state.md` R47). -/
theorem isBusy_iff (e : Engine) : e.isBusy = true ↔ ∃ l, e = .busy l := by
  cases e <;> simp [Engine.isBusy]

/-- A flag put below a word is bit 0 of the whole. -/
theorem getLsbD_append_ofBool_zero {m : Nat} (x : BitVec m) (b : Bool) : (x ++ BitVec.ofBool b).getLsbD 0 = b := by
  rw [BitVec.getLsbD_append]
  simp

/-- Above the flag the word's bits follow. -/
theorem getLsbD_append_ofBool_succ {m : Nat} (x : BitVec m) (b : Bool) (k : Nat) :
    (x ++ BitVec.ofBool b).getLsbD (k + 1) = x.getLsbD k := by
  simp [BitVec.getLsbD_append]

/-- Bits [63:5] of the STATUS word: zeros above the flags, ERRCODE, LASTOP and zeros above (`10_state.md` R36). -/
def statusHigh (st : Status) : BitVec 59 := 0#40 ++ st.lastop ++ st.errcode ++ 0#3

/-- The STATUS word is its upper fields over the five flags (`10_state.md` R36). -/
theorem statusWord_eq (e : Engine) (st : Status) : statusWord e st =
    statusHigh st ++ BitVec.ofBool st.hosterr ++ BitVec.ofBool st.ovr ++ BitVec.ofBool st.err ++ BitVec.ofBool st.done
      ++ BitVec.ofBool e.isBusy := rfl

/-- A field above the flags of the STATUS word. -/
theorem statusWord_extractLsb'_high (e : Engine) (st : Status) (k len : Nat) :
    (statusWord e st).extractLsb' (5 + k) len = (statusHigh st).extractLsb' k len := by
  ext i hi
  have hbit : (statusWord e st).getLsbD (k + i + 1 + 1 + 1 + 1 + 1) = (statusHigh st).getLsbD (k + i) := by
    rw [statusWord_eq]
    iterate 5 rw [getLsbD_append_ofBool_succ]
  rw [BitVec.getElem_extractLsb', BitVec.getElem_extractLsb', ← hbit]
  congr 1
  omega

/-- Settles O44: the flags from bit 0 up, then the fields above them. -/
theorem statusWordFields : Obligations.StatusWordFields := by
  intro e st
  refine ⟨?busy, ?done, ?err, ?ovr, ?hosterr, ?low, ?errcode, ?lastop, ?high⟩
  case busy => rw [← isBusy_iff, statusWord_eq, getLsbD_append_ofBool_zero]
  case done => rw [statusWord_eq, getLsbD_append_ofBool_succ _ _ 0, getLsbD_append_ofBool_zero]
  case err =>
    rw [statusWord_eq, getLsbD_append_ofBool_succ _ _ 1, getLsbD_append_ofBool_succ _ _ 0, getLsbD_append_ofBool_zero]
  case ovr =>
    rw [statusWord_eq, getLsbD_append_ofBool_succ _ _ 2, getLsbD_append_ofBool_succ _ _ 1,
      getLsbD_append_ofBool_succ _ _ 0, getLsbD_append_ofBool_zero]
  case hosterr =>
    rw [statusWord_eq, getLsbD_append_ofBool_succ _ _ 3, getLsbD_append_ofBool_succ _ _ 2,
      getLsbD_append_ofBool_succ _ _ 1, getLsbD_append_ofBool_succ _ _ 0, getLsbD_append_ofBool_zero]
  case low => exact (statusWord_extractLsb'_high e st 0 3).trans (extractLsb'_append_low _ _)
  case errcode =>
    exact (statusWord_extractLsb'_high e st 3 8).trans
      ((extractLsb'_append_high (k := 0) _ _).trans (extractLsb'_append_low _ _))
  case lastop =>
    exact (statusWord_extractLsb'_high e st 11 8).trans ((extractLsb'_append_high (k := 8) _ _).trans
      ((extractLsb'_append_high (k := 0) _ _).trans (extractLsb'_append_low _ _)))
  case high =>
    exact (statusWord_extractLsb'_high e st 19 40).trans ((extractLsb'_append_high (k := 16) _ _).trans
      ((extractLsb'_append_high (k := 8) _ _).trans ((extractLsb'_append_high (k := 0) _ _).trans (by decide))))

/-! ### Writes of the registers -/

/-- Settles O46: CTRL keeps bit 0, and the other offsets hold nothing that a write changes. -/
theorem controlAndIgnoredWrites : Obligations.ControlAndIgnoredWrites := by
  intro s off v rest hin
  constructor
  · rintro rfl
    exact step_csrWrite (by decide) (by decide) (by decide) hin
  · rintro (rfl | rfl | ⟨hlow, hhigh, hal⟩)
    · exact step_csrWrite (by decide) (by decide) (by decide) hin
    · exact step_csrWrite (by decide) (by decide) (by decide) hin
    · have hr := csrAt_reserved hlow
      rw [step_csrWrite (by omega) hal (by rw [hr]; decide) hin, hr]
      rfl

/-- Settles O47: each operand register is at its offset, and `Operands.written` stores the value in it. -/
theorem operandWrites : Obligations.OperandWrites := by
  intro s off v rest hin
  refine ⟨?_, ?_, ?_, ?_, ?_, ?_, ?_, ?_, ?_, ?_⟩
  all_goals
    rintro rfl
    exact step_csrWrite (by decide) (by decide) (by decide) hin

/-! ### DMEM while IDLE -/

/-- DMEM word `w` stands at offset `8 * w` of its window (`20_memory.md` R73). -/
theorem regionOf_dmem (p : Params) {w : Nat} (h : w < p.dmemWords) : regionOf p (0x100000 + 8 * w) = .dmem w := by
  rw [regionOf, if_neg (by omega), dmemWindow, if_neg (by omega), if_pos (by omega)]
  congr 1
  omega

/-- In an admitted configuration an access to a DMEM word's offset is an access to the word (`20_memory.md` R75). -/
theorem busAccess_dmem {s : State} (hwf : s.params.wf = true) (op : PortOp) {w : Nat} (hw : w < s.params.dmemWords) :
    busAccess (s.params.coreBase + (0x100000 + 8 * w)) 8 op s = dmemAccess w op s := by
  obtain ⟨⟨-, -, hdmem⟩, -⟩ := (Params.wf_iff s.params).1 hwf
  have hlt : 0x100000 + 8 * w < 2 ^ 21 := by omega
  have hoff : (BitVec.ofNat 21 (0x100000 + 8 * w)).toNat = 0x100000 + 8 * w := by
    rw [BitVec.toNat_ofNat, Nat.mod_eq_of_lt hlt]
  rw [busAccess_base_add s 8 op hlt, portAccess, hoff, if_neg (by omega), regionOf_dmem s.params hw]

theorem dmemAccess_read {s : State} {w : Nat} {v : Word} (hidle : s.engine = .idle) (h : s.mem.readWord w = some v) :
    dmemAccess w .read s = .next { s with port := some (.read false v) } := by
  simp only [dmemAccess, hidle, h]
  rfl

theorem dmemAccess_read_unwritten {s : State} {w : Nat} (hidle : s.engine = .idle) (h : s.mem.readWord w = none) :
    dmemAccess w .read s = .fault (.unwrittenRead w) := by
  simp only [dmemAccess, hidle, h]

theorem dmemAccess_write {s : State} (hidle : s.engine = .idle) (w : Nat) (v : Word) :
    dmemAccess w (.write v) s = .next { s with mem := s.mem.writeWord w v, port := some (.write false) } := by
  simp only [dmemAccess, hidle]
  rfl

/-- The step that takes an access to a DMEM word. -/
theorem step_dmem {s : State} {w : Nat} {op : PortOp} {rest : List Event} (hwf : s.params.wf = true)
    (hw : w < s.params.dmemWords) (h : s.inputs = .bus (s.params.coreBase + (0x100000 + 8 * w)) 8 op :: rest) :
    step s = dmemAccess w op { s with inputs := rest } :=
  (step_bus h).trans (busAccess_dmem (s := { s with inputs := rest }) hwf op hw)

/-- A write of a word leaves every byte outside it (`20_memory.md` R75). -/
theorem sameOutside_writeWord (m : Memory) (w : Nat) (v : Word) : SameOutside [⟨w, 1⟩] m (m.writeWord w v) := by
  intro a houtside
  exact (readByte_writeWord m w v a).trans (if_neg (houtside _ List.mem_cons_self))

/-- Byte `k` of a written word (`20_memory.md` R72). -/
theorem readByte_writeWord_inside (m : Memory) (w : Nat) (v : Word) {k : Nat} (hk : k < 8) :
    (m.writeWord w v).readByte (byteOffset w k) = some (v.extractLsb' (8 * k) 8) := by
  rw [readByte_writeWord, if_pos (by simp only [byteOffset]; omega)]
  congr 3
  simp only [byteOffset]
  omega

/-- Settles O48: the write is `Memory.writeWord`. -/
theorem dmemWriteStoresWord : Obligations.DmemWriteStoresWord := by
  intro s w v rest hwf hidle hw hin
  exact ⟨s.mem.writeWord w v,
    (step_dmem hwf hw hin).trans (dmemAccess_write (s := { s with inputs := rest }) hidle w v),
    readWord_writeWord_same _ w v, sameOutside_writeWord _ w v, fun k hk => readByte_writeWord_inside _ w v hk⟩

/-- Settles O49, by whether the word has a value. -/
theorem dmemReadAnswersWord : Obligations.DmemReadAnswersWord := by
  intro s w rest hwf hidle hw hin
  exact ⟨fun v hv => (step_dmem hwf hw hin).trans (dmemAccess_read (s := { s with inputs := rest }) hidle hv),
    fun hnone => (step_dmem hwf hw hin).trans (dmemAccess_read_unwritten (s := { s with inputs := rest }) hidle hnone)⟩

/-! ### Reset and power-on -/

/-- Settles O51: the fields `resetCore` clears and those it keeps. -/
theorem resetClearsRegisters : Obligations.ResetClearsRegisters := by
  intro s rest hin
  refine ⟨_, step_reset hin, resetCore_ie _, resetCore_status _, resetCore_operands _, resetCore_engine _,
    resetCore_maxFftSize _, resetCore_params _, resetCore_inputs _, resetCore_port _, fun hidle => ?_⟩
  simp only [resetCore_mem, hidle, memAfterReset]

/-- Settles O53: power-on writes every register 0 and no DMEM word. -/
theorem powerOnState : Obligations.PowerOnState := by
  intro p
  exact ⟨rfl, rfl, rfl, rfl, rfl, irq_of_not_ie rfl, fun _ => rfl, rfl⟩

/-- The invariant holds after power-on: nothing is written and no report stands. -/
theorem powerOn_inv {p : Params} (h : p.wf = true) : (State.powerOn p).Inv where
  params := h
  mem := wf_nil p
  errcodeClear _ := rfl
  errcodeKnown herr := Bool.noConfusion herr
  busy _ hbusy := Engine.noConfusion hbusy
  maxFftSize := .inl rfl

/-- Settles O54: `State.reset` is power-on in an admitted configuration. -/
theorem resetMeetsInvariant : Obligations.ResetMeetsInvariant :=
  ⟨fun _ => powerOn_inv, powerOn_inv (by decide)⟩

end Sys2Proof.Machine
end

section
/-!
PROOFS. The completion step of each command (`42_control.md` R214): what it writes, what it leaves, and where it stops.
-/

namespace Sys2Proof.Machine

/-! ### What the checks give a completion -/

section
variable {p : Params} {f : Footprint}

/-- A buffer of a command that passed the checks lies in DMEM (`60_exceptions.md` R237). -/
theorem fits_of_check (h : checkFootprint p f = none) {b : Buffer} (hb : b ∈ f.inputs ++ f.outputs)
    (hpos : 1 ≤ b.words) : b.base + b.words ≤ p.dmemWords := by
  obtain ⟨-, -, -, hrange, -⟩ := (checkFootprint_eq_none_iff p f).1 h
  have hin : b.beyond p = false := by simpa using (List.any_eq_false.1 hrange) b hb
  exact ((beyond_eq_false_iff p b.base b.words).1 hin).resolve_left (by omega)

/-- A length that passed the checks is a power of two from 4 to LMAX (`60_exceptions.md` R234). -/
theorem lengthAdmitted_of_check (h : checkFootprint p f = none) {n : Nat} (hn : f.length = some n) :
    lengthAdmitted p n := by
  obtain ⟨hlength, -⟩ := (checkFootprint_eq_none_iff p f).1 h
  rw [hn, Option.any_some, Bool.eq_false_iff, ne_eq, badLength_iff, not_not] at hlength
  exact hlength

theorem one_le_of_check (h : checkFootprint p f = none) {n : Nat} (hn : f.length = some n) : 1 ≤ n := by
  obtain ⟨-, hfour, -⟩ := lengthAdmitted_of_check h hn
  omega

/-- Two output buffers of a command that passed the checks are apart (`60_exceptions.md` R238). -/
theorem apart_of_check (h : checkFootprint p f = none) {b c n : Nat} (hout : f.outputs = [⟨b, n⟩, ⟨c, n⟩]) :
    b + n ≤ c ∨ c + n ≤ b := by
  obtain ⟨-, -, -, -, hoverlap⟩ := (checkFootprint_eq_none_iff p f).1 h
  simp only [outputsOverlap, hout, Buffer.shares, Bool.and_eq_false_iff, decide_eq_false_iff_not] at hoverlap
  omega

end

/-! ### A body that answers a memory completes its command -/

/-- The completion of a command whose body answers the memory `m`. -/
theorem exec_completes {i : Instr} {s : State} {l : Latch} {m : Memory} (hbusy : s.engine = .busy l)
    (h : bodyOf i (numerics.at s.draws) s.params l.ops s.mem = .ok m) :
    ∃ t, exec i s = .next t ∧ Completed (footprint i l.ops) s t ∧ t.mem = m := by
  refine ⟨_, (exec_eq i s).trans ((runCommand_busy hbusy).trans (complete_of_ok h)), ?_, rfl⟩
  exact
    { engine := rfl, status := rfl, params := rfl, ie := rfl, operands := rfl, port := rfl, inputs := rfl
      maxFftSize := rfl, draws := rfl, memory := (bodyOf_frame h).1 }

section
variable {i : Instr} {s : State} {l : Latch} (hbusy : s.engine = .busy l)
  (hc : checkFootprint s.params (footprint i l.ops) = none)
include hbusy hc

/-- A command whose body is the write of one vector to its output buffer. -/
theorem exec_completes_one {b k : Nat} {V : Vec} (hV : V.length = k)
    (hout : (footprint i l.ops).outputs = [⟨b, k⟩]) (hk : 1 ≤ k)
    (hbody : bodyOf i (numerics.at s.draws) s.params l.ops s.mem = memWrite s.params s.mem b V) :
    ∃ t, exec i s = .next t ∧ Completed (footprint i l.ops) s t ∧ V.length = k ∧ Holds t.mem b V := by
  have hwrite := memWrite_of_fits (V := V) s.mem (hV ▸ fits_of_check hc (b := ⟨b, k⟩) (by simp [hout]) hk)
  obtain ⟨t, hnext, hcompleted, hmem⟩ := exec_completes hbusy (hbody.trans hwrite)
  exact ⟨t, hnext, hcompleted, hV, hmem ▸ (memWrite_ok hwrite).1⟩

/-- A command whose body writes two vectors to its two output buffers. -/
theorem exec_completes_two {b c k : Nat} {X Y : Vec} (hX : X.length = k) (hY : Y.length = k)
    (hout : (footprint i l.ops).outputs = [⟨b, k⟩, ⟨c, k⟩]) (hk : 1 ≤ k)
    (hbody : bodyOf i (numerics.at s.draws) s.params l.ops s.mem =
      (do let m ← memWrite s.params s.mem b X; memWrite s.params m c Y)) :
    ∃ t, exec i s = .next t ∧ Completed (footprint i l.ops) s t ∧ X.length = k ∧ Y.length = k ∧
      Holds t.mem b X ∧ Holds t.mem c Y := by
  have hfits : ∀ d ∈ [b, c], d + k ≤ s.params.dmemWords := by
    simp only [List.forall_mem_cons, List.not_mem_nil, false_implies, implies_true, and_true]
    exact ⟨fits_of_check hc (b := ⟨b, k⟩) (by simp [hout]) hk, fits_of_check hc (b := ⟨c, k⟩) (by simp [hout]) hk⟩
  have hfirst := memWrite_of_fits (V := X) s.mem (hX ▸ hfits b (by simp))
  have hsecond := memWrite_of_fits (V := Y) (s.mem.writeVec b X) (hY ▸ hfits c (by simp))
  have hboth : (do let m ← memWrite s.params s.mem b X; memWrite s.params m c Y) =
      .ok ((s.mem.writeVec b X).writeVec c Y) := by rw [hfirst]; exact hsecond
  obtain ⟨-, -, hHoldsY, hHoldsX⟩ := twoOutputs_ok hX hY hboth
  obtain ⟨t, hnext, hcompleted, hmem⟩ := exec_completes hbusy (hbody.trans hboth)
  exact ⟨t, hnext, hcompleted, hX, hY, hmem ▸ hHoldsX (apart_of_check hc hout), hmem ▸ hHoldsY⟩

end

/-! ### The commands with one source and one result -/

section
variable {s : State} {l : Latch} {i : Instr} {c : Vec}

/-- The source of a command that passed the checks is read where its words hold values. -/
theorem memRead_source (hc : checkFootprint s.params (footprint i l.ops) = none) {a n : Nat} (hlen : c.length = n)
    (hn : 1 ≤ n) (ha : ⟨a, n⟩ ∈ (footprint i l.ops).inputs) (hsource : Holds s.mem a c) :
    memRead s.params s.mem a n = .ok c := by
  subst hlen
  exact memRead_of_holds (fits_of_check hc (List.mem_append_left _ ha) hn) hsource

/-- A command that reads one buffer and writes one. -/
theorem exec_completes_oneOutput {a b n k : Nat} {F : Vec → Vec} (hbusy : s.engine = .busy l)
    (hc : check s.params ⟨encodeWord i, l.ops⟩ = none) (hlen : c.length = n) (hsource : Holds s.mem a c)
    (hn : 1 ≤ n) (hk : 1 ≤ k) (hF : (F c).length = k)
    (hin : (footprint i l.ops).inputs = [⟨a, n⟩]) (hout : (footprint i l.ops).outputs = [⟨b, k⟩])
    (hbody : bodyOf i (numerics.at s.draws) s.params l.ops s.mem =
      (do let c ← memRead s.params s.mem a n; memWrite s.params s.mem b (F c))) :
    ∃ t, exec i s = .next t ∧ Completed (footprint i l.ops) s t ∧ (F c).length = k ∧ Holds t.mem b (F c) := by
  rw [check_encodeWord] at hc
  refine exec_completes_one hbusy hc hF hout hk ?_
  rw [hbody, memRead_source hc hlen hn (by simp [hin]) hsource]
  rfl

/-- A command that reads one buffer and writes two. -/
theorem exec_completes_twoOutputs {a b d n k : Nat} {F : Vec → Pair} (hbusy : s.engine = .busy l)
    (hc : check s.params ⟨encodeWord i, l.ops⟩ = none) (hlen : c.length = n) (hsource : Holds s.mem a c)
    (hn : 1 ≤ n) (hk : (footprint i l.ops).length = some k) (hX : (F c).1.length = k) (hY : (F c).2.length = k)
    (hin : (footprint i l.ops).inputs = [⟨a, n⟩]) (hout : (footprint i l.ops).outputs = [⟨b, k⟩, ⟨d, k⟩])
    (hbody : bodyOf i (numerics.at s.draws) s.params l.ops s.mem = (do
      let c ← memRead s.params s.mem a n
      let m ← memWrite s.params s.mem b (F c).1
      memWrite s.params m d (F c).2)) :
    ∃ t, exec i s = .next t ∧ Completed (footprint i l.ops) s t ∧ (F c).1.length = k ∧ (F c).2.length = k ∧
      Holds t.mem b (F c).1 ∧ Holds t.mem d (F c).2 := by
  rw [check_encodeWord] at hc
  refine exec_completes_two hbusy hc hX hY hout (one_le_of_check hc hk) ?_
  rw [hbody, memRead_source hc hlen hn (by simp [hin]) hsource]
  rfl

end

/-- Settles O14: FREQT reads the source whole and then writes its result. -/
theorem freqtCompletes : Obligations.FreqtCompletes := fun s l _ hbusy hc hlen hsource =>
  exec_completes_oneOutput (i := .freqt)
    (F := fun c => freqtF (numerics.at s.draws) c l.ops.m1.toNat l.ops.m2.toNat l.ops.fa1)
    hbusy hc hlen hsource (Nat.le_add_left _ _) (Nat.le_add_left _ _) (freqtF_length _ _ _ _ _) rfl rfl rfl

/-- Settles O15: FREQTU goes the same way. -/
theorem freqtuCompletes : Obligations.FreqtuCompletes := fun s l _ hbusy hc hlen hsource =>
  exec_completes_oneOutput (i := .freqtu)
    (F := fun c => freqtuF (numerics.at s.draws) c l.ops.m1.toNat l.ops.m2.toNat l.ops.fa1)
    hbusy hc hlen hsource (Nat.le_add_left _ _) (Nat.le_add_left _ _) (freqtuF_length _ _ _ _ _) rfl rfl rfl

/-- Settles O16: GC2GC goes the same way. -/
theorem gc2gcCompletes : Obligations.Gc2gcCompletes := fun s l _ hbusy hc hlen hsource =>
  exec_completes_oneOutput (i := .gc2gc)
    (F := fun c => gc2gcF (numerics.at s.draws) c l.ops.m1.toNat l.ops.fg1 l.ops.m2.toNat l.ops.fg2)
    hbusy hc hlen hsource (Nat.le_add_left _ _) (Nat.le_add_left _ _) (gc2gcF_length _ _ _ _ _ _) rfl rfl rfl

/-- Settles O17: GNORM goes the same way. -/
theorem gnormCompletes : Obligations.GnormCompletes := fun s l _ hbusy hc hlen hsource =>
  exec_completes_oneOutput (i := .gnorm)
    (F := fun c => gnormF (numerics.at s.draws) c l.ops.m1.toNat l.ops.fg1)
    hbusy hc hlen hsource (Nat.le_add_left _ _) (Nat.le_add_left _ _) (gnormF_length _ _ _ _) rfl rfl rfl

/-- Settles O18: IGNORM goes the same way. -/
theorem ignormCompletes : Obligations.IgnormCompletes := fun s l _ hbusy hc hlen hsource =>
  exec_completes_oneOutput (i := .ignorm)
    (F := fun c => ignormF (numerics.at s.draws) c l.ops.m1.toNat l.ops.fg1)
    hbusy hc hlen hsource (Nat.le_add_left _ _) (Nat.le_add_left _ _) (ignormF_length _ _ _ _) rfl rfl rfl

/-- Settles O19: MGC2MGC goes the same way. -/
theorem mgc2mgcCompletes : Obligations.Mgc2mgcCompletes := fun s l _ hbusy hc hlen hsource =>
  exec_completes_oneOutput (i := .mgc2mgc)
    (F := fun c => mgc2mgcF (numerics.at s.draws) c l.ops.m1.toNat l.ops.fa1 l.ops.fg1 l.ops.m2.toNat l.ops.fa2
      l.ops.fg2)
    hbusy hc hlen hsource (Nat.le_add_left _ _) (Nat.le_add_left _ _) (mgc2mgcF_length _ _ _ _ _ _ _ _) rfl rfl rfl

/-! ### The spectral commands -/

/-- Settles O13: RFFT reads X alone. -/
theorem rfftCompletes : Obligations.RfftCompletes := by
  intro s l x hbusy hc hlen hsource
  have hlength := one_le_of_check ((check_encodeWord _ .rfft _).symm.trans hc) rfl
  exact exec_completes_twoOutputs (i := .rfft) (F := fun x => rfftF (numerics.at s.draws) x l.ops.len.toNat)
    hbusy hc hlen hsource hlength rfl (rfftF_length_fst _ _ _) (rfftF_length_snd _ _ _) rfl rfl rfl

/-- Settles O12: both arrays are read before either is written. -/
theorem fftCompletes : Obligations.FftCompletes := by
  intro s l x y hbusy hc hlenx hx hleny hy
  rw [check_encodeWord] at hc
  have hlength : 1 ≤ l.ops.len.toNat := one_le_of_check hc rfl
  refine exec_completes_two (i := .fft) hbusy hc ((fftF_length_fst _ x y _).trans hlenx)
    ((fftF_length_snd _ x y _).trans hleny) rfl hlength ?_
  simp only [bodyOf, fftBody]
  rw [memRead_source hc hlenx hlength (by simp [footprint, fftFootprint]) hx,
    memRead_source hc hleny hlength (by simp [footprint, fftFootprint]) hy]
  rfl

/-- A source of `m + 1` values is filled up with +0.0 to the length (`41_spectral.md` R174). -/
theorem c2spF_of_length (N : Numerics) {c : Vec} {m : Nat} (L : Nat) (h : c.length = m + 1) :
    c2spF N c m L = rfftF N (c ++ zeros (L - (m + 1))) L := by
  rw [c2spF, List.take_of_length_le h.le, Nat.sub_sub]

/-- Settles O20: C2SP reads one buffer and writes two, and its value is that of R174. -/
theorem c2spCompletes : Obligations.C2spCompletes := by
  refine ⟨fun s l c hbusy hc hlen hsource => ?_, fun N c m L hlen _ => c2spF_of_length N L hlen⟩
  exact exec_completes_twoOutputs (i := .c2sp)
    (F := fun c => c2spF (numerics.at s.draws) c l.ops.m1.toNat l.ops.len.toNat) hbusy hc hlen hsource
    (Nat.le_add_left _ _) rfl (c2spF_length_fst _ _ _ _) (c2spF_length_snd _ _ _ _) rfl rfl rfl

/-- Settles O21: the second part is how MGC2SP_F is defined. -/
theorem mgc2spCompletes : Obligations.Mgc2spCompletes := by
  refine ⟨fun s l c hbusy hc hlen hsource => ?_, fun _ _ _ _ _ _ => rfl⟩
  exact exec_completes_twoOutputs (i := .mgc2sp)
    (F := fun c => mgc2spF (numerics.at s.draws) c l.ops.m1.toNat l.ops.fa1 l.ops.fg1 l.ops.len.toNat) hbusy hc hlen
    hsource (Nat.le_add_left _ _) rfl (mgc2spF_length_fst _ _ _ _ _ _) (mgc2spF_length_snd _ _ _ _ _ _) rfl rfl rfl

/-- The power value at index `i` (`41_spectral.md` R176). -/
theorem elem_powspF (N : Numerics) (c : Vec) (m : Nat) (a g : F64) {L i : Nat} (h : i ≤ L / 2) :
    elem (powspF N c m a g L) i =
      ((N.at 1).at i).expAt (((N.at 2).at i).mul F64.lit2 (elem (mgc2spF (N.at 0) c m a g L).1 i)) :=
  elem_map_range _ (Nat.lt_succ_of_le h)

/-- Settles O22; `v` is the argument that POWSP_F itself gives EXP. -/
theorem powspCompletes : Obligations.PowspCompletes := by
  refine ⟨fun s l c hbusy hc hlen hsource => ?_, fun N c m L a g => ⟨powspF_length N c m a g L, fun i hi => ?_⟩⟩
  · exact exec_completes_oneOutput (i := .powsp)
      (F := fun c => powspF (numerics.at s.draws) c l.ops.m1.toNat l.ops.fa1 l.ops.fg1 l.ops.len.toNat) hbusy hc hlen
      hsource (Nat.le_add_left _ _) (Nat.le_add_left _ _) (powspF_length _ _ _ _ _ _) rfl rfl rfl
  · rw [elem_powspF N c m a g hi]
    exact ⟨_, Numerics.mul_agree ((N.at 2).at i) N (F64.agree_refl _) (F64.agree_refl _),
      Numerics.expAt_at_agree (N.at 1) i _⟩

/-! ### Where a completion stops -/

/-- A body answers a memory, or names an unwritten word of one of the buffers. -/
def StopsOnlyAt (bs : List Buffer) (m : Memory) (r : Except Fault Memory) : Prop :=
  (∃ m', r = .ok m') ∨
    ∃ w, r = .error (.unwrittenInput w) ∧ m.readWord w = none ∧ ∃ b ∈ bs, b.base ≤ w ∧ w < b.base + b.words

section
variable {p : Params} {m : Memory} {bs : List Buffer}

/-- A read of a buffer in DMEM stops only at an unwritten word of it. -/
theorem StopsOnlyAt.bind_memRead {a n : Nat} (hmem : ⟨a, n⟩ ∈ bs) (hfits : n = 0 ∨ a + n ≤ p.dmemWords)
    {k : Vec → Except Fault Memory} (hk : ∀ V : Vec, V.length = n → StopsOnlyAt bs m (k V)) :
    StopsOnlyAt bs m (memRead p m a n >>= k) := by
  rcases memRead_cases p m a n with ⟨V, hV, hlen, -⟩ | ⟨w, hw, hlow, hhigh, hnone⟩ | ⟨w, -, hbeyond⟩
  · rw [hV]; exact hk V hlen
  · rw [hw]; exact .inr ⟨w, rfl, hnone, ⟨a, n⟩, hmem, hlow, hhigh⟩
  · rw [(beyond_eq_false_iff p a n).2 hfits] at hbeyond
    cases hbeyond

/-- A write inside DMEM does not stop. -/
theorem StopsOnlyAt.bind_memWrite {b : Nat} {V : Vec} (hfits : b + V.length ≤ p.dmemWords)
    {m₁ : Memory} {k : Memory → Except Fault Memory} (hk : ∀ m', StopsOnlyAt bs m (k m')) :
    StopsOnlyAt bs m (memWrite p m₁ b V >>= k) := by
  rw [memWrite_of_fits m₁ hfits]
  exact hk _

theorem StopsOnlyAt.memWrite {b : Nat} {V : Vec} (hfits : b + V.length ≤ p.dmemWords) (m₁ : Memory) :
    StopsOnlyAt bs m (memWrite p m₁ b V) :=
  .inl ⟨_, memWrite_of_fits m₁ hfits⟩

end

/-- The body of a command that passed the checks stops only at an unwritten word of its input. -/
theorem bodyOf_stopsOnlyAt {p : Params} {o : Operands} {i : Instr} (hc : checkFootprint p (footprint i o) = none)
    (N : Numerics) (m : Memory) : StopsOnlyAt (footprint i o).inputs m (bodyOf i N p o m) := by
  have fits : ∀ b ∈ (footprint i o).inputs ++ (footprint i o).outputs, 1 ≤ b.words → b.base + b.words ≤ p.dmemWords :=
    fun b hb => fits_of_check hc hb
  cases i with
  | nop => exact .inl ⟨m, rfl⟩
  | freqt | freqtu | gc2gc | gnorm | ignorm | mgc2mgc | powsp =>
    refine .bind_memRead List.mem_cons_self (.inr (fits _ List.mem_cons_self (Nat.le_add_left _ _))) fun V _ =>
      .memWrite ?_ m
    simpa using fits _ (List.mem_cons_of_mem _ List.mem_cons_self) (Nat.le_add_left _ _)
  | c2sp | mgc2sp =>
    have hlen : 1 ≤ o.len.toNat := one_le_of_check hc rfl
    refine .bind_memRead List.mem_cons_self (.inr (fits _ List.mem_cons_self (Nat.le_add_left _ _))) fun V _ =>
      .bind_memWrite ?_ fun m' => .memWrite ?_ m'
    · simpa using fits ⟨o.bBase.toNat, o.len.toNat⟩ (by simp [footprint, c2spFootprint, mgc2spFootprint]) hlen
    · simpa using fits ⟨o.cBase.toNat, o.len.toNat⟩ (by simp [footprint, c2spFootprint, mgc2spFootprint]) hlen
  | rfft =>
    have hlen : 1 ≤ o.len.toNat := one_le_of_check hc rfl
    refine .bind_memRead List.mem_cons_self (.inr (fits _ List.mem_cons_self hlen)) fun V _ =>
      .bind_memWrite ?_ fun m' => .memWrite ?_ m'
    · simpa using fits ⟨o.aBase.toNat, o.len.toNat⟩ (by simp [footprint, rfftFootprint]) hlen
    · simpa using fits ⟨o.bBase.toNat, o.len.toNat⟩ (by simp [footprint, rfftFootprint]) hlen
  | fft =>
    have hlen : 1 ≤ o.len.toNat := one_le_of_check hc rfl
    have hA := fits ⟨o.aBase.toNat, o.len.toNat⟩ (by simp [footprint, fftFootprint]) hlen
    have hB := fits ⟨o.bBase.toNat, o.len.toNat⟩ (by simp [footprint, fftFootprint]) hlen
    refine .bind_memRead List.mem_cons_self (.inr hA) fun x hx =>
      .bind_memRead (List.mem_cons_of_mem _ List.mem_cons_self) (.inr hB) fun y hy =>
      .bind_memWrite ?_ fun m' => .memWrite ?_ m'
    · rwa [fftF_length_fst, hx]
    · rwa [fftF_length_snd, hy]

/-- The engine's completion of a command that passed the checks: a next state, or a stop at an unwritten input word. -/
theorem exec_busy_cases {s : State} {l : Latch} {i : Instr} (hbusy : s.engine = .busy l)
    (hc : checkFootprint s.params (footprint i l.ops) = none) :
    (∃ t, exec i s = .next t ∧ Completed (footprint i l.ops) s t) ∨
    ∃ w, exec i s = .fault (.unwrittenInput w) ∧ s.mem.readWord w = none ∧
      ∃ b ∈ (footprint i l.ops).inputs, b.base ≤ w ∧ w < b.base + b.words := by
  rcases bodyOf_stopsOnlyAt hc (numerics.at s.draws) s.mem with ⟨m, hm⟩ | ⟨w, hw, hword⟩
  · obtain ⟨t, hnext, hcompleted, -⟩ := exec_completes hbusy hm
    exact .inl ⟨t, hnext, hcompleted⟩
  · refine .inr ⟨w, ?_, hword⟩
    rw [exec_eq, runCommand_busy hbusy]
    simp only [complete, hw]

/-- Settles O23: the stops of the command's body are the stops of its completion. -/
theorem completionStopsOnlyAtUnwrittenInput : Obligations.CompletionStopsOnlyAtUnwrittenInput := by
  intro s l i hbusy hc
  rw [check_encodeWord] at hc
  exact (exec_busy_cases hbusy hc).imp_left fun ⟨t, hnext, _⟩ => ⟨t, hnext⟩

end Sys2Proof.Machine
end

section
/-!
PROOFS. The whole machine: the invariant and its step, the stops of a run, what a command in flight is kept from, and
who writes DMEM (`10_state.md` R38; `60_exceptions.md` R239, R240; `70_reset_and_hazards.md` R270 to R276).
-/

namespace Sys2Proof.Machine

/-! ### Where an access on the bus goes -/

/-- STATUS is at offset 0x018 alone (`10_state.md` R32). -/
theorem csrAt_eq_status {off : Nat} (h : csrAt off = .status) : off = 0x018 := by
  unfold csrAt at h
  split at h
  case h_4 => rfl
  all_goals cases h

/-- An aligned offset in the DMEM region is that of the word (`20_memory.md` R73). -/
theorem regionOf_eq_dmem {p : Params} {off w : Nat} (hal : off % 8 = 0) (h : regionOf p off = .dmem w) :
    w < p.dmemWords ∧ off = 0x100000 + 8 * w := by
  have hwindow : dmemWindow = 0x100000 := rfl
  unfold regionOf at h
  split_ifs at h
  cases h
  omega

theorem regionOf_eq_csr {p : Params} {off : Nat} {r : Csr} (h : regionOf p off = .csr r) : r = csrAt off := by
  unfold regionOf at h
  split_ifs at h
  cases h
  rfl

/-- An access on the bus changes nothing or gets ERROR, or it is an access of 64 bits to a register or to a DMEM word at
that one's own offset. -/
theorem busAccess_place (addr bytes : Nat) (op : PortOp) (s : State) :
    busAccess addr bytes op s = .next s ∨ busAccess addr bytes op s = .next (errorResponse op s) ∨
    ∃ off, addr = s.params.coreBase + off ∧ bytes = 8 ∧
      (busAccess addr bytes op s = csrAccess (csrAt off) op s ∨
        ∃ w, w < s.params.dmemWords ∧ off = 0x100000 + 8 * w ∧ busAccess addr bytes op s = dmemAccess w op s) := by
  by_cases hin : s.params.coreBase ≤ addr ∧ addr < s.params.coreBase + 2 ^ 21
  case neg => exact .inl (by simp only [busAccess, portOffset, if_neg hin])
  case pos =>
    obtain ⟨off, rfl⟩ := Nat.exists_eq_add_of_le hin.1
    have hlt : off < 2 ^ 21 := by omega
    have hoff : (BitVec.ofNat 21 off).toNat = off := by rw [BitVec.toNat_ofNat, Nat.mod_eq_of_lt hlt]
    rw [busAccess_base_add s bytes op hlt]
    by_cases hbad : bytes ≠ 8 ∨ off % 8 ≠ 0
    case pos => exact .inr (.inl (portAccess_malformed s op (hoff.symm ▸ hbad)))
    case neg =>
      rw [portAccess, hoff, if_neg hbad]
      cases hregion : regionOf s.params off with
      | reserved => exact .inr (.inl rfl)
      | csr r => exact .inr (.inr ⟨off, rfl, by omega, .inl (by rw [regionOf_eq_csr hregion])⟩)
      | dmem w =>
        obtain ⟨hw, hplace⟩ := regionOf_eq_dmem (by omega) hregion
        exact .inr (.inr ⟨off, rfl, by omega, .inr ⟨w, hw, hplace, rfl⟩⟩)

/-! ### The invariant -/

section
variable {s t : State}

/-- What the invariant speaks of, but for the flags OVR and HOSTERR. -/
structure SameReport (s t : State) : Prop where
  params : t.params = s.params
  mem : t.mem = s.mem
  engine : t.engine = s.engine
  maxFftSize : t.maxFftSize = s.maxFftSize
  done : t.status.done = s.status.done
  err : t.status.err = s.status.err
  errcode : t.status.errcode = s.status.errcode
  lastop : t.status.lastop = s.status.lastop

theorem State.Inv.of_sameReport (h : s.Inv) (e : SameReport s t) : t.Inv where
  params := e.params ▸ h.params
  mem := by rw [e.mem, e.params]; exact h.mem
  errcodeClear := by rw [e.err, e.errcode]; exact h.errcodeClear
  errcodeKnown := by rw [e.err, e.errcode]; exact h.errcodeKnown
  busy := by rw [e.engine, e.done, e.err, e.params, e.lastop]; exact h.busy
  maxFftSize := by rw [e.maxFftSize, e.params]; exact h.maxFftSize

theorem errorResponse_inv (h : s.Inv) (op : PortOp) : (errorResponse op s).Inv :=
  h.of_sameReport ⟨rfl, rfl, rfl, rfl, rfl, rfl, rfl, rfl⟩

/-- A STATUS write clears ERRCODE with ERR (`10_state.md` R37). -/
theorem clear_inv (h : s.Inv) (v : Word) : State.Inv { s with status := s.status.clear v } where
  params := h.params
  mem := h.mem
  errcodeClear herr := by
    simp only [Status.clear, Bool.and_eq_false_iff, Bool.not_eq_false'] at herr ⊢
    rcases herr with herr | hbit
    · rw [h.errcodeClear herr, ite_self]
    · rw [if_pos hbit]
  errcodeKnown herr := by
    simp only [Status.clear, Bool.and_eq_true, Bool.not_eq_true'] at herr ⊢
    obtain ⟨herr, hbit⟩ := herr
    rw [hbit]
    exact h.errcodeKnown herr
  busy l hl := by
    obtain ⟨hdone, herr, hcheck, hlastop⟩ := h.busy l hl
    exact ⟨by simp [Status.clear, hdone], by simp [Status.clear, herr], hcheck, hlastop⟩
  maxFftSize := h.maxFftSize

theorem csrWrite_inv (h : s.Inv) (v : Word) (r : Csr) : (csrWrite s v r).Inv := by
  cases r with
  | status => exact clear_inv h v
  | _ => exact h.of_sameReport ⟨rfl, rfl, rfl, rfl, rfl, rfl, rfl, rfl⟩

/-- The codes are 0x01 to 0x06 (`60_exceptions.md` R230). -/
theorem ErrorCode.code_known (c : ErrorCode) : 1 ≤ c.code.toNat ∧ c.code.toNat ≤ 6 := by cases c <;> decide

/-- An issue reports a known code, or latches a command that passed the checks (`42_control.md` R211). -/
theorem issue_inv (h : s.Inv) (hidle : s.engine = .idle) (v : Word) :
    (issue v (check s.params ⟨v, s.operands⟩) s).Inv := by
  cases hcheck : check s.params ⟨v, s.operands⟩ with
  | none =>
    exact
      { params := h.params, mem := h.mem, maxFftSize := h.maxFftSize
        errcodeClear := fun _ => rfl
        errcodeKnown := fun herr => Bool.noConfusion herr
        busy := fun l hl => by cases hl; exact ⟨rfl, rfl, hcheck, rfl⟩ }
  | some c =>
    exact
      { params := h.params, mem := h.mem, maxFftSize := h.maxFftSize
        errcodeClear := fun herr => Bool.noConfusion herr
        errcodeKnown := fun _ => ErrorCode.code_known c
        busy := fun l hl => by
          have hbusy : s.engine = .busy l := hl
          rw [hidle] at hbusy
          cases hbusy }

theorem commandWrite_inv (h : s.Inv) {v : Word} (hstep : commandWrite v s = .next t) : t.Inv := by
  rcases commandWrite_cases v s with ⟨l, -, hw⟩ | ⟨hidle, hw⟩
  · rw [hw] at hstep
    cases hstep
    exact h.of_sameReport ⟨rfl, rfl, rfl, rfl, rfl, rfl, rfl, rfl⟩
  · rw [hw] at hstep
    cases hstep
    exact issue_inv h hidle v

theorem busAccess_inv (h : s.Inv) {addr bytes : Nat} {op : PortOp} (hstep : busAccess addr bytes op s = .next t) :
    t.Inv := by
  have hport : ∀ r, State.Inv { s with port := r } := fun r => h.of_sameReport ⟨rfl, rfl, rfl, rfl, rfl, rfl, rfl, rfl⟩
  rcases busAccess_cases addr bytes op s with hb | hb | ⟨r, hb⟩ | ⟨r, v, hb⟩ | ⟨v, hb⟩ | ⟨w, v, -, -, hb⟩ |
    ⟨w, -, -, hb⟩ | ⟨w, v, hidle, hw, hb⟩ <;> rw [hb] at hstep
  · cases hstep; exact h
  · cases hstep; exact errorResponse_inv h op
  · cases hstep; exact hport _
  · cases hstep; exact csrWrite_inv (hport _) v r
  · exact commandWrite_inv (hport _) hstep
  · cases hstep; exact hport _
  · cases hstep
  · cases hstep; exact { hport none with mem := wf_writeWord h.mem hw v }

/-- The command in flight of a state that meets the invariant, and its checks (`60_exceptions.md` R239). -/
theorem State.Inv.inFlight (h : s.Inv) {l : Latch} (hbusy : s.engine = .busy l) :
    ∃ i, decodeWord l.cmd = .ok i ∧ checkFootprint s.params (footprint i l.ops) = none := by
  obtain ⟨-, -, hcheck, -⟩ := h.busy l hbusy
  exact (check_eq_none_iff s.params l).1 hcheck

/-- MAXFFTSIZE grows to admitted lengths only (`10_state.md` R50). -/
theorem grownFftSize_admitted {p : Params} {f : Footprint} (hc : checkFootprint p f = none) {old : Nat}
    (hold : old = 0 ∨ badLength p old = false) : grownFftSize f old = 0 ∨ badLength p (grownFftSize f old) = false := by
  obtain ⟨hlength, -⟩ := (checkFootprint_eq_none_iff p f).1 hc
  unfold grownFftSize
  split
  · exact hold
  · next n hn =>
    rw [hn, Option.any_some] at hlength
    rcases hold with rfl | hold
    · exact .inr (by rwa [Nat.zero_max])
    · rcases max_choice old n with hmax | hmax
      · exact .inr (hmax.symm ▸ hold)
      · exact .inr (hmax.symm ▸ hlength)

theorem exec_busy_inv (h : s.Inv) {l : Latch} {i : Instr} (hbusy : s.engine = .busy l)
    (hc : checkFootprint s.params (footprint i l.ops) = none) (hstep : exec i s = .next t) : t.Inv := by
  rw [exec_eq, runCommand_busy hbusy] at hstep
  rcases complete_cases (footprint i) (bodyOf i) l s with ⟨m, hm, hnext⟩ | ⟨e, -, hfault⟩
  · rw [hnext] at hstep
    cases hstep
    obtain ⟨-, herr, -⟩ := h.busy l hbusy
    exact
      { params := h.params
        mem := (bodyOf_frame hm).2 h.mem
        errcodeClear := h.errcodeClear
        errcodeKnown := h.errcodeKnown
        busy := fun _ hl => Engine.noConfusion hl
        maxFftSize := grownFftSize_admitted hc h.maxFftSize }
  · rw [hfault] at hstep
    cases hstep

/-- The engine's turn while IDLE does nothing (`70_reset_and_hazards.md` R263). -/
theorem engineTurn_idle (h : s.engine = .idle) : engineTurn s = .next s := by
  simp only [engineTurn, h]

theorem engineTurn_inv (h : s.Inv) (hstep : engineTurn s = .next t) : t.Inv := by
  cases he : s.engine with
  | idle =>
    rw [engineTurn_idle he] at hstep
    cases hstep
    exact h
  | busy l =>
    obtain ⟨i, hd, hc⟩ := h.inFlight he
    rw [engineTurn_busy he hd] at hstep
    exact exec_busy_inv h he hc hstep

theorem wf_forgetBuffers {p : Params} {m : Memory} (hm : m.wf p) (bs : List Buffer) : (m.forgetBuffers bs).wf p := by
  induction bs generalizing m with
  | nil => exact hm
  | cons b bs ih => exact ih (wf_forget hm b.base b.words)

theorem wf_memAfterReset {p : Params} {m : Memory} (hm : m.wf p) (e : Engine) : (memAfterReset e m).wf p := by
  cases e with
  | idle => exact hm
  | busy l =>
    cases hd : decodeWord l.cmd with
    | error err => simp only [memAfterReset, hd]; exact hm
    | ok i => rw [memAfterReset_busy hd]; exact wf_forgetBuffers hm _

theorem resetCore_inv (h : s.Inv) : (resetCore s).Inv where
  params := h.params
  mem := wf_memAfterReset h.mem s.engine
  errcodeClear _ := rfl
  errcodeKnown herr := Bool.noConfusion herr
  busy _ hbusy := Engine.noConfusion hbusy
  maxFftSize := .inl rfl

theorem inputs_inv (h : s.Inv) (rest : List Event) : State.Inv { s with inputs := rest } :=
  h.of_sameReport ⟨rfl, rfl, rfl, rfl, rfl, rfl, rfl, rfl⟩

end

/-- Settles O55, by the kind of the step. -/
theorem stepKeepsInvariant : Obligations.StepKeepsInvariant := by
  intro s t h hstep
  rcases step_cases s with ⟨rest, -, hs⟩ | ⟨addr, bytes, op, rest, -, hs⟩ | ⟨rest, -, hs⟩ <;> rw [hs] at hstep
  case inl => exact engineTurn_inv (inputs_inv h rest) hstep
  case inr.inl => exact busAccess_inv (inputs_inv h rest) hstep
  case inr.inr => cases hstep; exact resetCore_inv (inputs_inv h rest)

/-! ### A command in flight and the host -/

/-- Everything the completion of a command in flight reads, and MAXFFTSIZE, are as before; `rest` is still to come. -/
structure SameCommand (s t : State) (rest : List Event) : Prop where
  engine : t.engine = s.engine
  mem : t.mem = s.mem
  params : t.params = s.params
  draws : t.draws = s.draws
  maxFftSize : t.maxFftSize = s.maxFftSize
  inputs : t.inputs = rest

/-- While BUSY no access stops the machine or touches the command in flight (`70_reset_and_hazards.md` R273, R276). -/
theorem busAccess_busy {s : State} {l : Latch} (hbusy : s.engine = .busy l) (addr bytes : Nat) (op : PortOp) :
    ∃ t, busAccess addr bytes op s = .next t ∧ SameCommand s t s.inputs := by
  have hnot : s.engine ≠ .idle := by rw [hbusy]; exact Engine.noConfusion
  rcases busAccess_cases addr bytes op s with hb | hb | ⟨r, hb⟩ | ⟨r, v, hb⟩ | ⟨v, hb⟩ | ⟨w, v, hidle, -⟩ |
    ⟨w, hidle, -⟩ | ⟨w, v, hidle, -⟩
  · exact ⟨s, hb, rfl, rfl, rfl, rfl, rfl, rfl⟩
  · exact ⟨_, hb, rfl, rfl, rfl, rfl, rfl, rfl⟩
  · exact ⟨_, hb, rfl, rfl, rfl, rfl, rfl, rfl⟩
  · exact ⟨_, hb, csrWrite_engine _ _ _, csrWrite_mem _ _ _, csrWrite_params _ _ _, csrWrite_draws _ _ _,
      csrWrite_maxFftSize _ _ _, csrWrite_inputs _ _ _⟩
  · exact ⟨_, hb.trans (commandWrite_busy (s := { s with port := some (.write false) }) hbusy v), rfl, rfl, rfl, rfl,
      rfl, rfl⟩
  all_goals exact absurd hidle hnot

theorem step_access_busy {s : State} {l : Latch} (hbusy : s.engine = .busy l) {e : Event} (he : e.isAccess = true)
    {rest : List Event} (hin : s.inputs = e :: rest) : ∃ t, step s = .next t ∧ SameCommand s t rest := by
  cases e with
  | bus addr bytes op =>
    obtain ⟨t, ht, hsame⟩ := busAccess_busy (s := { s with inputs := rest }) hbusy addr bytes op
    exact ⟨t, (step_bus hin).trans ht, hsame.engine, hsame.mem, hsame.params, hsame.draws, hsame.maxFftSize,
      hsame.inputs⟩
  | engine => cases he
  | reset => cases he

theorem runFor_succ_of_next {s t : State} (h : step s = .next t) (k : Nat) : runFor (k + 1) s = runFor k t := by
  simp only [runFor, h]

/-- Settles O58, by induction on the accesses, each of which leaves the command as it is. -/
theorem commandInFlightUndisturbed : Obligations.CommandInFlightUndisturbed := by
  intro s l accesses rest hbusy haccess hin
  induction accesses generalizing s with
  | nil => exact ⟨s, rfl, hbusy, rfl, rfl, rfl, rfl, hin⟩
  | cons e es ih =>
    obtain ⟨t, hstep, hsame⟩ := step_access_busy hbusy (haccess e List.mem_cons_self) hin
    obtain ⟨u, hrun, hengine, hmem, hparams, hdraws, hmax, hinputs⟩ :=
      ih t (hsame.engine.trans hbusy) (fun e' he' => haccess e' (List.mem_cons_of_mem _ he')) hsame.inputs
    exact ⟨u, (runFor_succ_of_next hstep _).trans hrun, hengine, hmem.trans hsame.mem, hparams.trans hsame.params,
      hdraws.trans hsame.draws, hmax.trans hsame.maxFftSize, hinputs⟩

/-! ### The stops of a run -/

/-- The engine's turn in a BUSY state that meets the invariant: the completion, or a stop at an unwritten input. -/
theorem engineTurn_busy_cases {s : State} (h : s.Inv) {l : Latch} (hbusy : s.engine = .busy l) :
    (∃ t, engineTurn s = .next t ∧ t.engine = .idle ∧ t.status.done = true) ∨
      ∃ w, engineTurn s = .fault (.unwrittenInput w) := by
  obtain ⟨i, hd, hc⟩ := h.inFlight hbusy
  rw [engineTurn_busy hbusy hd]
  rcases exec_busy_cases hbusy hc with ⟨t, hnext, hcompleted⟩ | ⟨w, hw, -⟩
  · exact .inl ⟨t, hnext, hcompleted.engine, by rw [hcompleted.status]⟩
  · exact .inr ⟨w, hw⟩

theorem engineTurn_next_or_unwritten {s : State} (h : s.Inv) :
    (∃ t, engineTurn s = .next t) ∨ ∃ w, engineTurn s = .fault (.unwrittenInput w) := by
  cases he : s.engine with
  | idle => exact .inl ⟨s, engineTurn_idle he⟩
  | busy l => exact (engineTurn_busy_cases h he).imp_left fun ⟨t, ht, _⟩ => ⟨t, ht⟩

theorem commandWrite_next (v : Word) (s : State) : ∃ t, commandWrite v s = .next t := by
  rcases commandWrite_cases v s with ⟨l, -, h⟩ | ⟨-, h⟩
  · exact ⟨_, h⟩
  · exact ⟨_, h⟩

/-- An access stops the machine only at a read of an unwritten word (`93_implementation_defined.md` U8). -/
theorem busAccess_next_or_unwritten (addr bytes : Nat) (op : PortOp) (s : State) :
    (∃ t, busAccess addr bytes op s = .next t) ∨ ∃ w, busAccess addr bytes op s = .fault (.unwrittenRead w) := by
  rcases busAccess_cases addr bytes op s with hb | hb | ⟨r, hb⟩ | ⟨r, v, hb⟩ | ⟨v, hb⟩ | ⟨w, v, -, -, hb⟩ |
    ⟨w, -, -, hb⟩ | ⟨w, v, -, -, hb⟩
  · exact .inl ⟨_, hb⟩
  · exact .inl ⟨_, hb⟩
  · exact .inl ⟨_, hb⟩
  · exact .inl ⟨_, hb⟩
  · rw [hb]; exact .inl (commandWrite_next v _)
  · exact .inl ⟨_, hb⟩
  · exact .inr ⟨w, hb⟩
  · exact .inl ⟨_, hb⟩

/-- Settles O56, by the kind of the step. -/
theorem onlyUnwrittenWordsStop : Obligations.OnlyUnwrittenWordsStop := by
  intro s h
  rcases step_cases s with ⟨rest, -, hs⟩ | ⟨addr, bytes, op, rest, -, hs⟩ | ⟨rest, -, hs⟩ <;> rw [hs]
  case inr.inr => exact .inl ⟨_, rfl⟩
  case inr.inl =>
    exact (busAccess_next_or_unwritten addr bytes op _).imp_right fun ⟨w, hw⟩ => ⟨_, hw, rfl⟩
  case inl => exact (engineTurn_next_or_unwritten (inputs_inv h rest)).imp_right fun ⟨w, hw⟩ => ⟨_, hw, rfl⟩

/-- One step that completes the command or stops at an unwritten input ends the wait. -/
theorem runFor_one_of_step {s : State}
    (h : (∃ t, step s = .next t ∧ t.engine = .idle ∧ t.status.done = true) ∨ ∃ w, step s = .fault (.unwrittenInput w)) :
    (∃ t, runFor 1 s = .next t ∧ t.engine = .idle ∧ t.status.done = true) ∨
      ∃ w, runFor 1 s = .fault (.unwrittenInput w) := by
  rcases h with ⟨t, ht, hdone⟩ | ⟨w, hw⟩
  · exact .inl ⟨t, runFor_succ_of_next ht 0, hdone⟩
  · exact .inr ⟨w, by simp only [runFor, hw]⟩

/-- Settles O59, by induction on the events to come: a turn of the engine completes the command, an access leaves it in
flight with one event less. -/
theorem commandCompletesEventually : Obligations.CommandCompletesEventually := by
  intro s l h hbusy hreset
  induction hin : s.inputs generalizing s with
  | nil =>
    refine ⟨1, Nat.le_refl _, runFor_one_of_step ?_⟩
    rw [step_nil hin]
    exact engineTurn_busy_cases h hbusy
  | cons e rest ih =>
    rw [hin] at hreset
    have hrest : Event.reset ∉ rest := fun hmem => hreset (List.mem_cons_of_mem _ hmem)
    cases e with
    | reset => exact absurd List.mem_cons_self hreset
    | engine =>
      refine ⟨1, by simp, runFor_one_of_step ?_⟩
      rw [step_engine hin]
      exact engineTurn_busy_cases (inputs_inv h rest) hbusy
    | bus addr bytes op =>
      obtain ⟨t, hstep, hsame⟩ := step_access_busy hbusy rfl hin
      obtain ⟨k, hk, hrun⟩ := ih t (stepKeepsInvariant s t h hstep) (hsame.engine.trans hbusy)
        (hsame.inputs.symm ▸ hrest) hsame.inputs
      exact ⟨k + 1, Nat.succ_le_succ hk, (runFor_succ_of_next hstep k).symm ▸ hrun⟩

/-! ### ERR without DONE -/

section
variable {s t : State}

/-- The flags of a report as they were. -/
def SameFlags (s t : State) : Prop := t.status.err = s.status.err ∧ t.status.done = s.status.done

theorem commandWrite_flags {v : Word} (h : commandWrite v s = .next t) :
    SameFlags s t ∨ t.status.err = false ∨ t.status.done = true := by
  rcases commandWrite_cases v s with ⟨l, -, hw⟩ | ⟨-, hw⟩ <;> rw [hw] at h <;> cases h
  · exact .inl ⟨rfl, rfl⟩
  · cases check s.params ⟨v, s.operands⟩ with
    | none => exact .inr (.inl rfl)
    | some c => exact .inr (.inr rfl)

theorem engineTurn_flags (h : engineTurn s = .next t) : SameFlags s t ∨ t.status.done = true := by
  cases he : s.engine with
  | idle =>
    rw [engineTurn_idle he] at h
    cases h
    exact .inl ⟨rfl, rfl⟩
  | busy l =>
    cases hd : decodeWord l.cmd with
    | error e => simp only [engineTurn, he, hd] at h; cases h
    | ok i =>
      rw [engineTurn_busy he hd] at h
      obtain ⟨hdone, -⟩ := exec_completion_done he h
      exact .inr hdone

theorem dmemAccess_flags {w : Nat} {op : PortOp} (h : dmemAccess w op s = .next t) : SameFlags s t := by
  unfold dmemAccess at h
  split at h
  · cases h; exact ⟨rfl, rfl⟩
  · split at h
    · split at h <;> cases h
      exact ⟨rfl, rfl⟩
    · cases h; exact ⟨rfl, rfl⟩

/-- An access to a register leaves the flags, is a CMD write, or is the write-1-to-clear of STATUS. -/
theorem csrAccess_flags {r : Csr} {op : PortOp} (h : csrAccess r op s = .next t) :
    (SameFlags s t ∨ t.status.err = false ∨ t.status.done = true) ∨
      ∃ v, r = .status ∧ op = .write v ∧ t.status = s.status.clear v := by
  cases op with
  | read => cases h; exact .inl (.inl ⟨rfl, rfl⟩)
  | write v =>
    by_cases hr : r = .cmd
    · subst hr
      exact .inl (commandWrite_flags (s := { s with port := some (.write false) }) h)
    · rw [csrAccess_write hr] at h
      cases h
      rcases csrWrite_status { s with port := some (.write false) } v r with hst | ⟨hr', hst⟩
      · exact .inl (.inl ⟨congrArg Status.err hst, congrArg Status.done hst⟩)
      · exact .inr ⟨v, hr', rfl, hst⟩

/-- A step leaves ERR and DONE, ends with ERR = 0 or DONE = 1, or is a host write to STATUS. -/
theorem step_flags (h : step s = .next t) :
    (SameFlags s t ∨ t.status.err = false ∨ t.status.done = true) ∨
      ∃ v rest, s.inputs = s.writesAt 0x018 v :: rest ∧ t.status = s.status.clear v := by
  rcases step_cases s with ⟨rest, -, hs⟩ | ⟨addr, bytes, op, rest, hin, hs⟩ | ⟨rest, -, hs⟩ <;> rw [hs] at h
  case inl => exact .inl ((engineTurn_flags h).imp_right .inr)
  case inr.inr => cases h; exact .inl (.inr (.inl rfl))
  case inr.inl =>
    rcases busAccess_place addr bytes op { s with inputs := rest } with
      hb | hb | ⟨off, rfl, rfl, hb | ⟨w, -, -, hb⟩⟩ <;>
      rw [hb] at h
    · cases h; exact .inl (.inl ⟨rfl, rfl⟩)
    · cases h; exact .inl (.inl ⟨rfl, rfl⟩)
    · rcases csrAccess_flags h with hflags | ⟨v, hr, rfl, hst⟩
      · exact .inl hflags
      · exact .inr ⟨v, rest, by rw [hin, csrAt_eq_status hr]; rfl, hst⟩
    · exact .inl (.inl (dmemAccess_flags (s := { s with inputs := rest }) h))

end

/-- Settles O57: of the steps only a STATUS write leaves ERR = 1 with DONE = 0 where they were not so. -/
theorem errorWithoutDoneOnlyByHost : Obligations.ErrorWithoutDoneOnlyByHost := by
  intro s t hstep herr hdone
  rcases step_flags hstep with (⟨heq, hdq⟩ | herr' | hdone') | ⟨v, rest, hin, hst⟩
  · exact .inl ⟨heq ▸ herr, hdq ▸ hdone⟩
  · rw [herr] at herr'; cases herr'
  · rw [hdone] at hdone'; cases hdone'
  · simp only [hst, Status.clear, Bool.and_eq_true, Bool.not_eq_true', Bool.and_eq_false_iff, Bool.not_eq_false']
      at herr hdone
    obtain ⟨herr, hbit2⟩ := herr
    exact hdone.imp (fun h => ⟨herr, h⟩) fun hbit1 => ⟨v, rest, hin, hbit1, hbit2⟩

/-! ### The writers of DMEM -/

section
variable {s t : State}

theorem commandWrite_mem {v : Word} (h : commandWrite v s = .next t) : t.params = s.params ∧ t.mem = s.mem := by
  rcases commandWrite_cases v s with ⟨l, -, hw⟩ | ⟨-, hw⟩ <;> rw [hw] at h <;> cases h
  · exact ⟨rfl, rfl⟩
  · exact ⟨issue_params _ _ _, issue_mem _ _ _⟩

theorem csrAccess_mem {r : Csr} {op : PortOp} (h : csrAccess r op s = .next t) :
    t.params = s.params ∧ t.mem = s.mem := by
  cases op with
  | read => cases h; exact ⟨rfl, rfl⟩
  | write v =>
    by_cases hr : r = .cmd
    · subst hr
      exact commandWrite_mem (s := { s with port := some (.write false) }) h
    · rw [csrAccess_write hr] at h
      cases h
      exact ⟨csrWrite_params _ _ _, csrWrite_mem _ _ _⟩

/-- An access to a DMEM word writes it only while IDLE (`20_memory.md` R75, R77). -/
theorem dmemAccess_mem {w : Nat} {op : PortOp} (h : dmemAccess w op s = .next t) :
    t.params = s.params ∧ (t.mem = s.mem ∨ (s.engine = .idle ∧ ∃ v, op = .write v)) := by
  cases he : s.engine with
  | busy l =>
    rw [dmemAccess_busy he] at h
    cases h
    exact ⟨rfl, .inl rfl⟩
  | idle =>
    cases op with
    | write v =>
      rw [dmemAccess_write he] at h
      cases h
      exact ⟨rfl, .inr ⟨rfl, v, rfl⟩⟩
    | read =>
      cases hw : s.mem.readWord w with
      | none => rw [dmemAccess_read_unwritten he hw] at h; cases h
      | some v =>
        rw [dmemAccess_read he hw] at h
        cases h
        exact ⟨rfl, .inl rfl⟩

theorem engineTurn_mem (h : engineTurn s = .next t) :
    t.params = s.params ∧ (t.mem = s.mem ∨ ∃ l, s.engine = .busy l) := by
  cases he : s.engine with
  | idle =>
    rw [engineTurn_idle he] at h
    cases h
    exact ⟨rfl, .inl rfl⟩
  | busy l =>
    refine ⟨?_, .inr ⟨l, rfl⟩⟩
    cases hd : decodeWord l.cmd with
    | error e => simp only [engineTurn, he, hd] at h; cases h
    | ok i =>
      rw [engineTurn_busy he hd, exec_eq, runCommand_busy he] at h
      rcases complete_cases (footprint i) (bodyOf i) l s with ⟨m, -, hc⟩ | ⟨e, -, hc⟩ <;> rw [hc] at h <;> cases h
      rfl

end

/-- Settles O60, by the kind of the step; a reset while IDLE keeps DMEM. -/
theorem dmemChangesOnlyByItsWriters : Obligations.DmemChangesOnlyByItsWriters := by
  intro s t h
  rcases step_cases s with ⟨rest, hin, hs⟩ | ⟨addr, bytes, op, rest, hin, hs⟩ | ⟨rest, hin, hs⟩ <;> rw [hs] at h
  case inl =>
    obtain ⟨hparams, hmem⟩ := engineTurn_mem h
    refine ⟨hparams, hmem.imp_right fun ⟨l, hbusy⟩ => .inr (.inl ⟨l, hbusy, ?_⟩)⟩
    exact hin.imp (fun hnil => hnil.1) fun hturn => ⟨rest, hturn⟩
  case inr.inl =>
    rcases busAccess_place addr bytes op { s with inputs := rest } with
      hb | hb | ⟨off, rfl, rfl, hb | ⟨w, hw, rfl, hb⟩⟩ <;>
      rw [hb] at h
    · cases h; exact ⟨rfl, .inl rfl⟩
    · cases h; exact ⟨rfl, .inl rfl⟩
    · obtain ⟨hparams, hmem⟩ := csrAccess_mem h
      exact ⟨hparams, .inl hmem⟩
    · obtain ⟨hparams, hmem⟩ := dmemAccess_mem h
      exact ⟨hparams, hmem.imp_right fun ⟨hidle, v, hop⟩ => .inl ⟨hidle, w, v, rest, hw, by rw [hin, hop]; rfl⟩⟩
  case inr.inr =>
    cases h
    refine ⟨rfl, ?_⟩
    cases he : s.engine with
    | idle => exact .inl rfl
    | busy l => exact .inr (.inr (.inr ⟨l, rest, rfl, hin⟩))

end Sys2Proof.Machine
end

section
/-!
PROOFS. Rounding to nearest, ties to even (`00_scope.md` R10, R11): which pattern lies nearest to a number, and that
`F64.round` gives it.
-/

namespace Sys2Proof.Machine

/-! ### The patterns' absolute values -/

/-- Mantissa `n` at exponent `e`: adding it to the exponent field gives its pattern, a carry into the exponent
included. -/
theorem F64.scaled_mantissa {n e : Nat} (hn : n ≤ 2 ^ 53) (h : e = 0 ∨ 2 ^ 52 ≤ n) :
    F64.scaled (e * 2 ^ 52 + n) = n * 2 ^ e := by
  rcases Nat.lt_or_ge n (2 ^ 52) with hsub | hnormal
  · obtain rfl : e = 0 := h.resolve_right (by omega)
    rw [F64.scaled, if_pos (by omega), Nat.zero_mul, Nat.zero_add, pow_zero, Nat.mul_one]
  · rcases Nat.lt_or_ge n (2 ^ 53) with hlt | hcarry
    · have hdiv : (e * 2 ^ 52 + n) / 2 ^ 52 = e + 1 := by omega
      have hmod : 2 ^ 52 + (e * 2 ^ 52 + n) % 2 ^ 52 = n := by omega
      rw [F64.scaled, hdiv, hmod, if_neg (Nat.succ_ne_zero e), Nat.add_sub_cancel]
    · have hdiv : (e * 2 ^ 52 + n) / 2 ^ 52 = e + 2 := by omega
      have hmod : 2 ^ 52 + (e * 2 ^ 52 + n) % 2 ^ 52 = 2 ^ 52 := by omega
      obtain rfl : n = 2 ^ 53 := by omega
      rw [F64.scaled, hdiv, hmod, if_neg (by omega), show e + 2 - 1 = e + 1 by omega]
      ring

theorem F64.scaled_le_scaled {m n : Nat} (h : m ≤ n) : F64.scaled m ≤ F64.scaled n :=
  (strictMono_nat_of_lt_succ F64.scaled_lt_succ).monotone h

/-- The first pattern that is no finite value: the one of +∞. -/
theorem F64.scaled_inf : (F64.scaled 0x7FF0000000000000 : ℚ) = 2 ^ 54 * 2 ^ 2044 := by
  rw [show 0x7FF0000000000000 = 2046 * 2 ^ 52 + 2 ^ 52 by norm_num, F64.scaled_mantissa (by norm_num) (.inr le_rfl),
    Nat.cast_mul, Nat.cast_pow, Nat.cast_pow, Nat.cast_ofNat, ← pow_add, ← pow_add]

/-- The greatest finite value. -/
theorem F64.scaled_max : (F64.scaled 0x7FEFFFFFFFFFFFFF : ℚ) = (2 ^ 54 - 2) * 2 ^ 2044 := by
  rw [show 0x7FEFFFFFFFFFFFFF = 2045 * 2 ^ 52 + (2 ^ 53 - 1) by norm_num,
    F64.scaled_mantissa (by norm_num) (.inr (by norm_num)), Nat.cast_mul, Nat.cast_pow, Nat.cast_ofNat,
    show 2045 = 2044 + 1 from rfl, pow_succ' (2 : ℚ) 2044, ← mul_assoc]
  norm_num only

/-! ### The pattern nearest to a number -/

/-- `x` lies between the midpoints that part the pattern `p` from its neighbours, on one of them only where `p` is even.
Both are in units of 2^(−1074). -/
structure F64.IsNearest (p : Nat) (x : ℚ) : Prop where
  upper : 2 * x ≤ F64.scaled p + F64.scaled (p + 1)
  upperTie : 2 * x = F64.scaled p + F64.scaled (p + 1) → p % 2 = 0
  lower : ∀ p', p = p' + 1 → (F64.scaled p' : ℚ) + F64.scaled p ≤ 2 * x
  lowerTie : ∀ p', p = p' + 1 → (F64.scaled p' : ℚ) + F64.scaled p = 2 * x → p % 2 = 0

section
variable {p : Nat} {x : ℚ}

/-- No pattern is nearer, and one as near leaves the even one. -/
theorem F64.IsNearest.le_dist (h : F64.IsNearest p x) (k : Nat) :
    |(F64.scaled p : ℚ) - x| ≤ |(F64.scaled k : ℚ) - x| ∧
      (|(F64.scaled k : ℚ) - x| = |(F64.scaled p : ℚ) - x| → k = p ∨ p % 2 = 0) := by
  rcases lt_trichotomy k p with hlt | rfl | hgt
  · obtain ⟨p', rfl⟩ := Nat.exists_eq_succ_of_ne_zero (Nat.ne_of_gt (Nat.zero_lt_of_lt hlt))
    have hlow := h.lower p' rfl
    have hk : (F64.scaled k : ℚ) ≤ F64.scaled p' := by exact_mod_cast F64.scaled_le_scaled (by omega)
    have hp : (F64.scaled p' : ℚ) < F64.scaled (p' + 1) := by exact_mod_cast F64.scaled_lt_succ p'
    have hfar : |(F64.scaled k : ℚ) - x| = x - F64.scaled k := by rw [abs_sub_comm, abs_of_nonneg]; linarith
    rw [hfar]
    refine ⟨abs_le.2 ⟨by linarith, by linarith⟩, fun heq => .inr (h.lowerTie p' rfl ?_)⟩
    rcases abs_cases ((F64.scaled (p' + 1) : ℚ) - x) with ⟨habs, -⟩ | ⟨habs, -⟩
    · linarith
    · linarith
  · exact ⟨le_rfl, fun _ => .inl rfl⟩
  · have hup := h.upper
    have hk : (F64.scaled (p + 1) : ℚ) ≤ F64.scaled k := by exact_mod_cast F64.scaled_le_scaled hgt
    have hp : (F64.scaled p : ℚ) < F64.scaled (p + 1) := by exact_mod_cast F64.scaled_lt_succ p
    have hfar : |(F64.scaled k : ℚ) - x| = F64.scaled k - x := by rw [abs_of_nonneg]; linarith
    rw [hfar]
    refine ⟨abs_le.2 ⟨by linarith, by linarith⟩, fun heq => .inr (h.upperTie ?_)⟩
    rcases abs_cases ((F64.scaled p : ℚ) - x) with ⟨habs, -⟩ | ⟨habs, -⟩
    · linarith
    · linarith

/-- A nearest pattern is finite only below the midpoint of the greatest finite value and its successor: that value is
odd. -/
theorem F64.IsNearest.lt_of_finite (h : F64.IsNearest p x) (hp : p < 0x7FF0000000000000) :
    x < (2 ^ 54 - 1) * 2 ^ 2044 := by
  have hmax := F64.scaled_max
  have hinf := F64.scaled_inf
  have hup := h.upper
  have hpos : (0 : ℚ) < 2 ^ 2044 := pow_pos two_pos _
  generalize (2 : ℚ) ^ 2044 = u at hmax hinf hpos ⊢
  rcases Nat.lt_or_ge p 0x7FEFFFFFFFFFFFFF with hlt | hge
  · have h₁ : (F64.scaled p : ℚ) ≤ F64.scaled 0x7FEFFFFFFFFFFFFF := by
      exact_mod_cast F64.scaled_le_scaled (by omega)
    have h₂ : (F64.scaled (p + 1) : ℚ) ≤ F64.scaled 0x7FEFFFFFFFFFFFFF := by
      exact_mod_cast F64.scaled_le_scaled (by omega)
    linarith
  · obtain rfl : p = 0x7FEFFFFFFFFFFFFF := by omega
    have hlt := lt_of_le_of_ne hup (mt h.upperTie (by decide))
    rw [hmax, hinf] at hlt
    linarith

theorem F64.IsNearest.le_of_not_finite (h : F64.IsNearest p x) (hp : 0x7FF0000000000000 ≤ p) :
    (2 ^ 54 - 1) * 2 ^ 2044 ≤ x := by
  have hmax := F64.scaled_max
  have hinf := F64.scaled_inf
  obtain ⟨p', rfl⟩ := Nat.exists_eq_succ_of_ne_zero (by omega : p ≠ 0)
  have hlow := h.lower p' rfl
  have h₁ : (F64.scaled 0x7FEFFFFFFFFFFFFF : ℚ) ≤ F64.scaled p' := by
    exact_mod_cast F64.scaled_le_scaled (by omega)
  have h₂ : (F64.scaled 0x7FF0000000000000 : ℚ) ≤ F64.scaled (p' + 1) := by
    exact_mod_cast F64.scaled_le_scaled hp
  generalize (2 : ℚ) ^ 2044 = u at hmax hinf ⊢
  rw [hmax] at h₁
  rw [hinf] at h₂
  linarith

end

/-! ### The packed pattern -/

theorem F64.isFinite_iff (x : F64) : F64.isFinite x = true ↔ F64.magnitude x < 0x7FF0000000000000 := by
  simp only [F64.isFinite, decide_eq_true_eq]

/-- A pattern's number is its magnitude and, above it, its sign (`00_scope.md` R14). -/
theorem F64.toNat_eq (x : F64) : x.toNat = F64.magnitude x + if F64.sign x then 2 ^ 63 else 0 := by
  have hlt := x.isLt
  have hmsb : F64.sign x = decide (2 ^ 63 ≤ x.toNat) := BitVec.msb_eq_decide x
  rw [hmsb, F64.magnitude]
  by_cases h : 2 ^ 63 ≤ x.toNat
  · rw [decide_eq_true h, if_pos rfl]; omega
  · rw [decide_eq_false h, if_neg (by decide)]; omega

/-- Sign and magnitude determine a pattern. -/
theorem F64.eq_of_sign_magnitude {x y : F64} (hs : F64.sign x = F64.sign y)
    (hm : F64.magnitude x = F64.magnitude y) : x = y := by
  apply BitVec.eq_of_toNat_eq
  rw [F64.toNat_eq, F64.toNat_eq y, hs, hm]

theorem F64.sign_zero (s : Bool) : F64.sign (F64.zero s) = s := by cases s <;> decide

theorem F64.magnitude_zero (s : Bool) : F64.magnitude (F64.zero s) = 0 := by cases s <;> decide

theorem F64.sign_inf (s : Bool) : F64.sign (F64.inf s) = s := by cases s <;> decide

section
variable (s : Bool) {p : Nat} (hp : p < 0x7FF0000000000000)
include hp

theorem F64.toNat_pack : (F64.pack s p).toNat = p + if s then 2 ^ 63 else 0 := by
  rw [F64.pack, if_neg (by omega), BitVec.toNat_ofNat, Nat.mod_eq_of_lt]
  cases s
  · rw [if_neg (by decide)]; omega
  · rw [if_pos rfl]; omega

theorem F64.magnitude_pack : F64.magnitude (F64.pack s p) = p := by
  rw [F64.magnitude, F64.toNat_pack s hp]
  cases s
  · rw [if_neg (by decide)]; omega
  · rw [if_pos rfl]; omega

theorem F64.sign_pack_finite : F64.sign (F64.pack s p) = s := by
  rw [F64.sign, BitVec.msb_eq_decide, F64.toNat_pack s hp]
  cases s
  · rw [if_neg (by decide)]; exact decide_eq_false (by omega)
  · rw [if_pos rfl]; exact decide_eq_true (by omega)

theorem F64.isFinite_pack : F64.isFinite (F64.pack s p) = true := by
  rwa [F64.isFinite_iff, F64.magnitude_pack s hp]

end

theorem F64.pack_inf (s : Bool) {p : Nat} (hp : 0x7FF0000000000000 ≤ p) : F64.pack s p = F64.inf s := if_pos hp

theorem F64.sign_pack (s : Bool) (p : Nat) : F64.sign (F64.pack s p) = s := by
  rcases Nat.lt_or_ge p 0x7FF0000000000000 with hp | hp
  · exact F64.sign_pack_finite s hp
  · rw [F64.pack_inf s hp, F64.sign_inf]

/-! ### Signed numbers -/

/-- `(−1)^s`. -/
def signFactor (s : Bool) : ℚ := if s then -1 else 1

@[simp] theorem signFactor_true : signFactor true = -1 := rfl
@[simp] theorem signFactor_false : signFactor false = 1 := rfl

theorem abs_signFactor_mul (s : Bool) (x : ℚ) : |signFactor s * x| = |x| := by
  cases s <;> simp

theorem signFactor_xor (s t : Bool) : signFactor (s != t) = signFactor s * signFactor t := by
  cases s <;> cases t <;> norm_num [signFactor]

/-- The value of a finite pattern by its sign and its magnitude (`00_scope.md` R14). -/
theorem F64.value_eq {x : F64} (h : F64.isFinite x = true) :
    F64.value x = signFactor (F64.sign x) * F64.scaled (F64.magnitude x) / 2 ^ 1074 := by
  rw [F64.value_eq_signedScaled h, F64.signedScaled, signFactor]
  split <;> simp

/-- The nearest pattern with the number's own sign is the number rounded (`00_scope.md` R10, R11). -/
theorem F64.rounds_pack {p : Nat} {x : ℚ} (h : F64.IsNearest p x) (hx : 0 < x) (s : Bool) :
    F64.rounds (signFactor s * x / 2 ^ 1074) (F64.pack s p) := by
  have hunit : (0 : ℚ) < 2 ^ 1074 := pow_pos two_pos _
  have habs : |signFactor s * x / 2 ^ 1074| = x / 2 ^ 1074 := by
    rw [abs_div, abs_signFactor_mul, abs_of_pos hx, abs_of_pos hunit]
  have hbound : (2 : ℚ) ^ 1024 - 2 ^ 970 = (2 ^ 54 - 1) * 2 ^ 2044 / 2 ^ 1074 := by
    rw [eq_div_iff hunit.ne', sub_mul, sub_mul, one_mul, ← pow_add, ← pow_add, ← pow_add]
  rcases Nat.lt_or_ge p 0x7FF0000000000000 with hp | hp
  case inr =>
    have hpos : 0 < x / 2 ^ 1074 := div_pos hx hunit
    have hneg : decide (signFactor s * x / 2 ^ 1074 < 0) = s := by
      rw [mul_div_assoc]
      cases s
      · exact decide_eq_false (by rw [signFactor_false, one_mul]; exact hpos.le.not_gt)
      · exact decide_eq_true (by rw [signFactor_true, neg_one_mul]; exact neg_neg_of_pos hpos)
    refine .inr ⟨?_, (F64.pack_inf s hp).trans (congrArg F64.inf hneg.symm)⟩
    rw [habs, hbound, div_le_div_iff_of_pos_right hunit]
    exact h.le_of_not_finite hp
  case inl =>
    have hfin := F64.isFinite_pack s hp
    refine .inl ⟨hfin, ?_, fun z hz => ?_⟩
    · rw [habs, hbound, div_lt_div_iff_of_pos_right hunit]
      exact h.lt_of_finite hp
    have hvalue : F64.value (F64.pack s p) = signFactor s * F64.scaled p / 2 ^ 1074 := by
      rw [F64.value_eq hfin, F64.sign_pack, F64.magnitude_pack s hp]
    have heven : p % 2 = 0 → (F64.pack s p).toNat % 2 = 0 := by
      intro hpe
      rw [F64.toNat_pack s hp]
      split <;> omega
    have hr : |F64.value (F64.pack s p) - signFactor s * x / 2 ^ 1074| = |(F64.scaled p : ℚ) - x| / 2 ^ 1074 := by
      rw [hvalue, ← sub_div, ← mul_sub, abs_div, abs_signFactor_mul, abs_of_pos hunit]
    rw [hr]
    by_cases hsign : F64.sign z = s
    · obtain ⟨hle, htie⟩ := h.le_dist (F64.magnitude z)
      have hz' : |F64.value z - signFactor s * x / 2 ^ 1074| =
          |(F64.scaled (F64.magnitude z) : ℚ) - x| / 2 ^ 1074 := by
        rw [F64.value_eq hz, hsign, ← sub_div, ← mul_sub, abs_div, abs_signFactor_mul, abs_of_pos hunit]
      rw [hz', div_le_div_iff_of_pos_right hunit, div_left_inj' hunit.ne']
      refine ⟨hle, fun heq => (htie heq).imp (fun hk => ?_) heven⟩
      rw [F64.value_eq hz, hvalue, hsign, hk]
    · obtain ⟨hle, htie⟩ := h.le_dist 0
      have hfactor : signFactor (F64.sign z) = -signFactor s := by
        revert hsign
        cases F64.sign z <;> cases s <;> simp
      have hpos : (0 : ℚ) ≤ F64.scaled (F64.magnitude z) := Nat.cast_nonneg _
      have hz' : |F64.value z - signFactor s * x / 2 ^ 1074| =
          (F64.scaled (F64.magnitude z) + x) / 2 ^ 1074 := by
        rw [F64.value_eq hz, hfactor, ← sub_div, neg_mul, ← neg_add', ← mul_add, abs_div, abs_neg, abs_signFactor_mul,
          abs_of_pos hunit, abs_of_nonneg (by linarith)]
      have hzero : |(F64.scaled 0 : ℚ) - x| = x := by
        rw [show F64.scaled 0 = 0 from rfl, Nat.cast_zero, zero_sub, abs_neg, abs_of_pos hx]
      rw [hzero] at hle htie
      rw [hz', div_le_div_iff_of_pos_right hunit, div_left_inj' hunit.ne']
      refine ⟨by linarith, fun heq => (htie (by linarith)).imp (fun hk => ?_) heven⟩
      have hscaled : (F64.scaled (F64.magnitude z) : ℚ) = 0 := by linarith
      rw [F64.value_eq hz, hvalue, hscaled, ← hk, show F64.scaled 0 = 0 from rfl, Nat.cast_zero, mul_zero, mul_zero]

end Sys2Proof.Machine
end

section
/-!
PROOFS. `F64.round` rounds once to nearest, ties to even, and the four operations on finite values round their exact
results (`00_scope.md` R10, R11).
-/

namespace Sys2Proof.Machine

/-! ### Dropping bits -/

/-- `m` lies within half a unit of its rounded quotient by `2 * u`, at half a unit only of an even one;
`u` is `2 ^ k`. -/
theorem F64.shiftRoundEven_bounds (m k : Nat) :
    let n := F64.shiftRoundEven m (k + 1)
    (m ≤ 2 * (2 ^ k * n) + 2 ^ k ∧ (m = 2 * (2 ^ k * n) + 2 ^ k → n % 2 = 0)) ∧
      2 * (2 ^ k * n) ≤ m + 2 ^ k ∧ (2 * (2 ^ k * n) = m + 2 ^ k → n % 2 = 0) := by
  have hdouble : 2 ^ (k + 1) = 2 * 2 ^ k := Nat.pow_succ'
  have hu : 0 < 2 ^ k := Nat.two_pow_pos k
  simp only [F64.shiftRoundEven, hdouble]
  generalize 2 ^ k = u at hu
  have hm : m = 2 * (u * (m / (2 * u))) + m % (2 * u) := by rw [← Nat.mul_assoc]; exact (Nat.div_add_mod _ _).symm
  have hrem : m % (2 * u) < 2 * u := Nat.mod_lt _ (by omega)
  generalize m / (2 * u) = q at hm
  generalize m % (2 * u) = rem at hm hrem
  split_ifs with hover htie
  · rw [Nat.mul_succ]; omega
  · rcases Nat.mod_two_eq_zero_or_one q with hq | hq
    · rw [hq, Nat.add_zero]; omega
    · rw [hq, Nat.mul_succ]; omega
  · omega

theorem F64.le_shiftRoundEven {m r n : Nat} (h : n * 2 ^ r ≤ m) : n ≤ F64.shiftRoundEven m r := by
  have hq : n ≤ m / 2 ^ r := (Nat.le_div_iff_mul_le (Nat.two_pow_pos r)).2 h
  unfold F64.shiftRoundEven
  dsimp only
  split_ifs <;> omega

theorem F64.shiftRoundEven_le {m r n : Nat} (h : m < n * 2 ^ r) : F64.shiftRoundEven m r ≤ n := by
  have hq : m / 2 ^ r < n := (Nat.div_lt_iff_lt_mul (Nat.two_pow_pos r)).2 h
  unfold F64.shiftRoundEven
  dsimp only
  split_ifs <;> omega

/-! ### The pattern of a rounded mantissa is nearest -/

/-- A number `x`, which is `z * 2^e / (2 * u)`, is nearest to the pattern of mantissa `n` and exponent `e` where `z`
lies within `u` of `2 * u * n`. At the ends of a binade only one side counts: there the neighbour is nearer or
farther. -/
theorem F64.isNearest_of_mantissa {n e u : Nat} {x z : ℚ} (hu : 0 < u) (hx : 2 * x * u = z * 2 ^ e) (hn : n ≤ 2 ^ 53)
    (he : e = 0 ∨ 2 ^ 52 ≤ n)
    (hup : n < 2 ^ 53 → z ≤ (2 * n + 1) * u ∧ (z = (2 * n + 1) * u → n % 2 = 0)) (hcarry : n = 2 ^ 53 → z ≤ 2 * n * u)
    (hlow : (2 * n - 1) * u ≤ z ∧ ((2 * n - 1) * u = z → n % 2 = 0)) (hbinade : n = 2 ^ 52 → e ≠ 0 → 2 * n * u ≤ z) :
    F64.IsNearest (e * 2 ^ 52 + n) x := by
  have hu' : (0 : ℚ) < u := Nat.cast_pos.2 hu
  have he' : (0 : ℚ) < 2 ^ e := pow_pos two_pos e
  have hp : (F64.scaled (e * 2 ^ 52 + n) : ℚ) = n * 2 ^ e := by rw [F64.scaled_mantissa hn he]; push_cast; rfl
  have heven : n % 2 = 0 → (e * 2 ^ 52 + n) % 2 = 0 := by omega
  -- comparisons of `2 * x` are comparisons of `z`
  have le_iff : ∀ k : ℚ, 2 * x ≤ k * 2 ^ e ↔ z ≤ k * u := fun k => by
    rw [← mul_le_mul_iff_left₀ hu', hx, mul_right_comm, mul_le_mul_iff_left₀ he']
  have ge_iff : ∀ k : ℚ, k * 2 ^ e ≤ 2 * x ↔ k * u ≤ z := fun k => by
    rw [← mul_le_mul_iff_left₀ hu', hx, mul_right_comm, mul_le_mul_iff_left₀ he']
  have eq_iff : ∀ k : ℚ, 2 * x = k * 2 ^ e ↔ z = k * u := fun k => by
    rw [← mul_left_inj' hu'.ne', hx, mul_right_comm, mul_left_inj' he'.ne']
  have upper : 2 * x ≤ F64.scaled (e * 2 ^ 52 + n) + F64.scaled (e * 2 ^ 52 + n + 1) ∧
      (2 * x = F64.scaled (e * 2 ^ 52 + n) + F64.scaled (e * 2 ^ 52 + n + 1) → n % 2 = 0) := by
    rcases Nat.lt_or_eq_of_le hn with hlt | htop
    · have hsum : (F64.scaled (e * 2 ^ 52 + n) : ℚ) + F64.scaled (e * 2 ^ 52 + n + 1) = (2 * n + 1) * 2 ^ e := by
        rw [hp, Nat.add_assoc, F64.scaled_mantissa (by omega : n + 1 ≤ 2 ^ 53) (he.imp_right Nat.le_succ_of_le)]
        push_cast
        ring
      rw [hsum, le_iff, eq_iff]
      exact hup hlt
    · have hsucc : (F64.scaled (e * 2 ^ 52 + n) : ℚ) < F64.scaled (e * 2 ^ 52 + n + 1) := by
        exact_mod_cast F64.scaled_lt_succ _
      have hle := (le_iff (2 * n)).2 (hcarry htop)
      rw [hp] at hsucc ⊢
      exact ⟨by linarith, fun heq => by linarith⟩
  have lower : ∀ p', e * 2 ^ 52 + n = p' + 1 →
      (F64.scaled p' : ℚ) + F64.scaled (e * 2 ^ 52 + n) ≤ 2 * x ∧
        ((F64.scaled p' : ℚ) + F64.scaled (e * 2 ^ 52 + n) = 2 * x → n % 2 = 0) := by
    intro p' hp'
    by_cases hend : n = 2 ^ 52 ∧ e ≠ 0
    · have hpred : (F64.scaled p' : ℚ) < F64.scaled (e * 2 ^ 52 + n) := by
        rw [hp']; exact_mod_cast F64.scaled_lt_succ _
      have hle := (ge_iff (2 * n)).2 (hbinade hend.1 hend.2)
      rw [hp] at hpred ⊢
      exact ⟨by linarith, fun heq => by linarith⟩
    · obtain ⟨n', rfl⟩ := Nat.exists_eq_succ_of_ne_zero (by omega : n ≠ 0)
      obtain rfl : p' = e * 2 ^ 52 + n' := by omega
      have hsum : (F64.scaled (e * 2 ^ 52 + n') : ℚ) + F64.scaled (e * 2 ^ 52 + (n' + 1)) =
          (2 * ((n' + 1 : Nat) : ℚ) - 1) * 2 ^ e := by
        rw [F64.scaled_mantissa (by omega : n' ≤ 2 ^ 53) (by omega), F64.scaled_mantissa hn he]
        push_cast
        ring
      rw [hsum, ge_iff, eq_comm, eq_iff, eq_comm]
      exact hlow
  exact
    { upper := upper.1, upperTie := fun h => heven (upper.2 h)
      lower := fun p' hp' => (lower p' hp').1, lowerTie := fun p' hp' h => heven ((lower p' hp').2 h) }

/-- `z` is on the same side as `m` of every multiple of `u`, so that rounding to a multiple of `2 * u` cannot tell them
apart. -/
def SameSides (m u : Nat) (z : ℚ) : Prop :=
  ∀ t : Nat, (m ≤ t * u ↔ z ≤ t * u) ∧ (t * u ≤ m ↔ (t * u : ℚ) ≤ z)

theorem sameSides_self (m u : Nat) : SameSides m u m := fun t => by
  constructor <;> exact_mod_cast Iff.rfl

theorem SameSides.eq_iff {m u : Nat} {z : ℚ} (h : SameSides m u z) (t : Nat) : m = t * u ↔ z = t * u := by
  obtain ⟨hle, hge⟩ := h t
  rw [le_antisymm_iff, hle, hge, ← le_antisymm_iff]

/-- How many bits `F64.round` drops of the scaled mantissa `m`, and the exponent it keeps: below the least exponent it
drops more. -/
theorem F64.isNearest_shiftRoundEven {m e b k : Nat} {x z : ℚ} (hm : m ≠ 0)
    (hr : max (m.log2 - 52) (b - e) = k + 1) (hz : SameSides m (2 ^ k) z) (hx : x = z * 2 ^ e / 2 ^ b) :
    F64.IsNearest ((e + (k + 1) - b) * 2 ^ 52 + F64.shiftRoundEven m (k + 1)) x := by
  have hdouble : 2 ^ (k + 1) = 2 * 2 ^ k := Nat.pow_succ'
  have hbits : m < 2 ^ 53 * 2 ^ (k + 1) := by
    rw [← pow_add]
    exact Nat.lt_log2_self.trans_le (Nat.pow_le_pow_right (by decide) (by omega))
  have hnormal : e + (k + 1) - b ≠ 0 → 2 ^ 52 * 2 ^ (k + 1) ≤ m := by
    intro hexp
    rw [← pow_add, show 52 + (k + 1) = m.log2 by omega]
    exact Nat.log2_self_le hm
  have hscale : 2 * x * ((2 ^ k : Nat) : ℚ) = z * 2 ^ (e + (k + 1) - b) := by
    have hexp : (2 : ℚ) ^ (e + (k + 1) - b) * 2 ^ b = 2 * 2 ^ k * 2 ^ e := by
      rw [← pow_add, ← pow_succ', ← pow_add]
      congr 1
      omega
    have hb : (2 : ℚ) ^ b ≠ 0 := pow_ne_zero _ two_ne_zero
    rw [hx, ← mul_left_inj' hb, mul_assoc z, hexp]
    push_cast
    field_simp
  obtain ⟨⟨hup, hupTie⟩, hlow, hlowTie⟩ := F64.shiftRoundEven_bounds m k
  have hle := F64.shiftRoundEven_le hbits
  have hge : e + (k + 1) - b ≠ 0 → 2 ^ 52 ≤ F64.shiftRoundEven m (k + 1) := fun h => F64.le_shiftRoundEven (hnormal h)
  generalize F64.shiftRoundEven m (k + 1) = n at hup hupTie hlow hlowTie hle hge
  generalize e + (k + 1) - b = e' at hnormal hscale hge
  rw [hdouble] at hbits hnormal
  have htwice : ∀ t, 2 * (2 ^ k * t) = 2 * t * 2 ^ k := fun t => by ring
  rw [htwice] at hup hupTie hlow hlowTie
  refine F64.isNearest_of_mantissa (u := 2 ^ k) (Nat.two_pow_pos k) hscale hle (by omega) (fun _ => ?_) (fun htop => ?_)
    ?_ (fun hbottom hexp => ?_)
  · obtain ⟨h₁, -⟩ := hz (2 * n + 1)
    have h₂ := hz.eq_iff (2 * n + 1)
    push_cast at h₁ h₂ ⊢
    rw [← h₁, ← h₂]
    exact ⟨by linarith, fun h => hupTie (by linarith)⟩
  · obtain ⟨h₁, -⟩ := hz (2 * n)
    push_cast at h₁ ⊢
    rw [← h₁, htop]
    omega
  · cases n with
    | zero =>
      have hz' : (0 : ℚ) ≤ z := by simpa using (hz 0).2
      have hu : (0 : ℚ) < 2 ^ k := pow_pos two_pos k
      push_cast
      exact ⟨by linarith, fun _ => trivial⟩
    | succ n =>
      obtain ⟨-, h₁⟩ := hz (2 * n + 1)
      have h₂ := hz.eq_iff (2 * n + 1)
      have hcast : 2 * ((n + 1 : Nat) : ℚ) - 1 = 2 * n + 1 := by push_cast; ring
      push_cast at h₁ h₂ hcast ⊢
      rw [hcast, ← h₁, eq_comm, ← h₂]
      exact ⟨by linarith, fun h => hlowTie (by linarith)⟩
  · obtain ⟨-, h₁⟩ := hz (2 * n)
    have := hnormal hexp
    push_cast at h₁ ⊢
    rw [← h₁, hbottom]
    omega

/-! ### `F64.round` -/

theorem F64.round_zero (s : Bool) (e b : Nat) : F64.round s 0 e b = F64.zero s := if_pos rfl

/-- The sign of a rounded number is the one given, that of a zero and of an infinity too. -/
theorem F64.sign_round (s : Bool) (m e b : Nat) : F64.sign (F64.round s m e b) = s := by
  unfold F64.round
  split
  · exact F64.sign_zero s
  · exact F64.sign_pack s _

/-- `F64.round` rounds every number that lies on the same side as `m` of the numbers it can round at. These are
multiples of `2^(−52)` of a mantissa of at least one bit; of 55 bits or more they are even numbers. -/
theorem F64.rounds_round_of_sameSides (s : Bool) {m e b : Nat} {z : ℚ} (hm : m ≠ 0) (hb : 1010 ≤ b) (hpos : 0 < z)
    (hz : ∀ k, (m * 2 ^ 64).log2 - 52 ≤ k + 1 → SameSides (m * 2 ^ 64) (2 ^ k) (z * 2 ^ 64)) :
    F64.rounds (signFactor s * (z * 2 ^ e / 2 ^ b)) (F64.round s m e b) := by
  have hm' : m * 2 ^ 64 ≠ 0 := Nat.mul_ne_zero hm (by decide)
  have hlog : 64 ≤ (m * 2 ^ 64).log2 := (Nat.le_log2 hm').2 (Nat.le_mul_of_pos_left _ (Nat.pos_of_ne_zero hm))
  obtain ⟨k, hk⟩ : ∃ k, max ((m * 2 ^ 64).log2 - 52) (b + 64 - 1074 - e) = k + 1 :=
    Nat.exists_eq_succ_of_ne_zero (by omega)
  have hround : F64.round s m e b =
      F64.pack s ((e + (k + 1) - (b + 64 - 1074)) * 2 ^ 52 + F64.shiftRoundEven (m * 2 ^ 64) (k + 1)) := by
    simp only [F64.round, if_neg hm, hk]
  have hunits : z * 2 ^ 64 * 2 ^ e / 2 ^ (b + 64 - 1074) / 2 ^ 1074 = z * 2 ^ e / 2 ^ b := by
    have hexp : (2 : ℚ) ^ (b + 64 - 1074) * 2 ^ 1074 = 2 ^ b * 2 ^ 64 := by
      rw [← pow_add, ← pow_add]
      congr 1
      omega
    rw [div_div, hexp, mul_right_comm, mul_div_mul_right _ _ (pow_ne_zero 64 two_ne_zero)]
  have hnearest := F64.isNearest_shiftRoundEven (e := e) (b := b + 64 - 1074) hm' hk (hz k (by omega)) rfl
  rw [hround, ← hunits, ← mul_div_assoc]
  exact F64.rounds_pack hnearest (by positivity) s

/-- `F64.round` rounds `(−1)^s * m * 2^e / 2^b`. -/
theorem F64.rounds_round (s : Bool) (m e : Nat) {b : Nat} (hb : 1010 ≤ b) :
    F64.rounds (signFactor s * (m * 2 ^ e / 2 ^ b)) (F64.round s m e b) := by
  rcases Nat.eq_zero_or_pos m with rfl | hm
  · rw [F64.round_zero]
    have hvalue : F64.value (F64.zero s) = 0 := by
      rw [F64.value_eq (by cases s <;> decide), F64.magnitude_zero, show F64.scaled 0 = 0 from rfl, Nat.cast_zero,
        mul_zero, zero_div]
    simp only [Nat.cast_zero, zero_mul, zero_div, mul_zero]
    refine .inl ⟨by cases s <;> decide, ?_, fun z _ => ?_⟩
    · rw [abs_zero, sub_pos]
      exact pow_lt_pow_right₀ one_lt_two (by decide)
    · rw [hvalue, sub_zero, abs_zero, sub_zero]
      exact ⟨abs_nonneg _, fun h => .inl (abs_eq_zero.1 h)⟩
  · refine F64.rounds_round_of_sameSides s hm.ne' hb (by exact_mod_cast hm) fun k _ => ?_
    exact_mod_cast sameSides_self (m * 2 ^ 64) (2 ^ k)

end Sys2Proof.Machine
end

section
/-!
PROOFS. The four operations on every pair of patterns (`00_scope.md` R10 to R12), and the numeric parameters (R6, R8).
-/

namespace Sys2Proof.Machine

/-! ### A finite pattern taken apart -/

/-- The fields of a finite pattern: its value, a zero mantissa only in a zero, and a mantissa of at most 53 bits. -/
theorem F64.unpack_finite {x : F64} (h : F64.isFinite x = true) :
    ∃ m e, F64.unpack x = .fin (F64.sign x) m e ∧ F64.value x = signFactor (F64.sign x) * (m * 2 ^ e / 2 ^ 1074) ∧
      (m = 0 ↔ F64.isZero x = true) ∧ m < 2 ^ 53 := by
  obtain ⟨m, e, hunpack, hscaled⟩ := F64.unpack_of_isFinite h
  refine ⟨m, e, hunpack, ?_, ?_, ?_⟩
  · rw [F64.value_eq h, ← hscaled, mul_div_assoc]
    push_cast
    rfl
  · have hzero : F64.scaled (F64.magnitude x) = 0 ↔ F64.magnitude x = 0 := by
      have := F64.scaled_lt_scaled_iff 0 (F64.magnitude x)
      rw [show F64.scaled 0 = 0 from rfl] at this
      omega
    rw [F64.isZero, beq_iff_eq, ← hzero, ← hscaled, Nat.mul_eq_zero, or_iff_left (Nat.two_pow_pos e).ne']
  · unfold F64.unpack at hunpack
    dsimp only at hunpack
    split_ifs at hunpack <;> cases hunpack <;> omega

theorem F64.unpack_inf (s : Bool) : F64.unpack (F64.inf s) = .inf s := by cases s <;> decide

theorem F64.value_eq_zero_iff {x : F64} (h : F64.isFinite x = true) : F64.value x = 0 ↔ F64.isZero x = true := by
  obtain ⟨m, e, -, hvalue, hzero, -⟩ := F64.unpack_finite h
  have hfactor : signFactor (F64.sign x) ≠ 0 := by cases F64.sign x <;> norm_num [signFactor]
  rw [hvalue, ← hzero, mul_eq_zero, or_iff_right hfactor, div_eq_zero_iff, or_iff_left (pow_ne_zero _ two_ne_zero),
    mul_eq_zero, or_iff_left (pow_ne_zero _ two_ne_zero), Nat.cast_eq_zero]

theorem F64.isFinite_zero (s : Bool) : F64.isFinite (F64.zero s) = true := by cases s <;> decide

theorem F64.isZero_zero (s : Bool) : F64.isZero (F64.zero s) = true := by cases s <;> decide

theorem F64.value_zero (s : Bool) : F64.value (F64.zero s) = 0 :=
  (F64.value_eq_zero_iff (F64.isFinite_zero s)).2 (F64.isZero_zero s)

/-- A pattern is a NaN, an infinity or finite. -/
theorem F64.isNaN_or_inf_or_finite (x : F64) :
    F64.isNaN x = true ∨ (∃ s, x = F64.inf s) ∨ F64.isFinite x = true := by
  rcases lt_trichotomy (F64.magnitude x) 0x7FF0000000000000 with hlt | heq | hgt
  · exact .inr (.inr ((F64.isFinite_iff x).2 hlt))
  · refine .inr (.inl ⟨F64.sign x, F64.eq_of_sign_magnitude (F64.sign_inf _).symm ?_⟩)
    rw [heq]
    cases F64.sign x <;> decide
  · exact .inl (decide_eq_true hgt)

/-! ### Unary minus (`00_scope.md` R10) -/

theorem F64.sign_neg (x : F64) : F64.sign (F64.neg x) = !F64.sign x := by
  rw [F64.sign, F64.neg, BitVec.msb_xor, show (0x8000000000000000#64).msb = true by decide, Bool.xor_true]
  rfl

theorem F64.magnitude_neg (x : F64) : F64.magnitude (F64.neg x) = F64.magnitude x := by
  simp only [F64.magnitude, F64.neg, ← BitVec.toNat_setWidth]
  congr 1
  ext i hi
  simp

theorem F64.isFinite_neg (x : F64) : F64.isFinite (F64.neg x) = F64.isFinite x := by
  simp only [F64.isFinite, F64.magnitude_neg]

theorem F64.value_neg {x : F64} (h : F64.isFinite x = true) : F64.value (F64.neg x) = -F64.value x := by
  rw [F64.value_eq h, F64.value_eq ((F64.isFinite_neg x).trans h), F64.sign_neg, F64.magnitude_neg]
  cases F64.sign x <;> simp [neg_div]

/-! ### The sum -/

section
variable {x y : F64} (hx : F64.isFinite x = true) (hy : F64.isFinite y = true)

/-- An exact sum in units of its least exponent. -/
theorem sum_scaled (a b : ℚ) {m e n f : Nat} :
    a * (m * 2 ^ e / 2 ^ 1074) + b * (n * 2 ^ f / 2 ^ 1074) =
      (a * (m * 2 ^ (e - min e f) : Nat) + b * (n * 2 ^ (f - min e f) : Nat)) * 2 ^ min e f / 2 ^ 1074 := by
  have he : (2 : ℚ) ^ e = 2 ^ (e - min e f) * 2 ^ min e f := by rw [← pow_add]; congr 1; omega
  have hf : (2 : ℚ) ^ f = 2 ^ (f - min e f) * 2 ^ min e f := by rw [← pow_add]; congr 1; omega
  rw [he, hf]
  generalize (2 : ℚ) ^ 1074 = u
  push_cast
  ring

/-- What the sum of two finite values is: rounded, a zero with its sign, or a nonzero with its sign. -/
structure IsFiniteSum (s t : Bool) (q : ℚ) (r : F64) : Prop where
  rounded : F64.rounds q r
  zero : q = 0 → r = F64.zero (s && t)
  sign : q ≠ 0 → F64.sign r = decide (q < 0)

theorem isFiniteSum_round {s t u : Bool} {a e : Nat} {q : ℚ} (hq : q = signFactor u * (a * 2 ^ e / 2 ^ 1074))
    (hzero : a = 0 → u = (s && t)) : IsFiniteSum s t q (F64.round u a e 1074) := by
  have hunit : (0 : ℚ) < 2 ^ e / 2 ^ 1074 := div_pos (pow_pos two_pos _) (pow_pos two_pos _)
  rw [mul_div_assoc] at hq
  have hqzero : q = 0 ↔ a = 0 := by
    have hfactor : signFactor u ≠ 0 := by cases u <;> norm_num [signFactor]
    rw [hq, mul_eq_zero, or_iff_right hfactor, mul_eq_zero, or_iff_left hunit.ne', Nat.cast_eq_zero]
  refine ⟨?_, fun h => ?_, fun h => ?_⟩
  · rw [hq, ← mul_div_assoc]
    exact F64.rounds_round u a e (by decide)
  · rw [hqzero.1 h, F64.round_zero, ← hzero (hqzero.1 h)]
  · have ha : (0 : ℚ) < a := Nat.cast_pos.2 (Nat.pos_of_ne_zero (mt hqzero.2 h))
    have hpos := mul_pos ha hunit
    rw [F64.sign_round, hq]
    cases u
    · exact (decide_eq_false (by rw [signFactor_false, one_mul]; exact hpos.le.not_gt)).symm
    · exact (decide_eq_true (by rw [signFactor_true, neg_one_mul]; exact neg_neg_of_pos hpos)).symm

/-- Equal signs add the magnitudes, unequal ones subtract the smaller from the greater. -/
theorem isFiniteSum_addFinite (s t : Bool) (m e n f : Nat) :
    IsFiniteSum s t (signFactor s * (m * 2 ^ e / 2 ^ 1074) + signFactor t * (n * 2 ^ f / 2 ^ 1074))
      (F64.addFinite s m e t n f) := by
  rw [sum_scaled]
  simp only [F64.addFinite]
  generalize m * 2 ^ (e - min e f) = a
  generalize n * 2 ^ (f - min e f) = b
  split_ifs with hsign heq hlt
  · subst hsign
    refine isFiniteSum_round ?_ fun _ => (Bool.and_self s).symm
    generalize (2 : ℚ) ^ 1074 = u
    push_cast
    ring
  · subst heq
    have hfactors : signFactor s + signFactor t = 0 := by revert hsign; cases s <;> cases t <;> simp
    have hand : (s && t) = false := by revert hsign; cases s <;> cases t <;> simp
    have hround := isFiniteSum_round (s := s) (t := t) (u := false) (a := 0) (e := 0) (q := 0) (by simp) fun _ =>
      hand.symm
    rw [← add_mul, hfactors, zero_mul, zero_mul, zero_div]
    exact hround
  · refine isFiniteSum_round ?_ fun hzero => by omega
    have hfactors : signFactor t = -signFactor s := by revert hsign; cases s <;> cases t <;> simp
    rw [hfactors, Nat.cast_sub hlt.le]
    generalize (2 : ℚ) ^ 1074 = u
    ring
  · refine isFiniteSum_round ?_ fun hzero => by omega
    have hfactors : signFactor s = -signFactor t := by revert hsign; cases s <;> cases t <;> simp
    rw [hfactors, Nat.cast_sub (by omega)]
    generalize (2 : ℚ) ^ 1074 = u
    ring

include hx hy in
theorem F64.isFiniteSum_add (d : F64) :
    IsFiniteSum (F64.sign x) (F64.sign y) (F64.value x + F64.value y) (F64.add d x y) := by
  obtain ⟨m, e, hux, hvx, -⟩ := F64.unpack_finite hx
  obtain ⟨n, f, huy, hvy, -⟩ := F64.unpack_finite hy
  rw [F64.add, hux, huy, hvx, hvy]
  exact isFiniteSum_addFinite _ _ m e n f

theorem F64.isSum_add (d x y : F64) : F64.IsSum d x y (F64.add d x y) where
  nan h := h.elim F64.add_left_nan F64.add_right_nan
  infInf s t hx hy := by rw [hx, hy, F64.add, F64.unpack_inf, F64.unpack_inf]
  infFinite s hx hy := by
    obtain ⟨n, f, huy, -⟩ := F64.unpack_finite hy
    rw [hx, F64.add, F64.unpack_inf, huy]
  finiteInf t hx hy := by
    obtain ⟨m, e, hux, -⟩ := F64.unpack_finite hx
    rw [hy, F64.add, F64.unpack_inf, hux]
  rounded hx hy := (F64.isFiniteSum_add hx hy d).rounded
  zero hx hy := (F64.isFiniteSum_add hx hy d).zero
  sign hx hy := (F64.isFiniteSum_add hx hy d).sign

/-! ### The product -/

include hx hy in
theorem F64.rounds_mul (d : F64) : F64.rounds (F64.value x * F64.value y) (F64.mul d x y) ∧
    F64.sign (F64.mul d x y) = (F64.sign x != F64.sign y) := by
  obtain ⟨m, e, hux, hvx, -⟩ := F64.unpack_finite hx
  obtain ⟨n, f, huy, hvy, -⟩ := F64.unpack_finite hy
  have hvalue : F64.value x * F64.value y =
      signFactor (F64.sign x != F64.sign y) * ((m * n : Nat) * 2 ^ (e + f) / 2 ^ 2148) := by
    rw [hvx, hvy, signFactor_xor, pow_add 2 e f, show 2148 = 1074 + 1074 from rfl, pow_add (2 : ℚ) 1074]
    generalize (2 : ℚ) ^ 1074 = u
    push_cast
    field_simp
  rw [F64.mul, hux, huy, hvalue]
  exact ⟨F64.rounds_round _ _ _ (by decide), F64.sign_round _ _ _ _⟩

theorem F64.isProduct_mul (d x y : F64) : F64.IsProduct d x y (F64.mul d x y) where
  nan h := h.elim F64.mul_left_nan F64.mul_right_nan
  infInf s t hx hy := by rw [hx, hy, F64.mul, F64.unpack_inf, F64.unpack_inf]
  infFinite s hx hy := by
    obtain ⟨n, f, huy, -, hzero, -⟩ := F64.unpack_finite hy
    rw [hx, F64.mul, F64.unpack_inf, huy]
    simp only [hzero]
  finiteInf t hx hy := by
    obtain ⟨m, e, hux, -, hzero, -⟩ := F64.unpack_finite hx
    rw [hy, F64.mul, F64.unpack_inf, hux]
    simp only [hzero]
  rounded hx hy := (F64.rounds_mul hx hy d).1
  sign hx hy := (F64.rounds_mul hx hy d).2

/-! ### The quotient -/

/-- A quotient cut off, with a sticky bit: it is on the same side as the exact one of every even number. -/
theorem sameSides_sticky {a n : Nat} (hn : 0 < n) {k : Nat} (hk : 65 ≤ k) :
    SameSides ((2 * (a / n) + if a % n = 0 then 0 else 1) * 2 ^ 64) (2 ^ k) (2 * (a / n : ℚ) * 2 ^ 64) := by
  obtain ⟨j, rfl⟩ := Nat.exists_eq_add_of_le hk
  have hn' : (0 : ℚ) < n := Nat.cast_pos.2 hn
  have hmod := Nat.mod_lt a hn
  have hdiv : n * (a / n) + a % n = a := Nat.div_add_mod a n
  intro t
  have hpow : t * 2 ^ (65 + j) = 2 * (t * 2 ^ j) * 2 ^ 64 := by rw [pow_add]; ring
  have hpow' : (t : ℚ) * ((2 ^ (65 + j) : Nat) : ℚ) = 2 * ((t * 2 ^ j : Nat) : ℚ) * 2 ^ 64 := by
    rw [pow_add]; push_cast; ring
  rw [hpow, hpow']
  generalize t * 2 ^ j = w
  have hle : 2 * (a / n : ℚ) * 2 ^ 64 ≤ 2 * (w : ℚ) * 2 ^ 64 ↔ a ≤ n * w := by
    rw [mul_le_mul_iff_left₀ (by norm_num), mul_le_mul_iff_right₀ (by norm_num), div_le_iff₀ hn', mul_comm (w : ℚ)]
    exact_mod_cast Iff.rfl
  have hge : 2 * (w : ℚ) * 2 ^ 64 ≤ 2 * (a / n : ℚ) * 2 ^ 64 ↔ n * w ≤ a := by
    rw [mul_le_mul_iff_left₀ (by norm_num), mul_le_mul_iff_right₀ (by norm_num), le_div_iff₀ hn', mul_comm (w : ℚ)]
    exact_mod_cast Iff.rfl
  have hge' : n * w ≤ a ↔ w ≤ a / n := by rw [Nat.le_div_iff_mul_le hn, Nat.mul_comm]
  rw [hle, hge, hge']
  generalize a / n = q at hdiv hge'
  constructor
  · rcases Nat.lt_or_ge q w with hlt | hle
    · have hmul : n * (q + 1) ≤ n * w := Nat.mul_le_mul_left n hlt
      rw [Nat.mul_succ] at hmul
      split <;> omega
    · have hmul : n * w ≤ n * q := Nat.mul_le_mul_left n hle
      split
      · next hzero =>
        rw [Nat.mul_le_mul_right_iff (by decide)]
        constructor
        · intro h
          obtain rfl : q = w := by omega
          omega
        · intro h
          have : n * q ≤ n * w := by omega
          have := Nat.le_of_mul_le_mul_left this hn
          omega
      · omega
  · split <;> omega

include hx hy in
theorem F64.rounds_div (d : F64) (hzero : F64.isZero y = false) :
    F64.rounds (F64.value x / F64.value y) (F64.div d x y) ∧
      F64.sign (F64.div d x y) = (F64.sign x != F64.sign y) := by
  obtain ⟨m, e, hux, hvx, hmzero, -⟩ := F64.unpack_finite hx
  obtain ⟨n, f, huy, hvy, hnzero, hnlt⟩ := F64.unpack_finite hy
  have hn : n ≠ 0 := by rw [ne_eq, hnzero, hzero]; decide
  rw [F64.div, hux, huy]
  simp only [if_neg hn]
  split
  · next hm =>
    have hround := F64.rounds_round (F64.sign x != F64.sign y) 0 0 (b := 1074) (by decide)
    rw [F64.round_zero] at hround
    have hvalue : F64.value x / F64.value y =
        signFactor (F64.sign x != F64.sign y) * ((0 : Nat) * 2 ^ 0 / 2 ^ 1074) := by
      rw [hvx, hm]; simp
    exact ⟨hvalue ▸ hround, F64.sign_zero _⟩
  · next hm =>
    refine ⟨?_, F64.sign_round _ _ _ _⟩
    have hn' : (0 : ℚ) < n := Nat.cast_pos.2 (Nat.pos_of_ne_zero hn)
    have hm' : (0 : ℚ) < m := Nat.cast_pos.2 (Nat.pos_of_ne_zero hm)
    have hvalue : F64.value x / F64.value y = signFactor (F64.sign x != F64.sign y) *
        (2 * (((m * 2 ^ 120 : Nat) : ℚ) / n) * 2 ^ (e + 1074) / 2 ^ (f + 121 + 1074)) := by
      rw [hvx, hvy, signFactor_xor, pow_add _ e, pow_add _ (f + 121), pow_add _ f]
      have hsq : signFactor (F64.sign y) * signFactor (F64.sign y) = 1 := by
        cases F64.sign y <;> norm_num [signFactor]
      have hinv : (signFactor (F64.sign y))⁻¹ = signFactor (F64.sign y) := inv_eq_of_mul_eq_one_left hsq
      have hu : (2 : ℚ) ^ 1074 ≠ 0 := pow_ne_zero _ two_ne_zero
      rw [mul_div_mul_comm, div_eq_mul_inv (signFactor (F64.sign x)), hinv]
      congr 1
      generalize (2 : ℚ) ^ 1074 = u at hu
      push_cast
      field_simp
      norm_num
    have hquotient : 2 ^ 67 ≤ m * 2 ^ 120 / n := by
      rw [Nat.le_div_iff_mul_le (Nat.pos_of_ne_zero hn)]
      have : 1 ≤ m := Nat.pos_of_ne_zero hm
      omega
    rw [hvalue]
    refine F64.rounds_round_of_sameSides _ (by omega) (by omega) (by positivity) fun k hk => ?_
    refine sameSides_sticky (Nat.pos_of_ne_zero hn) ?_
    have hlog : 131 ≤ ((2 * (m * 2 ^ 120 / n) + if m * 2 ^ 120 % n = 0 then 0 else 1) * 2 ^ 64).log2 := by
      rw [Nat.le_log2 (by omega)]
      omega
    omega

theorem F64.isQuotient_div (d x y : F64) : F64.IsQuotient d x y (F64.div d x y) where
  nan h := h.elim F64.div_left_nan F64.div_right_nan
  infInf s t hx hy := by rw [hx, hy, F64.div, F64.unpack_inf, F64.unpack_inf]
  infFinite s hx hy := by
    obtain ⟨n, f, huy, -⟩ := F64.unpack_finite hy
    rw [hx, F64.div, F64.unpack_inf, huy]
  finiteInf t hx hy := by
    obtain ⟨m, e, hux, -⟩ := F64.unpack_finite hx
    rw [hy, F64.div, F64.unpack_inf, hux]
  byZero hx hy := by
    obtain ⟨m, e, hux, -, hmzero, -⟩ := F64.unpack_finite hx
    have hfin : F64.isFinite y = true := by
      rw [F64.isFinite_iff, eq_of_beq hy]
      decide
    obtain ⟨n, f, huy, -, hnzero, -⟩ := F64.unpack_finite hfin
    rw [F64.div, hux, huy]
    simp only [hmzero, hnzero, if_pos hy]
  rounded hx hy hzero := (F64.rounds_div hx hy d hzero).1
  sign hx hy hzero := (F64.rounds_div hx hy d hzero).2

end

/-- Settles O37: each operation's cases, and its exact result rounded where both operands are finite. -/
theorem arithmeticRoundsToNearestEven : Obligations.ArithmeticRoundsToNearestEven := by
  refine ⟨fun d x y hx hy => ⟨?sum, ?difference, ?product, ?quotient⟩,
    fun d x y => ⟨F64.isSum_add d x y, F64.isSum_add d x (F64.neg y), F64.isProduct_mul d x y,
      F64.isQuotient_div d x y⟩,
    fun x => ⟨F64.sign_neg x, F64.magnitude_neg x⟩⟩
  case sum => exact (F64.isFiniteSum_add hx hy d).rounded
  case difference =>
    have hround := (F64.isFiniteSum_add hx ((F64.isFinite_neg y).trans hy) d).rounded
    rwa [F64.value_neg hy, ← sub_eq_add_neg] at hround
  case product => exact (F64.rounds_mul hx hy d).1
  case quotient => exact fun hzero => (F64.rounds_div hx hy d hzero).1

end Sys2Proof.Machine
end

section
/-!
PROOFS. Exact results: where a number is a binary64 value the rounded result is that value (`00_scope.md` R8, R10), and
the numeric parameters with their draws (R6, R12).
-/

namespace Sys2Proof.Machine

/-! ### A number that is a value is rounded to itself -/

/-- Every finite value lies below the bound from which numbers round to infinity. -/
theorem F64.abs_value_lt {x : F64} (h : F64.isFinite x = true) : |F64.value x| < 2 ^ 1024 - 2 ^ 970 := by
  have hunit : (0 : ℚ) < 2 ^ 1074 := pow_pos two_pos _
  have hle : (F64.scaled (F64.magnitude x) : ℚ) ≤ F64.scaled 0x7FEFFFFFFFFFFFFF := by
    have hlt := (F64.isFinite_iff x).1 h
    exact_mod_cast F64.scaled_le_scaled (by omega)
  have hbound : ((2 : ℚ) ^ 1024 - 2 ^ 970) * 2 ^ 1074 = (2 ^ 54 - 1) * 2 ^ 2044 := by
    rw [sub_mul, sub_mul, one_mul, ← pow_add, ← pow_add, ← pow_add]
  have hpos : (0 : ℚ) < 2 ^ 2044 := pow_pos two_pos _
  rw [F64.scaled_max] at hle
  rw [F64.value_eq h, abs_div, abs_signFactor_mul, abs_of_pos hunit, abs_of_nonneg (Nat.cast_nonneg _),
    div_lt_iff₀ hunit, hbound]
  generalize (2 : ℚ) ^ 2044 = u at hle hpos ⊢
  linarith

/-- A finite value is rounded to itself. -/
theorem F64.rounds_value {z r : F64} (hz : F64.isFinite z = true) (h : F64.rounds (F64.value z) r) :
    F64.isFinite r = true ∧ F64.value r = F64.value z := by
  rcases h with ⟨hfin, -, hnearest⟩ | ⟨hbig, -⟩
  · obtain ⟨hle, -⟩ := hnearest z hz
    rw [sub_self, abs_zero] at hle
    exact ⟨hfin, sub_eq_zero.1 (abs_eq_zero.1 (le_antisymm hle (abs_nonneg _)))⟩
  · exact absurd (F64.abs_value_lt hz) hbig.not_gt

/-- A nonzero value has one pattern; a zero has one for each sign. -/
theorem F64.eq_of_value_eq {x y : F64} (hx : F64.isFinite x = true) (hy : F64.isFinite y = true)
    (hv : F64.value x = F64.value y) (hs : F64.value x = 0 → F64.sign x = F64.sign y) : x = y := by
  have hkey : F64.key x = F64.key y :=
    le_antisymm ((F64.value_le_value_iff hx hy).1 hv.le) ((F64.value_le_value_iff hy hx).1 hv.ge)
  have hzero : F64.magnitude x = 0 → F64.sign x = F64.sign y := fun hm =>
    hs ((F64.value_eq_zero_iff hx).2 (beq_iff_eq.2 hm))
  have hsign : F64.sign x = F64.sign y := by
    by_cases hm : F64.magnitude x = 0
    · exact hzero hm
    · unfold F64.key at hkey
      split_ifs at hkey with h₁ h₂ h₂
      · rw [h₁, h₂]
      · omega
      · omega
      · rw [Bool.not_eq_true] at h₁ h₂
        rw [h₁, h₂]
  refine F64.eq_of_sign_magnitude hsign ?_
  unfold F64.key at hkey
  rw [hsign] at hkey
  split_ifs at hkey <;> omega

/-! ### Integers (`00_scope.md` R8) -/

/-- A mantissa of up to 53 bits, at any exponent, is some pattern's. -/
theorem F64.exists_scaled_eq (e : Nat) {n : Nat} (hn : n ≤ 2 ^ 53) : ∃ p, F64.scaled p = n * 2 ^ e := by
  induction e generalizing n with
  | zero => exact ⟨0 * 2 ^ 52 + n, F64.scaled_mantissa hn (.inl rfl)⟩
  | succ e ih =>
    rcases Nat.lt_or_ge n (2 ^ 52) with hsmall | hnormal
    · obtain ⟨p, hp⟩ := ih (n := 2 * n) (by omega)
      exact ⟨p, by rw [hp, pow_succ]; ring⟩
    · exact ⟨(e + 1) * 2 ^ 52 + n, F64.scaled_mantissa hn (.inr hnormal)⟩

/-- Every natural number up to 2^53 is a value. -/
theorem F64.exists_value_eq_natCast {k : Nat} (hk : k ≤ 2 ^ 53) :
    ∃ z, F64.isFinite z = true ∧ F64.value z = (k : ℚ) := by
  have hunit : (0 : ℚ) < 2 ^ 1074 := pow_pos two_pos _
  obtain ⟨p, hp⟩ := F64.exists_scaled_eq 1074 hk
  have hcast : (F64.scaled p : ℚ) = k * 2 ^ 1074 := by rw [hp, Nat.cast_mul, Nat.cast_pow, Nat.cast_ofNat]
  have hlt : p < 0x7FF0000000000000 := by
    by_contra hge
    have hle : (F64.scaled 0x7FF0000000000000 : ℚ) ≤ F64.scaled p := by
      exact_mod_cast F64.scaled_le_scaled (Nat.le_of_not_lt hge)
    have hk' : (k : ℚ) ≤ 2 ^ 53 := by exact_mod_cast hk
    have hbig : (2 : ℚ) ^ 54 * 2 ^ 2044 = 2 ^ 1024 * 2 ^ 1074 := by rw [← pow_add, ← pow_add]
    have hpow : (2 : ℚ) ^ 53 < 2 ^ 1024 := pow_lt_pow_right₀ one_lt_two (by decide)
    rw [F64.scaled_inf, hbig, hcast, mul_le_mul_iff_left₀ hunit] at hle
    exact absurd (hle.trans hk') hpow.not_ge
  have hfin := F64.isFinite_pack false hlt
  refine ⟨F64.pack false p, hfin, ?_⟩
  rw [F64.value_eq hfin, F64.sign_pack, F64.magnitude_pack false hlt, hcast, signFactor_false, one_mul,
    mul_div_assoc, div_self hunit.ne', mul_one]

theorem F64.rounds_ofNat (k : Nat) : F64.rounds k (F64.ofNat k) := by
  have hround := F64.rounds_round false k 1074 (b := 1074) (by decide)
  rwa [signFactor_false, one_mul, mul_div_assoc, div_self (pow_ne_zero _ two_ne_zero), mul_one] at hround

theorem F64.isFinite_value_ofNat {k : Nat} (hk : k ≤ 2 ^ 53) :
    F64.isFinite (F64.ofNat k) = true ∧ F64.value (F64.ofNat k) = k := by
  obtain ⟨z, hz, hvalue⟩ := F64.exists_value_eq_natCast hk
  have hround := F64.rounds_ofNat k
  rw [← hvalue] at hround ⊢
  exact F64.rounds_value hz hround

/-- Settles O38: the integer is a value, so it is rounded to itself. -/
theorem integerConversionExact : Obligations.IntegerConversionExact := fun _ => F64.isFinite_value_ofNat

/-! ### The parameter tests, equality and the numeric parameters -/

/-- Settles O9: the two tests, one after the other. -/
theorem parameterTestsAreRanges : Obligations.ParameterTestsAreRanges :=
  ⟨warpLegal_iff_warpInRange, exponentLegal_iff_exponentInRange⟩

/-- Two patterns have one place on the number line where they are the same or both a zero. -/
theorem F64.key_eq_key_iff (x y : F64) :
    F64.key x = F64.key y ↔ x = y ∨ (F64.isZero x = true ∧ F64.isZero y = true) := by
  constructor
  · intro hkey
    by_cases hm : F64.magnitude x = 0
    · have hy : F64.magnitude y = 0 := by
        rw [← F64.key_eq_zero_iff, ← hkey, F64.key_eq_zero_iff]
        exact hm
      exact .inr ⟨beq_iff_eq.2 hm, beq_iff_eq.2 hy⟩
    · refine .inl ?_
      unfold F64.key at hkey
      split_ifs at hkey with hx hy hy
      · exact F64.eq_of_sign_magnitude (hx.trans hy.symm) (by omega)
      · omega
      · omega
      · rw [Bool.not_eq_true] at hx hy
        exact F64.eq_of_sign_magnitude (hx.trans hy.symm) (by omega)
  · rintro (rfl | ⟨hx, hy⟩)
    · rfl
    · rw [(F64.key_eq_zero_iff x).2 (eq_of_beq hx), (F64.key_eq_zero_iff y).2 (eq_of_beq hy)]

/-- Settles O40: equality compares the places of two patterns that are no NaN. -/
theorem equalityIsIeee : Obligations.EqualityIsIeee := by
  intro x y
  rw [F64.eq, Bool.and_eq_true, Bool.and_eq_true, Bool.not_eq_true', Bool.not_eq_true', beq_iff_eq, F64.key_eq_key_iff]

/-- A NaN pattern has every exponent bit set. -/
theorem F64.or_exponent_of_isNaN {x : F64} (h : F64.isNaN x = true) : x ||| 0x7FF0000000000000#64 = x := by
  have hmag : 0x7FF0000000000000 < F64.magnitude x := of_decide_eq_true h
  have hexp : (x.extractLsb' 52 11) = 0x7FF#11 := by
    apply BitVec.eq_of_toNat_eq
    rw [BitVec.extractLsb'_toNat, Nat.shiftRight_eq_div_pow]
    rw [F64.magnitude] at hmag
    have := x.isLt
    show x.toNat / 2 ^ 52 % 2 ^ 11 = 0x7FF
    omega
  apply BitVec.eq_of_getLsbD_eq
  intro i hi
  rw [BitVec.getLsbD_or, Bool.or_eq_left_iff_imp]
  intro hbit
  have hrange : 52 ≤ i ∧ i < 63 := by
    have hall : ∀ j < 64, (0x7FF0000000000000#64).getLsbD j = true → 52 ≤ j ∧ j < 63 := by decide
    exact hall i hi hbit
  have hfield : (x.extractLsb' 52 11).getLsbD (i - 52) = true := by
    have hall : ∀ j < 11, (0x7FF#11).getLsbD j = true := by decide
    rw [hexp]
    exact hall _ (by omega)
  rw [BitVec.getLsbD_extractLsb', show 52 + (i - 52) = i by omega, Bool.and_eq_true] at hfield
  obtain ⟨-, hx⟩ := hfield
  exact hx

/-- Every NaN pattern is drawn, by itself (`00_scope.md` R12). -/
theorem F64.nanOf_of_isNaN {x : F64} (h : F64.isNaN x = true) : F64.nanOf x = x := by
  simp only [F64.nanOf, F64.or_exponent_of_isNaN h, if_pos h]

/-- The machine's parameters obey the laws of R6. -/
theorem numerics_lawful : numerics.Lawful where
  exp_zero s := if_pos (F64.isZero_zero s)
  log_one := by simp [numerics]
  pow_one _ := by simp [numerics]

/-- Settles O39: the laws, the two directions of the draw, and the operations as they are defined. -/
theorem numericsObeyTheLaws : Obligations.NumericsObeyTheLaws :=
  ⟨numerics_lawful, F64.isNaN_nanOf, fun x h => ⟨x, F64.nanOf_of_isNaN h⟩, fun N =>
    ⟨N.isNaN_nan, fun _ _ => ⟨rfl, rfl, rfl, rfl⟩, fun _ => ⟨rfl, rfl, rfl, rfl⟩⟩⟩

end Sys2Proof.Machine
end

section
/-!
PROOFS. Rules of binary64 arithmetic that evaluations with zeros and exact operands use (`00_scope.md` R10, R11).
-/

namespace Sys2Proof.Machine

/-! ### Bounds of a rounded number -/

section
variable {q : ℚ} {r : F64}

/-- A number between two values is rounded to a value between them. -/
theorem F64.rounds_mem {lo hi : F64} (hlo : F64.isFinite lo = true) (hhi : F64.isFinite hi = true)
    (hq : F64.value lo ≤ q ∧ q ≤ F64.value hi) (h : F64.rounds q r) :
    F64.isFinite r = true ∧ F64.value lo ≤ F64.value r ∧ F64.value r ≤ F64.value hi := by
  obtain ⟨hqlo, hqhi⟩ := hq
  rcases h with ⟨hfin, -, hnearest⟩ | ⟨hbig, -⟩
  · refine ⟨hfin, ?_, ?_⟩
    · by_contra hlt
      obtain ⟨hle, -⟩ := hnearest lo hlo
      rw [abs_of_nonpos (by linarith), abs_of_nonpos (by linarith)] at hle
      linarith
    · by_contra hlt
      obtain ⟨hle, -⟩ := hnearest hi hhi
      rw [abs_of_nonneg (by linarith), abs_of_nonneg (by linarith)] at hle
      linarith
  · have hlo' := abs_lt.1 (F64.abs_value_lt hlo)
    have hhi' := abs_lt.1 (F64.abs_value_lt hhi)
    generalize (2 : ℚ) ^ 1024 - 2 ^ 970 = bound at hlo' hhi' hbig
    exact absurd (abs_lt.2 ⟨by linarith, by linarith⟩) hbig.not_gt

theorem F64.isFinite_inf (s : Bool) : F64.isFinite (F64.inf s) = false := by cases s <;> decide

/-- A number is rounded to a finite value where it is below the bound. -/
theorem F64.rounds_isFinite_iff (h : F64.rounds q r) : F64.isFinite r = true ↔ |q| < 2 ^ 1024 - 2 ^ 970 := by
  rcases h with ⟨hfin, hlt, -⟩ | ⟨hbig, rfl⟩
  · exact iff_of_true hfin hlt
  · exact iff_of_false (by rw [F64.isFinite_inf]; decide) hbig.not_gt

/-- Between two points equally far from `q` every point is nearer to `q`. -/
theorem abs_sub_lt_of_between {a b c : ℚ} (hab : a < b) (hbc : b < c) (heq : |c - q| = |a - q|) :
    |b - q| < |a - q| := by
  rcases abs_eq_abs.1 heq with h | h
  · linarith
  · rw [abs_of_neg (by linarith : a - q < 0), abs_lt]
    exact ⟨by linarith, by linarith⟩

/-- Two patterns of one sign whose absolute values are equally near to a number and both even are one. -/
theorem F64.magnitude_le_of_equidistant {r' : F64} (hr : F64.isFinite r = true) (hr' : F64.isFinite r' = true)
    (hs : F64.sign r = F64.sign r') (hnear : ∀ z, F64.isFinite z = true → |F64.value r - q| ≤ |F64.value z - q|)
    (heq : |F64.value r' - q| = |F64.value r - q|) (heven : r.toNat % 2 = r'.toNat % 2) :
    F64.magnitude r' ≤ F64.magnitude r := by
  by_contra hlt
  have hparity : F64.magnitude r % 2 = F64.magnitude r' % 2 := by
    rw [F64.toNat_eq, F64.toNat_eq r'] at heven
    split_ifs at heven <;> omega
  have hmid : F64.magnitude r + 1 < F64.magnitude r' := by omega
  have hmidlt : F64.magnitude r + 1 < 0x7FF0000000000000 := hmid.trans ((F64.isFinite_iff r').1 hr')
  have hmidfin := F64.isFinite_pack (F64.sign r) hmidlt
  have hle := hnear _ hmidfin
  have hunit : (0 : ℚ) < 2 ^ 1074 := pow_pos two_pos _
  have h₁ : (F64.scaled (F64.magnitude r) : ℚ) < F64.scaled (F64.magnitude r + 1) := by
    exact_mod_cast F64.scaled_lt_succ _
  have h₂ : (F64.scaled (F64.magnitude r + 1) : ℚ) < F64.scaled (F64.magnitude r') := by
    exact_mod_cast (F64.scaled_lt_scaled_iff _ _).2 hmid
  rw [F64.value_eq hmidfin, F64.sign_pack, F64.magnitude_pack _ hmidlt] at hle
  rw [F64.value_eq hr'] at heq
  rw [F64.value_eq hr] at hle heq
  rw [← hs] at heq
  have h₁' := div_lt_div_of_pos_right h₁ hunit
  have h₂' := div_lt_div_of_pos_right h₂ hunit
  rw [mul_div_assoc] at hle heq
  rw [mul_div_assoc] at hle heq
  generalize (F64.scaled (F64.magnitude r) : ℚ) / 2 ^ 1074 = a at *
  generalize (F64.scaled (F64.magnitude r + 1) : ℚ) / 2 ^ 1074 = b at *
  generalize (F64.scaled (F64.magnitude r') : ℚ) / 2 ^ 1074 = c at *
  refine absurd hle (not_le.2 ?_)
  generalize F64.sign r = s at heq ⊢
  cases s
  · simp only [signFactor_false, one_mul] at heq ⊢
    exact abs_sub_lt_of_between h₁' h₂' heq
  · simp only [signFactor_true, neg_one_mul] at heq ⊢
    exact (abs_sub_lt_of_between (neg_lt_neg h₂') (neg_lt_neg h₁') heq.symm).trans_eq heq

/-- A number has one rounding of each sign. -/
theorem F64.rounds_unique {r' : F64} (h : F64.rounds q r) (h' : F64.rounds q r') (hs : F64.sign r = F64.sign r') :
    r = r' := by
  rcases h with ⟨hfin, hlt, hnearest⟩ | ⟨hbig, rfl⟩
  · rcases h' with ⟨hfin', -, hnearest'⟩ | ⟨hbig, -⟩
    · have heq : |F64.value r' - q| = |F64.value r - q| :=
        le_antisymm (hnearest' r hfin).1 (hnearest r' hfin').1
      rcases (hnearest r' hfin').2 heq with hvalue | heven
      · exact F64.eq_of_value_eq hfin hfin' hvalue.symm fun _ => hs
      · rcases (hnearest' r hfin).2 heq.symm with hvalue | heven'
        · exact F64.eq_of_value_eq hfin hfin' hvalue fun _ => hs
        · exact F64.eq_of_sign_magnitude hs (le_antisymm
            (F64.magnitude_le_of_equidistant hfin' hfin hs.symm (fun z hz => (hnearest' z hz).1) heq.symm
              (heven'.trans heven.symm))
            (F64.magnitude_le_of_equidistant hfin hfin' hs (fun z hz => (hnearest z hz).1) heq
              (heven.trans heven'.symm)))
    · exact absurd hlt hbig.not_gt
  · rcases h' with ⟨-, hlt, -⟩ | ⟨-, rfl⟩
    · exact absurd hlt hbig.not_gt
    · rfl

end

/-! ### Zeros -/

section
variable {d x y z : F64}

theorem F64.isFinite_of_isZero (h : F64.isZero z = true) : F64.isFinite z = true := by
  rw [F64.isFinite_iff, eq_of_beq h]
  decide

theorem F64.eq_zero_of_isZero (h : F64.isZero z = true) : z = F64.zero (F64.sign z) :=
  F64.eq_of_sign_magnitude (F64.sign_zero _).symm ((eq_of_beq h).trans (F64.magnitude_zero _).symm)

theorem F64.value_of_isZero (h : F64.isZero z = true) : F64.value z = 0 :=
  (F64.value_eq_zero_iff (F64.isFinite_of_isZero h)).2 h

theorem F64.isZero_neg (h : F64.isZero z = true) : F64.isZero (F64.neg z) = true := by
  rwa [F64.isZero, F64.magnitude_neg]

/-- A number rounded to the value zero. -/
theorem F64.isZero_of_rounds_zero {r : F64} (h : F64.rounds 0 r) : F64.isZero r = true := by
  rw [← F64.value_zero false] at h
  obtain ⟨hfin, hvalue⟩ := F64.rounds_value (F64.isFinite_zero false) h
  exact (F64.value_eq_zero_iff hfin).1 (hvalue.trans (F64.value_zero false))

/-- `y` is `x`, but that a −0.0 may be +0.0. -/
def F64.Keeps (x y : F64) : Prop := y = x ∨ (x = F64.zero true ∧ y = F64.zero false)

theorem F64.Keeps.value (h : F64.Keeps x y) : F64.value y = F64.value x := by
  rcases h with rfl | ⟨rfl, rfl⟩
  · rfl
  · rw [F64.value_zero, F64.value_zero]

theorem F64.Keeps.isFinite (h : F64.Keeps x y) (hx : F64.isFinite x = true) : F64.isFinite y = true := by
  rcases h with rfl | ⟨-, rfl⟩
  · exact hx
  · exact F64.isFinite_zero _

theorem F64.Keeps.isZero (h : F64.Keeps x y) (hx : F64.isZero x = true) : F64.isZero y = true := by
  rcases h with rfl | ⟨-, rfl⟩
  · exact hx
  · exact F64.isZero_zero _

theorem F64.Keeps.trans (h : F64.Keeps x y) (h' : F64.Keeps y z) : F64.Keeps x z := by
  rcases h with rfl | ⟨rfl, rfl⟩
  · exact h'
  · rcases h' with rfl | ⟨hzero, -⟩
    · exact .inr ⟨rfl, rfl⟩
    · exact absurd (congrArg F64.sign hzero) (by decide)

/-- A zero added to a value keeps it. -/
theorem F64.keeps_add (hx : F64.isFinite x = true) (hz : F64.isZero z = true) : F64.Keeps x (F64.add d x z) := by
  have hzfin := F64.isFinite_of_isZero hz
  have hsum := F64.isSum_add d x z
  have hround := hsum.rounded hx hzfin
  rw [F64.value_of_isZero hz, add_zero] at hround
  obtain ⟨hfin, hvalue⟩ := F64.rounds_value hx hround
  by_cases hxz : F64.isZero x = true
  · have hzero := hsum.zero hx hzfin (by rw [F64.value_of_isZero hz, F64.value_of_isZero hxz, add_zero])
    rw [hzero, F64.eq_zero_of_isZero hxz, F64.sign_zero]
    cases F64.sign x
    · exact .inl rfl
    · cases F64.sign z
      · exact .inr ⟨rfl, rfl⟩
      · exact .inl rfl
  · refine .inl (F64.eq_of_value_eq hfin hx hvalue fun hr => absurd ?_ hxz)
    exact (F64.value_eq_zero_iff hx).1 (hvalue.symm.trans hr)

theorem F64.keeps_sub (hx : F64.isFinite x = true) (hz : F64.isZero z = true) : F64.Keeps x (F64.sub d x z) :=
  F64.keeps_add hx (F64.isZero_neg hz)

theorem F64.isZero_add (hx : F64.isZero x = true) (hz : F64.isZero z = true) : F64.isZero (F64.add d x z) = true :=
  (F64.keeps_add (F64.isFinite_of_isZero hx) hz).isZero hx

theorem F64.isZero_sub (hx : F64.isZero x = true) (hz : F64.isZero z = true) : F64.isZero (F64.sub d x z) = true :=
  F64.isZero_add hx (F64.isZero_neg hz)

/-- A zero times a value is a zero. -/
theorem F64.isZero_mul_left (hz : F64.isZero z = true) (hx : F64.isFinite x = true) :
    F64.isZero (F64.mul d z x) = true := by
  have hround := (F64.isProduct_mul d z x).rounded (F64.isFinite_of_isZero hz) hx
  rw [F64.value_of_isZero hz, zero_mul] at hround
  exact F64.isZero_of_rounds_zero hround

theorem F64.isZero_mul_right (hx : F64.isFinite x = true) (hz : F64.isZero z = true) :
    F64.isZero (F64.mul d x z) = true := by
  have hround := (F64.isProduct_mul d x z).rounded hx (F64.isFinite_of_isZero hz)
  rw [F64.value_of_isZero hz, mul_zero] at hround
  exact F64.isZero_of_rounds_zero hround

/-- A zero times an infinity or a NaN is the draw. -/
theorem F64.mul_zero_not_finite (hz : F64.isZero z = true) (hx : F64.isFinite x = false) : F64.mul d z x = d := by
  rcases F64.isNaN_or_inf_or_finite x with hnan | ⟨s, rfl⟩ | hfin
  · exact F64.mul_right_nan hnan
  · rw [(F64.isProduct_mul d z _).finiteInf s (F64.isFinite_of_isZero hz) rfl, if_pos hz]
  · rw [hfin] at hx
    cases hx

/-- A zero divided by a nonzero value is a zero. -/
theorem F64.isZero_div (hz : F64.isZero z = true) (hx : F64.isFinite x = true) (hne : F64.isZero x = false) :
    F64.isZero (F64.div d z x) = true := by
  have hround := (F64.isQuotient_div d z x).rounded (F64.isFinite_of_isZero hz) hx hne
  rw [F64.value_of_isZero hz, zero_div] at hround
  exact F64.isZero_of_rounds_zero hround

theorem F64.isFinite_lit1 : F64.isFinite F64.lit1 = true := by decide

/-- 1.0 times a value is the value. -/
theorem F64.lit1_mul (hx : F64.isFinite x = true) : F64.mul d F64.lit1 x = x := by
  have hproduct := F64.isProduct_mul d F64.lit1 x
  have hround := hproduct.rounded F64.isFinite_lit1 hx
  rw [F64.value_lit1, one_mul] at hround
  obtain ⟨hfin, hvalue⟩ := F64.rounds_value hx hround
  refine F64.eq_of_value_eq hfin hx hvalue fun _ => ?_
  rw [hproduct.sign F64.isFinite_lit1 hx, show F64.sign F64.lit1 = false by decide, Bool.false_bne]

/-- A value that takes nothing off is kept: 1.0 minus a zero. -/
theorem F64.lit1_sub_zero (hz : F64.isZero z = true) : F64.sub d F64.lit1 z = F64.lit1 := by
  rcases F64.keeps_sub (d := d) F64.isFinite_lit1 hz with h | ⟨hone, -⟩
  · exact h
  · exact absurd hone (by decide)

/-- A value minus itself is +0.0. -/
theorem F64.sub_same (hx : F64.isFinite x = true) : F64.sub d x x = F64.zero false := by
  have hneg := (F64.isFinite_neg x).trans hx
  rw [F64.sub, (F64.isSum_add d x (F64.neg x)).zero hx hneg (by rw [F64.value_neg hx, add_neg_cancel]), F64.sign_neg,
    Bool.and_not_self]

theorem F64.rounds_sub (hx : F64.isFinite x = true) (hy : F64.isFinite y = true) :
    F64.rounds (F64.value x - F64.value y) (F64.sub d x y) := by
  have hround := (F64.isSum_add d x (F64.neg y)).rounded hx ((F64.isFinite_neg y).trans hy)
  rwa [F64.value_neg hy, ← sub_eq_add_neg] at hround

/-- A nonzero difference of two values is at least the least subnormal, so it is not rounded to zero. -/
theorem F64.isZero_sub_eq_false (hx : F64.isFinite x = true) (hy : F64.isFinite y = true)
    (hlt : F64.value y < F64.value x) : F64.isZero (F64.sub d x y) = false := by
  have hunit : (0 : ℚ) < 2 ^ 1074 := pow_pos two_pos _
  have hround := F64.rounds_sub (d := d) hx hy
  have hleast : F64.value 0x0000000000000001#64 = 1 / 2 ^ 1074 := by
    rw [F64.value_eq_signedScaled (by decide), show F64.signedScaled 0x0000000000000001#64 = 1 by decide, Int.cast_one]
  have hge : 1 / 2 ^ 1074 ≤ F64.value x - F64.value y := by
    rw [F64.value_eq_signedScaled hx, F64.value_eq_signedScaled hy] at hlt ⊢
    rw [div_lt_div_iff_of_pos_right hunit, Int.cast_lt] at hlt
    rw [← sub_div, div_le_div_iff_of_pos_right hunit]
    exact_mod_cast Int.sub_pos_of_lt hlt
  rw [← hleast] at hge
  rw [← Bool.not_eq_true]
  intro hzero
  rcases hround with ⟨hfin, -, hnearest⟩ | ⟨-, hinf⟩
  · obtain ⟨hle, -⟩ := hnearest 0x0000000000000001#64 (by decide)
    have hpos : (0 : ℚ) < F64.value 0x0000000000000001#64 := by rw [hleast]; exact div_pos one_pos hunit
    rw [F64.value_of_isZero hzero, zero_sub, abs_neg, abs_of_pos (by linarith), abs_sub_comm,
      abs_of_nonneg (by linarith)] at hle
    linarith
  · rw [hinf] at hzero
    have := F64.isFinite_of_isZero hzero
    rw [F64.isFinite_inf] at this
    cases this

end

/-! ### Agreement with a value that is no NaN -/

theorem F64.eq_of_agree {x y : F64} (h : F64.agree x y) (hy : F64.isNaN y = false) : x = y := by
  rcases h with rfl | ⟨-, hnan⟩
  · rfl
  · rw [hy] at hnan
    cases hnan

theorem F64.isNaN_of_agree {x y : F64} (h : F64.agree x y) (hy : F64.isNaN y = true) : F64.isNaN x = true := by
  rw [F64.agree_isNaN h, hy]

theorem F64.eq_of_agree_finite {x y : F64} (h : F64.agree x y) (hy : F64.isFinite y = true) : x = y :=
  F64.eq_of_agree h (F64.isNaN_of_isFinite hy)

end Sys2Proof.Machine
end

section
/-!
PROOFS. The warps FREQT_F and FREQTU_F: their passes element by element, and what they do for a zero warping constant
(`40_cepstral.md` R131, R132, R143); the shift and the paths of MGC2MGC_F (R136).
-/

namespace Sys2Proof.Machine

/-! ### One pass, element by element -/

/-- The general line of the recurrence at each index; `N'` has other draws. -/
theorem elem_warpTail_agree (N N' : Numerics) (a dp gp : F64) (ds : Vec) {j : Nat} (hj : j < ds.length) :
    F64.agree (elem (warpTail N' a dp gp ds) j) (N.add (elem (dp :: ds) j)
      (N.mul a (N.sub (elem ds j) (elem (gp :: warpTail N' a dp gp ds) j)))) := by
  induction ds generalizing N' dp gp j with
  | nil => exact absurd hj (Nat.not_lt_zero j)
  | cons d ds ih =>
    cases j with
    | zero =>
      exact Numerics.add_agree _ _ (F64.agree_refl _) (Numerics.mul_agree _ _ (F64.agree_refl _)
        (Numerics.sub_agree _ _ (F64.agree_refl _) (F64.agree_refl _)))
    | succ j => exact ih (N'.at 3) d _ (Nat.lt_of_succ_lt_succ hj)

/-- A pass of FREQT_F is that of R131, whatever draws it makes. -/
theorem isFreqtPass_freqtPass (N N' : Numerics) (a b c : F64) {d : Vec} (hd : 1 ≤ d.length) :
    IsFreqtPass N a b c d (freqtPass N' a b c d) := by
  have hfirst : ∀ d0, F64.agree ((N'.at 0).add c ((N'.at 1).mul a d0)) (N.add c (N.mul a d0)) := fun d0 =>
    Numerics.add_agree _ _ (F64.agree_refl _) (Numerics.mul_agree _ _ (F64.agree_refl _) (F64.agree_refl _))
  match d, hd with
  | [d0], _ =>
    exact ⟨rfl, hfirst d0, fun h => absurd h (by simp), fun j hj hlt => by simp at hlt; omega⟩
  | d0 :: d1 :: ds, _ =>
    refine ⟨freqtPass_length N' a b c _, hfirst d0, fun _ => ?_, fun j hj hlt => ?_⟩
    · exact Numerics.add_agree _ _ (Numerics.mul_agree _ _ (F64.agree_refl _) (F64.agree_refl _))
        (Numerics.mul_agree _ _ (F64.agree_refl _) (F64.agree_refl _))
    · obtain ⟨j, rfl⟩ := Nat.exists_eq_add_of_le' hj
      exact elem_warpTail_agree N (N'.at 5) a d1 _ ds (by simpa using hlt)

/-- A pass of FREQTU_F is that of R132, whatever draws it makes. -/
theorem isFreqtuPass_freqtuPass (N N' : Numerics) (a c : F64) {d : Vec} (hd : 1 ≤ d.length) :
    IsFreqtuPass N a c d (freqtuPass N' a c d) := by
  obtain ⟨d0, ds, rfl⟩ := List.exists_cons_of_length_pos hd
  refine ⟨freqtuPass_length N' a c _, rfl, fun j hj hlt => ?_⟩
  obtain ⟨j, rfl⟩ := Nat.exists_eq_add_of_le' hj
  exact elem_warpTail_agree N N' a d0 c ds (by simpa using hlt)

/-! ### The chain of passes -/

/-- The passes lead from `g0` to `r`, one for each coefficient of the list in its order. -/
def IsChain (R : F64 → Vec → Vec → Prop) (cs : Vec) (g0 r : Vec) : Prop :=
  ∃ g : Nat → Vec, g 0 = g0 ∧ (∀ i (h : i < cs.length), R cs[i] (g i) (g (i + 1))) ∧ r = g cs.length

theorem IsChain.nil {R : F64 → Vec → Vec → Prop} (g : Vec) : IsChain R [] g g :=
  ⟨fun _ => g, rfl, fun i h => absurd h (Nat.not_lt_zero i), rfl⟩

theorem IsChain.cons {R : F64 → Vec → Vec → Prop} {c : F64} {cs g0 g1 r : Vec} (h : R c g0 g1)
    (hs : IsChain R cs g1 r) : IsChain R (c :: cs) g0 r := by
  obtain ⟨g, rfl, hpass, rfl⟩ := hs
  refine ⟨fun i => Nat.casesOn i g0 g, rfl, fun i hi => ?_, rfl⟩
  cases i with
  | zero => exact h
  | succ i => exact hpass i (Nat.lt_of_succ_lt_succ hi)

theorem isChain_freqtPasses (N N' : Numerics) (a b : F64) (cs : Vec) {g : Vec} (hg : 1 ≤ g.length) :
    IsChain (IsFreqtPass N a b) cs g (freqtPasses N' a b cs g) := by
  induction cs generalizing N' g with
  | nil => exact .nil g
  | cons c cs ih =>
    exact .cons (isFreqtPass_freqtPass N (N'.at 0) a b c hg) (ih (N'.at 1) (by rwa [freqtPass_length]))

theorem isChain_freqtuPasses (N N' : Numerics) (a : F64) (cs : Vec) {g : Vec} (hg : 1 ≤ g.length) :
    IsChain (IsFreqtuPass N a) cs g (freqtuPasses N' a cs g) := by
  induction cs generalizing N' g with
  | nil => exact .nil g
  | cons c cs ih =>
    exact .cons (isFreqtuPass_freqtuPass N (N'.at 0) a c hg) (ih (N'.at 1) (by rwa [freqtuPass_length]))

/-- The source is taken from its highest index down. -/
theorem IsChain.of_source {R : F64 → Vec → Vec → Prop} {c g0 r : Vec} {m1 : Nat} (hlen : c.length = m1 + 1)
    (h : IsChain R (c.take (m1 + 1)).reverse g0 r) :
    ∃ g : Nat → Vec, g 0 = g0 ∧ (∀ i, i ≤ m1 → R (elem c (m1 - i)) (g i) (g (i + 1))) ∧ r = g (m1 + 1) := by
  rw [List.take_of_length_le hlen.le] at h
  obtain ⟨g, hzero, hpass, hlast⟩ := h
  rw [List.length_reverse, hlen] at hlast
  refine ⟨g, hzero, fun i hi => ?_, hlast⟩
  have hget := hpass i (by rw [List.length_reverse, hlen]; omega)
  rw [List.getElem_reverse] at hget
  have hindex : m1 - i = c.length - 1 - i := by omega
  rwa [elem, List.getD_eq_getElem _ _ (by omega), getElem_congr_idx hindex]

/-- The factor `b` of FREQT_F, at the places it evaluates it (R131). -/
def freqtScale (N : Numerics) (a : F64) : F64 := (N.at 0).sub F64.lit1 ((N.at 1).mul a a)

theorem freqtScale_agree (N : Numerics) (a : F64) : F64.agree (freqtScale N a) (N.sub F64.lit1 (N.mul a a)) :=
  Numerics.sub_agree _ _ (F64.agree_refl _) (Numerics.mul_agree _ _ (F64.agree_refl _) (F64.agree_refl _))

section
variable (N : Numerics) {c : Vec} {m1 : Nat} (m2 : Nat) (a : F64) (hlen : c.length = m1 + 1)
include hlen

theorem freqtF_chain : ∃ g : Nat → Vec, g 0 = zeros (m2 + 1) ∧
    (∀ i, i ≤ m1 → IsFreqtPass N a (freqtScale N a) (elem c (m1 - i)) (g i) (g (i + 1))) ∧
    freqtF N c m1 m2 a = g (m1 + 1) :=
  (isChain_freqtPasses N (N.at 2) a (freqtScale N a) _ (by simp)).of_source hlen

theorem freqtuF_chain : ∃ g : Nat → Vec, g 0 = zeros (m2 + 1) ∧
    (∀ i, i ≤ m1 → IsFreqtuPass N a (elem c (m1 - i)) (g i) (g (i + 1))) ∧ freqtuF N c m1 m2 a = g (m1 + 1) :=
  (isChain_freqtuPasses N N a _ (by simp)).of_source hlen

end

/-- Settles O24: the lines of one pass, and the chain of passes with the factor that FREQT_F itself computes. -/
theorem freqtPassRecurrence : Obligations.FreqtPassRecurrence := by
  refine ⟨fun N a b c d hd => isFreqtPass_freqtPass N N a b c hd, fun N c m1 m2 a hlen => ?_⟩
  obtain ⟨g, hg⟩ := freqtF_chain N m2 a hlen
  exact ⟨freqtScale N a, g, freqtScale_agree N a, hg⟩

/-- Settles O25: the lines of one pass, and the chain of passes. -/
theorem freqtuPassRecurrence : Obligations.FreqtuPassRecurrence :=
  ⟨fun N a c _ hd => isFreqtuPass_freqtuPass N N a c hd, fun N _ _ m2 a hlen => freqtuF_chain N m2 a hlen⟩

/-! ### A warp by zero (`40_cepstral.md` R143) -/

theorem elem_zeros (n j : Nat) : elem (zeros n) j = F64.zero false := by
  simp only [elem, zeros, List.getD_eq_getElem?_getD, List.getElem?_replicate]
  split <;> rfl

theorem F64.not_isFinite_of_isNaN {x : F64} (h : F64.isNaN x = true) : F64.isFinite x = false := by
  rw [← Bool.not_eq_true]
  intro hx
  rw [F64.isNaN_of_isFinite hx] at h
  cases h

/-- Elements of a vector of finite values are finite, the +0.0 beyond its end too. -/
theorem isFinite_elem {c : Vec} (h : ∀ x ∈ c, F64.isFinite x = true) (n : Nat) : F64.isFinite (elem c n) = true := by
  rw [elem, List.getD_eq_getElem?_getD]
  cases hn : getElem? c n with
  | none => decide
  | some x => exact h x (List.mem_of_getElem? hn)

theorem elem_beyond {c : Vec} {n : Nat} (h : c.length ≤ n) : elem c n = F64.zero false := by
  rw [elem, List.getD_eq_getElem?_getD, List.getElem?_eq_none h]
  rfl

/-- The difference of two values is in the range or not whatever the draw and the signs of zeros. -/
theorem F64.isFinite_sub_congr {d d' x x' y y' : F64} (hx : F64.isFinite x = true) (hy : F64.isFinite y = true)
    (hx' : F64.Keeps x x') (hy' : F64.Keeps y y') : F64.isFinite (F64.sub d' x' y') = F64.isFinite (F64.sub d x y) := by
  rw [Bool.eq_iff_iff, F64.rounds_isFinite_iff (F64.rounds_sub hx hy),
    F64.rounds_isFinite_iff (F64.rounds_sub (hx'.isFinite hx) (hy'.isFinite hy)), hx'.value, hy'.value]

/-- The difference of the coefficients `n + 2` and `n` is in the range. -/
def diffInRange (N : Numerics) (c : Vec) (n : Nat) : Prop := F64.isFinite (N.sub (elem c (n + 2)) (elem c n)) = true

/-- Beyond the source no difference leaves the range. -/
theorem diffInRange_beyond (N : Numerics) {c : Vec} (hfin : ∀ x ∈ c, F64.isFinite x = true) {n : Nat}
    (h : c.length ≤ n + 2) : diffInRange N c n := by
  have hn := isFinite_elem hfin n
  rw [diffInRange, elem_beyond h]
  refine (F64.rounds_isFinite_iff (F64.rounds_sub (F64.isFinite_zero false) hn)).2 ?_
  rw [F64.value_zero, zero_sub, abs_neg]
  exact F64.abs_value_lt hn

/-- What the passes leave after the coefficients from `s` on, the general line starting at index `k`: below `k` the
coefficients are kept; from `k` on they are kept where no difference has left the range, and otherwise they are NaNs. -/
structure WarpState (N : Numerics) (c : Vec) (k m2 s : Nat) (g : Vec) : Prop where
  low : ∀ j, j < k → j ≤ m2 → F64.Keeps (elem c (s + j)) (elem g j)
  kept : (∀ n, s + k ≤ n + 1 → diffInRange N c n) → ∀ j, j ≤ m2 → F64.Keeps (elem c (s + j)) (elem g j)
  nan : (∃ n, s + k ≤ n + 1 ∧ ¬ diffInRange N c n) → ∀ j, k ≤ j → j ≤ m2 → F64.isNaN (elem g j) = true

section
variable {N : Numerics} {c : Vec} {a : F64} {k m2 s : Nat} {d g : Vec} (ha : F64.isZero a = true)
  (hfin : ∀ x ∈ c, F64.isFinite x = true)
include ha hfin

/-- The general line keeps the coefficient before where the difference is in the range. -/
theorem warpLine_keeps {j : Nat} (hprev : F64.Keeps (elem c (s + (j + 1))) (elem d j))
    (hhere : F64.Keeps (elem c (s + j + 2)) (elem d (j + 1))) (hnew : F64.Keeps (elem c (s + j)) (elem g j))
    (hrange : diffInRange N c (s + j))
    (hline : F64.agree (elem g (j + 1)) (N.add (elem d j) (N.mul a (N.sub (elem d (j + 1)) (elem g j))))) :
    F64.Keeps (elem c (s + (j + 1))) (elem g (j + 1)) := by
  have hdiff : F64.isFinite (N.sub (elem d (j + 1)) (elem g j)) = true :=
    (F64.isFinite_sub_congr (isFinite_elem hfin _) (isFinite_elem hfin _) hhere hnew).trans hrange
  have hkeep := F64.keeps_add (d := N.nan) (hprev.isFinite (isFinite_elem hfin _))
    (F64.isZero_mul_left (d := N.nan) ha hdiff)
  rw [F64.eq_of_agree_finite hline (hkeep.isFinite (hprev.isFinite (isFinite_elem hfin _)))]
  exact hprev.trans hkeep

omit hfin in
/-- The general line gives a NaN where the difference is an infinity or a NaN. -/
theorem warpLine_nan {j : Nat} (hdiff : F64.isFinite (N.sub (elem d (j + 1)) (elem g j)) = false)
    (hline : F64.agree (elem g (j + 1)) (N.add (elem d j) (N.mul a (N.sub (elem d (j + 1)) (elem g j))))) :
    F64.isNaN (elem g (j + 1)) = true := by
  refine F64.isNaN_of_agree hline ?_
  have hmul : N.mul a (N.sub (elem d (j + 1)) (elem g j)) = N.nan := F64.mul_zero_not_finite ha hdiff
  have hadd : N.add (elem d j) N.nan = N.nan := F64.add_right_nan N.isNaN_nan
  rw [hmul, hadd]
  exact N.isNaN_nan

/-- A pass takes the state on by one coefficient. -/
theorem WarpState.pass (hd : WarpState N c k m2 (s + 1) d) (hk : 1 ≤ k)
    (hlow : ∀ j, j < k → j ≤ m2 → F64.Keeps (elem c (s + j)) (elem g j))
    (hline : ∀ j, k ≤ j + 1 → j + 1 ≤ m2 →
      F64.agree (elem g (j + 1)) (N.add (elem d j) (N.mul a (N.sub (elem d (j + 1)) (elem g j))))) :
    WarpState N c k m2 s g where
  low := hlow
  kept hrange := by
    have hkept := hd.kept fun n hn => hrange n (by omega)
    intro j
    induction j with
    | zero => exact hlow 0 hk
    | succ j ih =>
      intro hj
      rcases Nat.lt_or_ge (j + 1) k with hlt | hge
      · exact hlow _ hlt hj
      · have hprev := hkept j (by omega)
        have hhere := hkept (j + 1) hj
        rw [show s + 1 + j = s + (j + 1) by omega] at hprev
        rw [show s + 1 + (j + 1) = s + j + 2 by omega] at hhere
        exact warpLine_keeps ha hfin hprev hhere (ih (by omega)) (hrange _ (by omega)) (hline j hge hj)
  nan hout := by
    have hnan : ∀ j, k ≤ j + 1 → j + 1 ≤ m2 → F64.isNaN (elem d (j + 1)) = true ∨ F64.isNaN (elem g j) = true →
        F64.isNaN (elem g (j + 1)) = true := by
      intro j hj hjm h
      refine warpLine_nan ha (F64.not_isFinite_of_isNaN ?_) (hline j hj hjm)
      have hsub : N.sub (elem d (j + 1)) (elem g j) = N.nan :=
        h.elim F64.add_left_nan fun h => F64.add_right_nan ((F64.isNaN_neg _).trans h)
      rw [hsub]
      exact N.isNaN_nan
    have hall : ∀ j, k ≤ j + 1 → j + 1 ≤ m2 → F64.isNaN (elem g (j + 1)) = true := by
      by_cases hold : ∃ n, s + 1 + k ≤ n + 1 ∧ ¬ diffInRange N c n
      · exact fun j hj hjm => hnan j hj hjm (.inl (hd.nan hold (j + 1) hj hjm))
      · have hkept := hd.kept fun n hn => by
          by_contra hnot
          exact hold ⟨n, hn, hnot⟩
        obtain ⟨n, hn, hnot⟩ := hout
        have hfirst : n + 1 = s + k := by
          by_contra hne
          exact hold ⟨n, by omega, hnot⟩
        -- the difference out of the range meets the general line at its first index, `k`
        have hstart : ∀ j, k = j + 1 → j + 1 ≤ m2 → F64.isNaN (elem g (j + 1)) = true := by
          intro j hj hjm
          have hhere := hkept (j + 1) hjm
          rw [show s + 1 + (j + 1) = s + j + 2 by omega] at hhere
          refine warpLine_nan ha ?_ (hline j hj.le hjm)
          rw [Numerics.sub, F64.isFinite_sub_congr (d := N.nan) (isFinite_elem hfin _) (isFinite_elem hfin _) hhere
            (hlow j (by omega) (by omega)), ← Bool.not_eq_true]
          obtain rfl : n = s + j := by omega
          exact hnot
        intro j
        induction j with
        | zero => exact fun hj hjm => hstart 0 (by omega) hjm
        | succ j ih =>
          intro hj hjm
          rcases Nat.eq_or_lt_of_le hj with heq | hlt
          · exact hstart _ heq hjm
          · exact hnan _ hj hjm (.inr (ih (by omega) (by omega)))
    intro j hj hjm
    obtain ⟨j, rfl⟩ := Nat.exists_eq_add_of_le' (hk.trans hj)
    exact hall j hj hjm

end

/-! ### The chain of passes for a zero warping constant -/

section
variable {N : Numerics} {c : Vec} {m1 : Nat} (m2 : Nat) {a : F64} (ha : F64.isZero a = true)
  (hlen : c.length = m1 + 1) (hfin : ∀ x ∈ c, F64.isFinite x = true)

include hlen hfin in
/-- Before the first pass nothing but the zeros beyond the source stands in the result. -/
theorem warpState_zeros {k : Nat} (hk : 1 ≤ k) : WarpState N c k m2 (m1 + 1) (zeros (m2 + 1)) := by
  have hkeep : ∀ j, F64.Keeps (elem c (m1 + 1 + j)) (elem (zeros (m2 + 1)) j) := fun j => by
    rw [elem_beyond (by omega), elem_zeros]
    exact .inl rfl
  refine ⟨fun j _ _ => hkeep j, fun _ j _ => hkeep j, ?_⟩
  rintro ⟨n, hn, hnot⟩
  exact absurd (diffInRange_beyond N hfin (by omega)) hnot

include hlen hfin in
/-- Passes that each take the state on by one coefficient take it to index 0. -/
theorem warpState_of_chain {k : Nat} (hk : 1 ≤ k) {R : F64 → Vec → Vec → Prop} {g : Nat → Vec}
    (hzero : g 0 = zeros (m2 + 1)) (hR : ∀ i, i ≤ m1 → R (elem c (m1 - i)) (g i) (g (i + 1)))
    (hpass : ∀ (s : Nat) (d g : Vec), d.length = m2 + 1 → WarpState N c k m2 (s + 1) d → R (elem c s) d g →
      g.length = m2 + 1 ∧ WarpState N c k m2 s g) : WarpState N c k m2 0 (g (m1 + 1)) := by
  have hall : ∀ i, i ≤ m1 + 1 → (g i).length = m2 + 1 ∧ WarpState N c k m2 (m1 + 1 - i) (g i) := by
    intro i
    induction i with
    | zero => exact fun _ => hzero ▸ ⟨zeros_length _, warpState_zeros m2 hlen hfin hk⟩
    | succ i ih =>
      intro hi
      obtain ⟨hl, hstate⟩ := ih (by omega)
      rw [show m1 + 1 - i = m1 - i + 1 by omega] at hstate
      have hnext := hpass (m1 - i) (g i) (g (i + 1)) hl hstate (hR i (by omega))
      rwa [show m1 - i = m1 + 1 - (i + 1) by omega] at hnext
  have hend := (hall (m1 + 1) le_rfl).2
  rwa [Nat.sub_self] at hend

include ha in
/-- With a zero warping constant the factor `b` is 1.0. -/
theorem freqtScale_of_isZero : freqtScale N a = F64.lit1 :=
  F64.lit1_sub_zero (F64.isZero_mul_left ha (F64.isFinite_of_isZero ha))

include ha hfin in
/-- The first line of FREQT_F keeps the coefficient. -/
theorem warpFirst_keeps {s n : Nat} {d r : F64} (hd : F64.Keeps (elem c n) d)
    (hline : F64.agree r (N.add (elem c s) (N.mul a d))) : F64.Keeps (elem c s) r := by
  have hkeep := F64.keeps_add (d := N.nan) (isFinite_elem hfin s)
    (F64.isZero_mul_left (d := N.nan) ha (hd.isFinite (isFinite_elem hfin n)))
  rw [F64.eq_of_agree_finite hline (hkeep.isFinite (isFinite_elem hfin s))]
  exact hkeep

include ha hfin in
/-- The second line of FREQT_F keeps the coefficient before. -/
theorem warpSecond_keeps {s n : Nat} {d0 d1 r : F64} (h0 : F64.Keeps (elem c s) d0) (h1 : F64.Keeps (elem c n) d1)
    (hline : F64.agree r (N.add (N.mul F64.lit1 d0) (N.mul a d1))) : F64.Keeps (elem c s) r := by
  have h0fin := h0.isFinite (isFinite_elem hfin s)
  have hmul : N.mul F64.lit1 d0 = d0 := F64.lit1_mul h0fin
  rw [hmul] at hline
  have hkeep := F64.keeps_add (d := N.nan) h0fin
    (F64.isZero_mul_left (d := N.nan) ha (h1.isFinite (isFinite_elem hfin n)))
  rw [F64.eq_of_agree_finite hline (hkeep.isFinite h0fin)]
  exact h0.trans hkeep

include ha hfin hlen in
theorem warpState_freqtF : WarpState N c 2 m2 0 (freqtF N c m1 m2 a) := by
  obtain ⟨g, hzero, hpass, hlast⟩ := freqtF_chain N m2 a hlen
  rw [freqtScale_of_isZero ha] at hpass
  rw [hlast]
  refine warpState_of_chain m2 hlen hfin (by decide) hzero hpass fun s d g hl hd hR => ⟨hR.length.trans hl, ?_⟩
  refine hd.pass ha hfin (by decide) (fun j hj hjm => ?_) fun j hj hjm => hR.rest (j + 1) hj (by omega)
  rcases (by omega : j = 0 ∨ j = 1) with rfl | rfl
  · exact warpFirst_keeps ha hfin (hd.low 0 (by decide) (by omega)) hR.first
  · exact warpSecond_keeps ha hfin (hd.low 0 (by decide) (by omega)) (hd.low 1 (by decide) hjm) (hR.second (by omega))

include ha hfin hlen in
theorem warpState_freqtuF : WarpState N c 1 m2 0 (freqtuF N c m1 m2 a) := by
  obtain ⟨g, hzero, hpass, hlast⟩ := freqtuF_chain N m2 a hlen
  rw [hlast]
  refine warpState_of_chain m2 hlen hfin le_rfl hzero hpass fun s d g hl hd hR => ⟨hR.length.trans hl, ?_⟩
  refine hd.pass ha hfin le_rfl (fun j hj hjm => ?_) fun j hj hjm => hR.rest (j + 1) hj (by omega)
  obtain rfl : j = 0 := by omega
  exact .inl hR.first

include hlen in
/-- A kept coefficient is one that truncation or padding has (`40_cepstral.md` R143). -/
theorem keptAt_of_keeps {r : Vec} {j : Nat} (h : F64.Keeps (elem c j) (elem r j)) : keptAt c m1 r j := by
  refine ⟨fun _ => h, fun hj => h.isZero ?_⟩
  rw [elem_beyond (by omega)]
  exact F64.isZero_zero false

end

/-- The differences inside the source are all in the range, or one of them is not. -/
theorem diffInRange_all_iff {N : Numerics} {c : Vec} {m1 : Nat} (hlen : c.length = m1 + 1)
    (hfin : ∀ x ∈ c, F64.isFinite x = true) (k : Nat) :
    (∀ n, 0 + k ≤ n + 1 → diffInRange N c n) ↔ ∀ n, k ≤ n + 1 → n + 2 ≤ m1 → diffInRange N c n := by
  constructor
  · exact fun h n hn _ => h n (by omega)
  · intro h n hn
    by_cases hin : n + 2 ≤ m1
    · exact h n (by omega) hin
    · exact diffInRange_beyond N hfin (by omega)

/-- Settles O30: the state after the last pass, FREQT_F's general line starting at index 2 and FREQTU_F's at 1. -/
theorem freqtZeroAlphaTruncatesOrPads : Obligations.FreqtZeroAlphaTruncatesOrPads := by
  intro N c m1 m2 a ha hlen hfin inRange
  refine ⟨freqtF_length _ _ _ _ _, freqtuF_length _ _ _ _ _, fun j hj => ?_⟩
  have hfreqt := warpState_freqtF (N := N) m2 ha hlen hfin
  have hfreqtu := warpState_freqtuF (N := N) m2 ha hlen hfin
  have hkept : ∀ {r : Vec}, F64.Keeps (elem c (0 + j)) (elem r j) → keptAt c m1 r j := fun h =>
    keptAt_of_keeps hlen (by rwa [Nat.zero_add] at h)
  refine ⟨?_, ?_, ?_, ?_⟩
  · rintro (hlow | hrange)
    · exact hkept (hfreqt.low j (by omega) hj)
    · refine hkept (hfreqt.kept ((diffInRange_all_iff hlen hfin 2).2 fun n hn hin => hrange n (by omega) hin) j hj)
  · rintro hj2 ⟨n, hn, -, hout⟩
    exact hfreqt.nan ⟨n, by omega, by rw [diffInRange, ← Bool.not_eq_false, not_not]; exact hout⟩ j hj2 hj
  · rintro (hlow | hrange)
    · exact hkept (hfreqtu.low j (by omega) hj)
    · refine hkept (hfreqtu.kept ((diffInRange_all_iff hlen hfin 1).2 fun n _ hin => hrange n hin) j hj)
  · rintro hj1 ⟨n, -, hout⟩
    exact hfreqtu.nan ⟨n, by omega, by rw [diffInRange, ← Bool.not_eq_false, not_not]; exact hout⟩ j hj1 hj

/-- Two coefficients two apart, the greatest value and its negative, whose difference overflows. -/
def overflowingSource : Vec := [0#64, 0x7FEFFFFFFFFFFFFF#64, 0#64, 0xFFEFFFFFFFFFFFFF#64]

theorem overflowingSource_finite : ∀ x ∈ overflowingSource, F64.isFinite x = true := by
  simp only [overflowingSource, List.forall_mem_cons, List.not_mem_nil, false_implies, implies_true, and_true]
  decide

theorem overflowingSource_out_of_range (N : Numerics) :
    F64.isFinite (N.sub (elem overflowingSource 3) (elem overflowingSource 1)) = false := by
  have hfin := isFinite_elem overflowingSource_finite
  have hout : F64.isFinite (F64.sub 0 (elem overflowingSource 3) (elem overflowingSource 1)) = false := by
    decide +kernel
  exact (F64.isFinite_sub_congr (hfin 3) (hfin 1) (.inl rfl) (.inl rfl)).trans hout

/-- Settles O31: in that source the difference of the coefficients 3 and 1 overflows, so index 2 is a NaN. -/
theorem freqtZeroAlphaUnboundedFails : Obligations.FreqtZeroAlphaUnboundedFails := by
  intro N a ha
  refine ⟨overflowingSource, 3, 2, rfl, overflowingSource_finite, ?_⟩
  obtain ⟨-, -, hall⟩ := freqtZeroAlphaTruncatesOrPads N overflowingSource 3 2 a ha rfl overflowingSource_finite
  obtain ⟨-, hfreqt, -, hfreqtu⟩ := hall 2 le_rfl
  exact ⟨⟨2, le_rfl, by decide, hfreqt le_rfl ⟨1, le_rfl, le_rfl, overflowingSource_out_of_range N⟩⟩,
    2, le_rfl, by decide, hfreqtu (by decide) ⟨1, le_rfl, overflowingSource_out_of_range N⟩⟩

/-! ### The shift and the two paths of MGC2MGC_F (`40_cepstral.md` R136) -/

theorem warpShift_agree (N : Numerics) (a1 a2 : F64) :
    F64.agree (warpShift N a1 a2) (N.div (N.sub a2 a1) (N.sub F64.lit1 (N.mul a1 a2))) :=
  Numerics.div_agree _ _ (Numerics.sub_agree _ _ (F64.agree_refl _) (F64.agree_refl _))
    (Numerics.sub_agree _ _ (F64.agree_refl _) (Numerics.mul_agree _ _ (F64.agree_refl _) (F64.agree_refl _)))

/-- The pattern without its sign. -/
def F64.abs (x : F64) : F64 := if F64.sign x then F64.neg x else x

theorem F64.value_abs {x : F64} (h : F64.isFinite x = true) :
    F64.isFinite (F64.abs x) = true ∧ F64.value (F64.abs x) = |F64.value x| := by
  have hpos : (0 : ℚ) ≤ F64.scaled (F64.magnitude x) / 2 ^ 1074 :=
    div_nonneg (Nat.cast_nonneg _) (pow_nonneg two_pos.le _)
  have hvalue := F64.value_eq h
  rw [mul_div_assoc] at hvalue
  rw [F64.abs]
  cases hs : F64.sign x
  · rw [hs, signFactor_false, one_mul] at hvalue
    exact ⟨h, by rw [if_neg (by decide), hvalue, abs_of_nonneg hpos]⟩
  · rw [hs, signFactor_true, neg_one_mul] at hvalue
    refine ⟨(F64.isFinite_neg x).trans h, ?_⟩
    rw [if_pos rfl, F64.value_neg h, hvalue, abs_neg, abs_of_nonneg hpos, neg_neg]

section
variable {d a : F64} (ha : warpInRange a)
include ha

/-- The square of a legal constant is rounded to a value below 1: it lies below the constant's own absolute value. -/
theorem F64.mul_self_of_warpInRange : F64.isFinite (F64.mul d a a) = true ∧
    0 ≤ F64.value (F64.mul d a a) ∧ F64.value (F64.mul d a a) < 1 := by
  obtain ⟨hfin, hlow, hhigh⟩ := ha
  obtain ⟨habsfin, habs⟩ := F64.value_abs hfin
  have hlt : |F64.value a| < 1 := abs_lt.2 ⟨hlow, hhigh⟩
  have hsq : F64.value a * F64.value a ≤ |F64.value a| := by
    rw [← abs_mul_abs_self]
    exact mul_le_of_le_one_left (abs_nonneg _) hlt.le
  obtain ⟨hprodfin, hge, hle⟩ := F64.rounds_mem (F64.isFinite_zero false) habsfin
    ⟨by rw [F64.value_zero]; exact mul_self_nonneg _, by rw [habs]; exact hsq⟩ (F64.rounds_mul hfin hfin d).1
  rw [F64.value_zero] at hge
  rw [habs] at hle
  exact ⟨hprodfin, hge, hle.trans_lt hlt⟩

/-- 1.0 minus the square of a legal constant is a positive value of at most 1.0. -/
theorem F64.lit1_sub_mul_self {d' : F64} : F64.isFinite (F64.sub d' F64.lit1 (F64.mul d a a)) = true ∧
    F64.isZero (F64.sub d' F64.lit1 (F64.mul d a a)) = false ∧
    F64.sign (F64.sub d' F64.lit1 (F64.mul d a a)) = false := by
  obtain ⟨hfin, hge, hlt⟩ := F64.mul_self_of_warpInRange (d := d) ha
  have hneg := (F64.isFinite_neg (F64.mul d a a)).trans hfin
  have hround := F64.rounds_sub (d := d') F64.isFinite_lit1 hfin
  have hpos : 0 < F64.value F64.lit1 + F64.value (F64.neg (F64.mul d a a)) := by
    rw [F64.value_neg hfin, F64.value_lit1]
    linarith
  refine ⟨?_, F64.isZero_sub_eq_false F64.isFinite_lit1 hfin (by rwa [F64.value_lit1]), ?_⟩
  · refine (F64.rounds_mem (F64.isFinite_zero false) F64.isFinite_lit1 ⟨?_, ?_⟩ hround).1
    · rw [F64.value_zero, F64.value_lit1]; linarith
    · rw [F64.value_lit1]; linarith
  · rw [F64.sub, (F64.isSum_add d' _ _).sign F64.isFinite_lit1 hneg hpos.ne', decide_eq_false hpos.not_gt]

end

/-- A zero over a positive value keeps its sign. -/
theorem F64.zero_div {d x : F64} {s : Bool} (hfin : F64.isFinite x = true) (hne : F64.isZero x = false)
    (hsign : F64.sign x = false) : F64.div d (F64.zero s) x = F64.zero s := by
  have hzero := F64.isZero_div (d := d) (F64.isZero_zero s) hfin hne
  have hs := (F64.isQuotient_div d (F64.zero s) x).sign (F64.isFinite_zero s) hfin hne
  rw [F64.sign_zero, hsign, Bool.bne_false] at hs
  exact (F64.eq_zero_of_isZero hzero).trans (congrArg F64.zero hs)

/-- The shift of a legal constant to itself is +0.0 (`40_cepstral.md` R146). -/
theorem warpShift_self (N : Numerics) {a : F64} (h : warpInRange a) : warpShift N a a = F64.zero false := by
  have hsub : (N.at 1).sub a a = F64.zero false := F64.sub_same h.1
  obtain ⟨hfin, hne, hsign⟩ := F64.lit1_sub_mul_self (d := (N.at 3).nan) (d' := (N.at 2).nan) h
  rw [warpShift, hsub]
  exact F64.zero_div hfin hne hsign

/-- The shift from +0.0 to −0.0 is −0.0: −0.0 minus +0.0 over 1.0. -/
theorem warpShift_zeros (N : Numerics) : warpShift N (F64.zero false) (F64.zero true) = F64.zero true := by
  have hsub : (N.at 1).sub (F64.zero true) (F64.zero false) = F64.zero true :=
    (F64.isSum_add (N.at 1).nan (F64.zero true) (F64.neg (F64.zero false))).zero (F64.isFinite_zero true) (by decide)
      (by rw [F64.value_neg (F64.isFinite_zero false), F64.value_zero, F64.value_zero, neg_zero, add_zero])
  have hone : (N.at 2).sub F64.lit1 ((N.at 3).mul (F64.zero false) (F64.zero true)) = F64.lit1 :=
    F64.lit1_sub_zero (F64.isZero_mul_left (F64.isZero_zero false) (F64.isFinite_zero true))
  rw [warpShift, hsub, hone]
  exact F64.zero_div F64.isFinite_lit1 (by decide) (by decide)

section
variable (N : Numerics) (c : Vec) (m1 m2 : Nat) (a1 a2 g1 g2 : F64)

/-- The fast path of MGC2MGC_F, without a warp (`40_cepstral.md` R136). -/
theorem mgc2mgcF_of_isZero (h : F64.isZero (warpShift (N.at 0) a1 a2) = true) :
    mgc2mgcF N c m1 a1 g1 m2 a2 g2 =
      ignormF (N.at 3) (gc2gcF (N.at 2) (gnormF (N.at 1) c m1 g1) m1 g1 m2 g2) m2 g2 :=
  if_pos ((F64.eq_lit0 _).trans h)

/-- The path of MGC2MGC_F with the warp first (`40_cepstral.md` R136). -/
theorem mgc2mgcF_of_not_isZero (h : F64.isZero (warpShift (N.at 0) a1 a2) = false) :
    mgc2mgcF N c m1 a1 g1 m2 a2 g2 = ignormF (N.at 7) (gc2gcF (N.at 6)
      (gnormF (N.at 5) (freqtF (N.at 4) c m1 m2 (warpShift (N.at 0) a1 a2)) m2 g1) m2 g1 m2 g2) m2 g2 :=
  if_neg (by rw [F64.eq_lit0, h]; decide)

end

/-- Settles O29: the shift up to its draws, its two zero cases, and the branch it decides. -/
theorem equalWarpTakesFastPath : Obligations.EqualWarpTakesFastPath :=
  ⟨warpShift_agree, fun N a ha => warpShift_self N ((warpLegal_iff_warpInRange a).1 ha), warpShift_zeros,
    fun N c m1 m2 a1 a2 g1 g2 => ⟨mgc2mgcF_of_isZero N c m1 m2 a1 a2 g1 g2,
      mgc2mgcF_of_not_isZero N c m1 m2 a1 a2 g1 g2⟩⟩

end Sys2Proof.Machine
end

section
/-!
PROOFS. Generalized-cepstrum conversion, coefficient by coefficient, and with both exponents zero
(`40_cepstral.md` R133, R144).
-/

namespace Sys2Proof.Machine

section
variable (N : Numerics) (c : Vec) (m1 : Nat) (g1 g2 : F64)

/-! ### The coefficients one after the other -/

/-- A further coefficient is computed from those before it. -/
theorem gc2gcF_succ (n : Nat) : gc2gcF N c m1 g1 (n + 1) g2 =
    gc2gcF N c m1 g1 n g2 ++ [gc2gcElem (N.at (n + 1)) c m1 g1 g2 (gc2gcF N c m1 g1 n g2) (n + 1)] := by
  rw [gc2gcF, List.range_succ, List.foldl_append]
  rfl

theorem elem_append_left {V W : Vec} {j : Nat} (h : j < V.length) : elem (V ++ W) j = elem V j := by
  rw [elem, elem, List.getD_eq_getElem?_getD, List.getD_eq_getElem?_getD, List.getElem?_append_left h]

theorem elem_append_singleton (V : Vec) (x : F64) : elem (V ++ [x]) V.length = x := by
  rw [elem, List.getD_eq_getElem?_getD, List.getElem?_concat_length]
  rfl

/-- Later coefficients leave the earlier ones. -/
theorem elem_gc2gcF_of_le {j n m : Nat} (hj : j ≤ n) (hnm : n ≤ m) :
    elem (gc2gcF N c m1 g1 m g2) j = elem (gc2gcF N c m1 g1 n g2) j := by
  induction m, hnm using Nat.le_induction with
  | base => rfl
  | succ m hm ih => rw [gc2gcF_succ, elem_append_left (by rw [gc2gcF_length]; omega), ih]

/-- Coefficient `n + 1`, computed from those before it. -/
theorem elem_gc2gcF_succ {n m : Nat} (h : n + 1 ≤ m) : elem (gc2gcF N c m1 g1 m g2) (n + 1) =
    gc2gcElem (N.at (n + 1)) c m1 g1 g2 (gc2gcF N c m1 g1 n g2) (n + 1) := by
  have hlast := elem_append_singleton (gc2gcF N c m1 g1 n g2)
    (gc2gcElem (N.at (n + 1)) c m1 g1 g2 (gc2gcF N c m1 g1 n g2) (n + 1))
  rw [gc2gcF_length] at hlast
  rw [elem_gc2gcF_of_le N c m1 g1 g2 le_rfl h, gc2gcF_succ, hlast]

/-! ### The two sums -/

theorem gc2gcSums_succ (c2 : Vec) (i k : Nat) : gc2gcSums N c c2 i (k + 1) =
    (((N.at (k + 1)).at 1).add (gc2gcSums N c c2 i k).1 (((N.at (k + 1)).at 2).mul (F64.ofNat (i - (k + 1)))
        (((N.at (k + 1)).at 0).mul (elem c (k + 1)) (elem c2 (i - (k + 1))))),
      ((N.at (k + 1)).at 3).add (gc2gcSums N c c2 i k).2 (((N.at (k + 1)).at 4).mul (F64.ofNat (k + 1))
        (((N.at (k + 1)).at 0).mul (elem c (k + 1)) (elem c2 (i - (k + 1)))))) := by
  rw [gc2gcSums, List.range_succ, List.foldl_append]
  rfl

/-- The sums over a vector that has the coefficients they use; `N'` has other draws. -/
theorem gc2gcSums_agree (N' : Numerics) {c2 r : Vec} {i : Nat} (hr : ∀ j, j < i → elem c2 j = elem r j) {k : Nat}
    (hk : k < i) : F64.agree (gc2gcSums N' c c2 i k).1 (convSum N (fun k => F64.ofNat (i - k)) c r i k) ∧
      F64.agree (gc2gcSums N' c c2 i k).2 (convSum N F64.ofNat c r i k) := by
  induction k with
  | zero => exact ⟨F64.agree_refl _, F64.agree_refl _⟩
  | succ k ih =>
    obtain ⟨h1, h2⟩ := ih (by omega)
    have hprod : F64.agree (((N'.at (k + 1)).at 0).mul (elem c (k + 1)) (elem c2 (i - (k + 1))))
        (N.mul (elem c (k + 1)) (elem r (i - (k + 1)))) := by
      rw [hr _ (by omega)]
      exact Numerics.mul_agree _ _ (F64.agree_refl _) (F64.agree_refl _)
    rw [gc2gcSums_succ]
    exact ⟨Numerics.add_agree _ _ h1 (Numerics.mul_agree _ _ (F64.agree_refl _) hprod),
      Numerics.add_agree _ _ h2 (Numerics.mul_agree _ _ (F64.agree_refl _) hprod)⟩

/-- The quotient of R133 at index `i`, over the result `r`. -/
def convTerm (r : Vec) (i : Nat) : F64 :=
  N.div (N.sub (N.mul g2 (convSum2 N c r m1 i)) (N.mul g1 (convSum1 N c r m1 i))) (F64.ofNat i)

/-- Coefficient `i ≥ 1` by the lines of R133, over the result itself. -/
theorem elem_gc2gcF_agree {i m : Nat} {r : Vec} (hr : gc2gcF N c m1 g1 m g2 = r) (hpos : 1 ≤ i) (hle : i ≤ m) :
    F64.agree (elem r i)
      (if i ≤ m1 then N.add (elem c i) (convTerm N c m1 g1 g2 r i) else convTerm N c m1 g1 g2 r i) := by
  obtain ⟨n, rfl⟩ := Nat.exists_eq_add_of_le' hpos
  have hbefore : ∀ j, j < n + 1 → elem (gc2gcF N c m1 g1 n g2) j = elem r j := fun j hj =>
    hr ▸ (elem_gc2gcF_of_le N c m1 g1 g2 (Nat.le_of_lt_succ hj) (by omega)).symm
  obtain ⟨h1, h2⟩ := gc2gcSums_agree N c ((N.at (n + 1)).at 0) hbefore (k := min m1 (n + 1 - 1)) (by omega)
  have hterm := Numerics.div_agree ((N.at (n + 1)).at 1) N
    (Numerics.sub_agree ((N.at (n + 1)).at 2) N (Numerics.mul_agree ((N.at (n + 1)).at 3) N (F64.agree_refl g2) h2)
      (Numerics.mul_agree ((N.at (n + 1)).at 4) N (F64.agree_refl g1) h1)) (F64.agree_refl (F64.ofNat (n + 1)))
  rw [← hr, elem_gc2gcF_succ N c m1 g1 g2 hle, hr, gc2gcElem]
  split_ifs with him
  · exact Numerics.add_agree _ _ (F64.agree_refl _) hterm
  · exact hterm

end

/-! ### Both exponents zero (`40_cepstral.md` R144) -/

/-- `float(i)` for the indices of a result (`00_scope.md` R8). -/
theorem F64.ofNat_index {i : Nat} (hpos : 1 ≤ i) (hle : i ≤ 65535) :
    F64.isFinite (F64.ofNat i) = true ∧ F64.isZero (F64.ofNat i) = false := by
  obtain ⟨hfin, hvalue⟩ := F64.isFinite_value_ofNat (k := i) (by omega)
  refine ⟨hfin, ?_⟩
  rw [← Bool.not_eq_true, ← F64.value_eq_zero_iff hfin, hvalue]
  exact_mod_cast Nat.ne_of_gt hpos

section
variable {N : Numerics} {c r : Vec} {m1 i : Nat} {g1 g2 : F64} (h1 : F64.isZero g1 = true) (h2 : F64.isZero g2 = true)
  (hpos : 1 ≤ i) (hle : i ≤ 65535)
include h1 h2 hpos hle

/-- With both exponents zero a term of finite sums is a zero. -/
theorem isZero_convTerm (hs1 : F64.isFinite (convSum1 N c r m1 i) = true)
    (hs2 : F64.isFinite (convSum2 N c r m1 i) = true) : F64.isZero (convTerm N c m1 g1 g2 r i) = true := by
  obtain ⟨hfin, hne⟩ := F64.ofNat_index hpos hle
  exact F64.isZero_div (F64.isZero_sub (F64.isZero_mul_left h2 hs2) (F64.isZero_mul_left h1 hs1)) hfin hne

omit hpos hle in
/-- With both exponents zero a term of a sum that left the range is a NaN. -/
theorem isNaN_convTerm (hs : F64.isFinite (convSum1 N c r m1 i) = false ∨ F64.isFinite (convSum2 N c r m1 i) = false) :
    F64.isNaN (convTerm N c m1 g1 g2 r i) = true := by
  have hsub : N.sub (N.mul g2 (convSum2 N c r m1 i)) (N.mul g1 (convSum1 N c r m1 i)) = N.nan := by
    rcases hs with hs | hs
    · refine F64.add_right_nan ((F64.isNaN_neg _).trans ?_)
      rw [Numerics.mul, F64.mul_zero_not_finite h1 hs]
      exact N.isNaN_nan
    · refine F64.add_left_nan ?_
      rw [Numerics.mul, F64.mul_zero_not_finite h2 hs]
      exact N.isNaN_nan
  have hdiv : N.div N.nan (F64.ofNat i) = N.nan := F64.div_left_nan N.isNaN_nan
  rw [convTerm, hsub, hdiv]
  exact N.isNaN_nan

end

/-- Settles O26: R133's lines over the result, and with both exponents zero a term that is a zero or a NaN. -/
theorem gc2gcRecurrence : Obligations.Gc2gcRecurrence := by
  intro N c m1 m2 g1 g2 r
  refine ⟨gc2gcF_length _ _ _ _ _ _, elem_gc2gcF_of_le N c m1 g1 g2 le_rfl (Nat.zero_le m2),
    fun i hpos hle => elem_gc2gcF_agree N c m1 g1 g2 rfl hpos hle, fun h1 h2 hfin hm2 i hpos hle => ?_⟩
  have hline := elem_gc2gcF_agree N c m1 g1 g2 (r := r) rfl hpos hle
  have hcfin := isFinite_elem hfin i
  refine ⟨fun ⟨hs1, hs2⟩ => ?kept, fun hs => ?nan⟩
  case kept =>
    have hzero := isZero_convTerm (g1 := g1) h1 h2 hpos (hle.trans hm2) hs1 hs2
    refine ⟨fun him => ?_, fun him => ?_⟩
    · have hkeep := F64.keeps_add (d := N.nan) hcfin hzero
      rw [if_pos him] at hline
      show F64.Keeps (elem c i) (elem r i)
      rw [F64.eq_of_agree_finite hline (hkeep.isFinite hcfin)]
      exact hkeep
    · rw [if_neg (by omega)] at hline
      rwa [← F64.eq_of_agree_finite hline (F64.isFinite_of_isZero hzero)] at hzero
  case nan =>
    have hnan := isNaN_convTerm (g1 := g1) h1 h2 hs
    refine F64.isNaN_of_agree hline ?_
    split_ifs
    · have hadd : N.add (elem c i) (convTerm N c m1 g1 g2 r i) = N.nan := F64.add_right_nan hnan
      rw [hadd]
      exact N.isNaN_nan
    · exact hnan

end Sys2Proof.Machine
end

section
/-!
PROOFS. The permutation loop of FFT_F is bit reversal (`41_spectral.md` R172).
-/

namespace Sys2Proof.Machine

/-! ### Reversed numbers -/

theorem reverseBits_lt (k i : Nat) : reverseBits k i < 2 ^ k := by
  induction k generalizing i with
  | zero => exact Nat.zero_lt_one
  | succ k ih =>
    have hlow := ih (i / 2)
    rw [reverseBits, pow_succ]
    rcases Nat.mod_two_eq_zero_or_one i with h | h <;> rw [h] <;> omega

theorem reverseBits_zero (k : Nat) : reverseBits k 0 = 0 := by
  induction k with
  | zero => rfl
  | succ k ih => rw [reverseBits, Nat.zero_div, ih, Nat.zero_mod, Nat.zero_mul]

/-- The top bit comes out lowest. -/
theorem reverseBits_add_top {k x : Nat} (hx : x < 2 ^ k) {b : Nat} (hb : b ≤ 1) :
    reverseBits (k + 1) (b * 2 ^ k + x) = 2 * reverseBits k x + b := by
  induction k generalizing x with
  | zero =>
    obtain rfl : x = 0 := by omega
    rcases (by omega : b = 0 ∨ b = 1) with rfl | rfl <;> rfl
  | succ k ih =>
    have hdouble : b * 2 ^ (k + 1) = 2 * (b * 2 ^ k) := by rw [pow_succ]; ring
    have hmod : (b * 2 ^ (k + 1) + x) % 2 = x % 2 := by rw [hdouble]; omega
    have hdiv : (b * 2 ^ (k + 1) + x) / 2 = b * 2 ^ k + x / 2 := by rw [hdouble]; omega
    rw [reverseBits, hmod, hdiv, ih (by rw [pow_succ] at hx; omega), reverseBits, pow_succ]
    ring

/-- Reversing twice gives the number back. -/
theorem reverseBits_reverseBits {k i : Nat} (h : i < 2 ^ k) : reverseBits k (reverseBits k i) = i := by
  induction k generalizing i with
  | zero =>
    obtain rfl : i = 0 := by omega
    rfl
  | succ k ih =>
    have hunfold : reverseBits (k + 1) i = i % 2 * 2 ^ k + reverseBits k (i / 2) := rfl
    rw [hunfold, reverseBits_add_top (reverseBits_lt k _) (by omega), ih (by rw [pow_succ] at h; omega)]
    exact Nat.div_add_mod i 2

/-- The inner loop counts up in reversed numbers: from the top it clears the ones and sets the first zero. -/
theorem bitRevNext_reverseBits {k i fuel : Nat} (hfuel : k ≤ fuel + 1) (h : i + 1 < 2 ^ k) :
    bitRevNext fuel (2 ^ k / 2) (reverseBits k i) = reverseBits k (i + 1) := by
  induction k generalizing i fuel with
  | zero => omega
  | succ k ih =>
    have hlow := reverseBits_lt k (i / 2)
    have hhalf : 2 ^ (k + 1) / 2 = 2 ^ k := by rw [pow_succ]; omega
    rw [hhalf, reverseBits, reverseBits]
    rcases Nat.mod_two_eq_zero_or_one i with hbit | hbit
    · have hclear : bitRevNext fuel (2 ^ k) (reverseBits k (i / 2)) = reverseBits k (i / 2) + 2 ^ k := by
        cases fuel with
        | zero => rfl
        | succ fuel => rw [bitRevNext, if_neg (by omega)]
      rw [hbit, Nat.zero_mul, Nat.zero_add, hclear, show (i + 1) % 2 = 1 by omega, show (i + 1) / 2 = i / 2 by omega]
      omega
    · have hk : 1 ≤ k := by
        by_contra hzero
        obtain rfl : k = 0 := by omega
        omega
      obtain ⟨fuel, rfl⟩ := Nat.exists_eq_add_of_le' (show 1 ≤ fuel by omega)
      rw [hbit, Nat.one_mul, bitRevNext, if_pos (by omega), Nat.add_sub_cancel_left,
        ih (by omega) (by rw [pow_succ] at h; omega), show (i + 1) % 2 = 0 by omega,
        show (i + 1) / 2 = i / 2 + 1 by omega]
      omega

/-! ### Elements after an update -/

theorem elem_set_same {V : Vec} {i : Nat} (x : F64) (h : i < V.length) : elem (V.set i x) i = x := by
  rw [elem, List.getD_eq_getElem?_getD, List.getElem?_set_self h]
  rfl

theorem elem_set_other (V : Vec) {i j : Nat} (x : F64) (h : i ≠ j) : elem (V.set i x) j = elem V j := by
  rw [elem, elem, List.getD_eq_getElem?_getD, List.getD_eq_getElem?_getD, List.getElem?_set_ne h]

theorem elem_swapElems {V : Vec} {i j : Nat} (hi : i < V.length) (hj : j < V.length) (hne : i ≠ j) (a : Nat) :
    elem (swapElems V i j) a = if a = i then elem V j else if a = j then elem V i else elem V a := by
  rw [swapElems]
  split_ifs with hai haj
  · rw [hai, elem_set_other _ _ hne.symm, elem_set_same _ hi]
  · rw [haj, elem_set_same _ (by rwa [List.length_set])]
  · rw [elem_set_other _ _ (Ne.symm haj), elem_set_other _ _ (Ne.symm hai)]

/-! ### The loop -/

/-- After the turns below `i` exactly the pairs with a place below `i` are swapped. -/
structure Reversed (k i : Nat) (V W : Vec) : Prop where
  length : W.length = 2 ^ k
  elems : ∀ a, a < 2 ^ k → elem W a = if a < i ∨ reverseBits k a < i then elem V (reverseBits k a) else elem V a

section
variable {k i : Nat} {V W : Vec}

theorem Reversed.init (h : V.length = 2 ^ k) : Reversed k 0 V V :=
  ⟨h, fun a _ => (if_neg (by omega)).symm⟩

/-- A turn swaps the pair of `i` where its other place has not come yet. -/
theorem Reversed.turn (h : Reversed k i V W) (hi : i < 2 ^ k) :
    Reversed k (i + 1) V (if i < reverseBits k i then swapElems W i (reverseBits k i) else W) := by
  have hrev := reverseBits_lt k i
  have hinv := reverseBits_reverseBits hi
  split_ifs with hlt
  · refine ⟨(swapElems_length _ _ _).trans h.length, fun a ha => ?_⟩
    have hlen := h.length
    rw [elem_swapElems (by omega) (by omega) hlt.ne]
    have hhere : elem W i = elem V i := by rw [h.elems i hi, if_neg (by omega)]
    have hthere : elem W (reverseBits k i) = elem V (reverseBits k i) := by
      rw [h.elems _ hrev, hinv, if_neg (by omega)]
    have hainv := reverseBits_reverseBits ha
    by_cases hai : a = i
    · rw [if_pos hai, hthere, if_pos (by omega), hai]
    · rw [if_neg hai]
      by_cases haj : a = reverseBits k i
      · rw [if_pos haj, hhere, if_pos (by rw [haj, hinv]; omega), haj, hinv]
      · have hne : reverseBits k a ≠ i := fun heq => haj (by rw [← heq, hainv])
        rw [if_neg haj, h.elems a ha]
        exact if_congr (by omega) rfl rfl
  · refine ⟨h.length, fun a ha => ?_⟩
    rw [h.elems a ha]
    have hainv := reverseBits_reverseBits ha
    by_cases hai : a = i
    · subst hai
      rw [if_pos (Or.inl (Nat.lt_succ_self _))]
      split_ifs with hold
      · rfl
      · rw [show reverseBits k a = a by omega]
    · by_cases haj : reverseBits k a = i
      · have hra : reverseBits k i = a := by rw [← haj, hainv]
        rw [if_pos (by omega), if_pos (by omega)]
      · exact if_congr (by omega) rfl rfl

/-- All turns but the last index, which is its own reversal. -/
theorem Reversed.final (h : Reversed k (2 ^ k - 1) V W) {a : Nat} (ha : a < 2 ^ k) :
    elem W a = elem V (reverseBits k a) := by
  have hrev := reverseBits_lt k a
  rw [h.elems a ha]
  split_ifs with hold
  · rfl
  · rw [show reverseBits k a = a by omega]

end

/-- One turn of the permutation loop on the reversed counter and both arrays (`41_spectral.md` R172). -/
def bitReverseTurn (n : Nat) (w : Nat × Pair) (i : Nat) : Nat × Pair :=
  (bitRevNext n (n / 2) w.1, if i < w.1 then (swapElems w.2.1 i w.1, swapElems w.2.2 i w.1) else w.2)

theorem bitReverse_eq (n : Nat) (z : Pair) :
    bitReverse n z = ((List.range (n - 1)).foldl (bitReverseTurn n) (0, z)).2 := rfl

/-- The loop after `i` turns: the counter is `i` reversed, and both arrays are permuted up to `i`. -/
theorem bitReverse_turns {k : Nat} {x y : Vec} (hx : x.length = 2 ^ k) (hy : y.length = 2 ^ k) {i : Nat}
    (hi : i + 1 ≤ 2 ^ k) :
    let w := (List.range i).foldl (bitReverseTurn (2 ^ k)) (0, (x, y))
    w.1 = reverseBits k i ∧ Reversed k i x w.2.1 ∧ Reversed k i y w.2.2 := by
  induction i with
  | zero =>
    exact ⟨(reverseBits_zero k).symm, .init hx, .init hy⟩
  | succ i ih =>
    obtain ⟨hcount, hrx, hry⟩ := ih (by omega)
    rw [List.range_succ, List.foldl_append, List.foldl_cons, List.foldl_nil]
    generalize (List.range i).foldl (bitReverseTurn (2 ^ k)) (0, (x, y)) = w at hcount hrx hry
    simp only [bitReverseTurn, hcount]
    refine ⟨bitRevNext_reverseBits ?_ (by omega), ?_, ?_⟩
    · exact Nat.le_succ_of_le Nat.lt_two_pow_self.le
    · have hturn := hrx.turn (by omega)
      split_ifs at hturn ⊢ <;> exact hturn
    · have hturn := hry.turn (by omega)
      split_ifs at hturn ⊢ <;> exact hturn

/-- Settles O33: the invariant of the loop after its last turn. -/
theorem bitReversalPermutes : Obligations.BitReversalPermutes := by
  intro k x y hx hy i hi
  have hpos := Nat.two_pow_pos k
  obtain ⟨-, hrx, hry⟩ := bitReverse_turns hx hy (i := 2 ^ k - 1) (by omega)
  rw [bitReverse_eq]
  exact ⟨hrx.final hi, hry.final hi⟩

end Sys2Proof.Machine
end

section
/-!
PROOFS. The twiddles of FFT_F (`41_spectral.md` R170, R171).
-/

namespace Sys2Proof.Machine

/-! ### The argument of SIN is a value -/

/-- `x` is a value from 0 to `b`. -/
structure F64.Within (b : Nat) (x : F64) : Prop where
  finite : F64.isFinite x = true
  nonneg : 0 ≤ F64.value x
  le : F64.value x ≤ b

section
variable {b c n : Nat} {d x y : F64}

theorem F64.within_ofNat (hb : b ≤ 2 ^ 53) : F64.Within b (F64.ofNat b) := by
  obtain ⟨hfin, hvalue⟩ := F64.isFinite_value_ofNat hb
  exact ⟨hfin, by rw [hvalue]; exact Nat.cast_nonneg b, hvalue.le⟩

/-- A number from 0 to an exact bound is rounded to a value from 0 to the bound. -/
theorem F64.within_of_rounds {q : ℚ} (hb : b ≤ 2 ^ 53) (h : F64.rounds q x) (hnonneg : 0 ≤ q) (hle : q ≤ b) :
    F64.Within b x := by
  obtain ⟨hfin, hvalue⟩ := F64.isFinite_value_ofNat hb
  obtain ⟨hx, hlo, hhi⟩ := F64.rounds_mem (F64.isFinite_zero false) hfin
    ⟨by rwa [F64.value_zero], by rwa [hvalue]⟩ h
  exact ⟨hx, by rwa [F64.value_zero] at hlo, by rwa [hvalue] at hhi⟩

theorem F64.Within.mul (hx : F64.Within b x) (hy : F64.Within c y) (hbc : b * c ≤ 2 ^ 53) :
    F64.Within (b * c) (F64.mul d x y) := by
  obtain ⟨hround, -⟩ := F64.rounds_mul hx.finite hy.finite d
  refine F64.within_of_rounds hbc hround (mul_nonneg hx.nonneg hy.nonneg) ?_
  rw [Nat.cast_mul]
  exact mul_le_mul hx.le hy.le hy.nonneg (Nat.cast_nonneg b)

theorem F64.isZero_ofNat (hn : 1 ≤ n) (hn' : n ≤ 2 ^ 53) : F64.isZero (F64.ofNat n) = false := by
  obtain ⟨hfin, hvalue⟩ := F64.isFinite_value_ofNat hn'
  rw [← Bool.not_eq_true, ← F64.value_eq_zero_iff hfin, hvalue, Nat.cast_eq_zero]
  omega

theorem F64.Within.div_ofNat (hx : F64.Within b x) (hb : b ≤ 2 ^ 53) (hn : 1 ≤ n) (hn' : n ≤ 2 ^ 53) :
    F64.Within b (F64.div d x (F64.ofNat n)) := by
  obtain ⟨hfin, hvalue⟩ := F64.isFinite_value_ofNat hn'
  obtain ⟨hround, -⟩ := F64.rounds_div hx.finite hfin d (F64.isZero_ofNat hn hn')
  rw [hvalue] at hround
  have hn₁ : (1 : ℚ) ≤ n := by exact_mod_cast hn
  exact F64.within_of_rounds hb hround (div_nonneg hx.nonneg (Nat.cast_nonneg n))
    ((div_le_self hx.nonneg hn₁).trans hx.le)

theorem F64.within_pi : F64.Within 4 F64.pi := by
  obtain ⟨hfin, hvalue⟩ := F64.isFinite_value_ofNat (show 4 ≤ 2 ^ 53 by decide)
  have hpi : F64.isFinite F64.pi = true := by decide
  refine ⟨hpi, ?_, ?_⟩
  · rw [← F64.value_zero false]
    exact (F64.value_le_value_iff (F64.isFinite_zero _) hpi).2 (by decide)
  · rw [← hvalue]
    exact (F64.value_le_value_iff hpi hfin).2 (by decide)

theorem F64.value_lit2 : F64.isFinite F64.lit2 = true ∧ F64.value F64.lit2 = 2 := by
  rw [show F64.lit2 = F64.ofNat 2 by decide]
  exact_mod_cast F64.isFinite_value_ofNat (show 2 ≤ 2 ^ 53 by decide)

theorem F64.within_lit2 : F64.Within 2 F64.lit2 := by
  obtain ⟨hfin, hvalue⟩ := F64.value_lit2
  exact ⟨hfin, by rw [hvalue]; norm_num, by rw [hvalue]; norm_num⟩

end

section
variable (N N' : Numerics) {n t : Nat}

/-- Where SIN is asked for a twiddle, the places of the draws do not matter. -/
theorem twArg_eq (hn : 1 ≤ n) (hn' : n ≤ 2 ^ 53) (ht : t ≤ 2 ^ 50) :
    twArg N n t = N'.mul (N'.mul (N'.div F64.pi (F64.ofNat n)) F64.lit2) (F64.ofNat t) := by
  refine F64.eq_of_agree_finite (Numerics.mul_agree _ _ (Numerics.mul_agree _ _ (Numerics.div_agree _ _
    (F64.agree_refl _) (F64.agree_refl _)) (F64.agree_refl _)) (F64.agree_refl _)) ?_
  have hquotient := F64.within_pi.div_ofNat (d := N'.nan) (by decide) hn hn'
  have hstep := hquotient.mul (d := N'.nan) F64.within_lit2 (by decide)
  exact (hstep.mul (F64.within_ofNat (by omega)) (by omega)).finite

/-- A twiddle is the same at every place, up to the draw of a NaN that SIN gives. -/
theorem tw_agree (hsin : N.sin = N'.sin) (hn : 1 ≤ n) (hn' : n ≤ 2 ^ 53) (ht : t ≤ 2 ^ 50) :
    F64.agree (tw N n t) (tw N' n t) := by
  rw [tw, tw]
  split_ifs
  · exact F64.agree_refl _
  · rw [twArg_eq (N.at 1) N hn hn' ht, twArg_eq (N'.at 1) N hn hn' ht]
    refine F64.agree_trans (Numerics.drawn_agree _ _) (F64.agree_symm ?_)
    have hsin' : (N'.at 0).sin = (N.at 0).sin := hsin.symm
    rw [Numerics.sinAt, hsin']
    exact Numerics.drawn_agree _ _

theorem twc_agree (hsin : N.sin = N'.sin) (hn : 1 ≤ n) (hn' : n ≤ 2 ^ 48) (ht : t ≤ 2 ^ 48) :
    F64.agree (twc N n t) (twc N' n t) :=
  tw_agree N N' hsin hn (by omega) (by omega)

end

/-! ### A table of twice the size (`41_spectral.md` R171) -/

/-- A normal value divided by a power of two that its exponent leaves room for is a value. -/
theorem F64.exists_value_div_two_pow {n e k : Nat} (s : Bool) (hn : 2 ^ 52 ≤ n) (hn' : n < 2 ^ 53) (he : e < 2046)
    (hk : k ≤ e) :
    ∃ z, F64.isFinite z = true ∧ F64.value z = F64.value (F64.pack s (e * 2 ^ 52 + n)) / 2 ^ k := by
  have hlt : e * 2 ^ 52 + n < 0x7FF0000000000000 := by omega
  have hlt' := (Nat.add_le_add_right (Nat.mul_le_mul_right (2 ^ 52) (Nat.sub_le e k)) n).trans_lt hlt
  have hfin := F64.isFinite_pack s hlt
  have hfin' := F64.isFinite_pack s hlt'
  refine ⟨F64.pack s ((e - k) * 2 ^ 52 + n), hfin', ?_⟩
  have hsplit : n * 2 ^ e = n * 2 ^ (e - k) * 2 ^ k := by rw [mul_assoc, ← pow_add, Nat.sub_add_cancel hk]
  have hne : (2 : ℚ) ^ k ≠ 0 := pow_ne_zero _ two_ne_zero
  rw [F64.value_eq hfin, F64.value_eq hfin', F64.sign_pack, F64.sign_pack, F64.magnitude_pack s hlt,
    F64.magnitude_pack s hlt', F64.scaled_mantissa hn'.le (.inr hn), F64.scaled_mantissa hn'.le (.inr hn), hsplit,
    Nat.cast_mul _ (2 ^ k), Nat.cast_pow, Nat.cast_ofNat, ← mul_assoc, div_right_comm, mul_div_assoc _ _ ((2 : ℚ) ^ k),
    div_self hne, mul_one]

theorem F64.exists_value_pi_div {k : Nat} (hk : k ≤ 1000) :
    ∃ z, F64.isFinite z = true ∧ F64.value z = F64.value F64.pi / 2 ^ k := by
  have hpi : F64.pi = F64.pack false (1023 * 2 ^ 52 + 0x1921FB54442D18) := by decide
  rw [hpi]
  exact F64.exists_value_div_two_pow false (by decide) (by decide) (by decide) (by omega)

/-- PI over a power of two and its double are exact, so the argument is rounded once. -/
theorem rounds_twArg (N : Numerics) {k t : Nat} (hk : 1 ≤ k) (hk' : k ≤ 50) (ht : t ≤ 2 ^ 53) :
    F64.rounds (F64.value F64.pi / 2 ^ (k - 1) * t) (twArg N (2 ^ k) t) ∧ F64.sign (twArg N (2 ^ k) t) = false := by
  have hpow : 2 ^ k ≤ 2 ^ 53 := Nat.pow_le_pow_right two_pos (by omega)
  obtain ⟨hn, hnvalue⟩ := F64.isFinite_value_ofNat hpow
  obtain ⟨htfin, htvalue⟩ := F64.isFinite_value_ofNat ht
  obtain ⟨htwo, htwovalue⟩ := F64.value_lit2
  obtain ⟨u, hu, huvalue⟩ := F64.exists_value_pi_div (k := k) (by omega)
  obtain ⟨v, hv, hvvalue⟩ := F64.exists_value_pi_div (k := k - 1) (by omega)
  have hofNat : ∀ i, F64.sign (F64.ofNat i) = false := fun i => F64.sign_round false i 1074 1074
  obtain ⟨hquotient, hsign⟩ := F64.rounds_div F64.within_pi.finite hn (N.at 2).nan
    (F64.isZero_ofNat Nat.one_le_two_pow hpow)
  rw [hnvalue, Nat.cast_pow, Nat.cast_ofNat, ← huvalue] at hquotient
  obtain ⟨hqfin, hqvalue⟩ := F64.rounds_value hu hquotient
  obtain ⟨hdouble, hsign'⟩ := F64.rounds_mul hqfin htwo (N.at 1).nan
  have hstep : F64.value u * 2 = F64.value v := by
    rw [huvalue, hvvalue, ← Nat.sub_add_cancel hk, Nat.add_sub_cancel, pow_succ]
    field_simp
  rw [hqvalue, htwovalue, hstep] at hdouble
  obtain ⟨hdfin, hdvalue⟩ := F64.rounds_value hv hdouble
  obtain ⟨hlast, hsign''⟩ := F64.rounds_mul hdfin htfin (N.at 0).nan
  rw [hdvalue, hvvalue, htvalue] at hlast
  refine ⟨hlast, hsign''.trans ?_⟩
  rw [hsign', hsign, hofNat, hofNat]
  decide

/-- The argument for an entry is the same in a table of a greater size. -/
theorem twArg_scale (N : Numerics) {j d t : Nat} (hj : 1 ≤ j) (hd : j + d ≤ 16) (ht : t ≤ 2 ^ j) :
    twArg N (2 ^ (j + d)) (t * 2 ^ d) = twArg N (2 ^ j) t := by
  have hscaled : t * 2 ^ d ≤ 2 ^ 53 := by
    calc t * 2 ^ d ≤ 2 ^ j * 2 ^ d := Nat.mul_le_mul_right _ ht
      _ = 2 ^ (j + d) := (pow_add 2 j d).symm
      _ ≤ 2 ^ 53 := Nat.pow_le_pow_right two_pos (by omega)
  have ht' : t ≤ 2 ^ 53 := ht.trans (Nat.pow_le_pow_right two_pos (by omega))
  obtain ⟨hlarge, hlargeSign⟩ := rounds_twArg N (k := j + d) (by omega) (by omega) hscaled
  obtain ⟨hsmall, hsmallSign⟩ := rounds_twArg N hj (by omega) ht'
  have hnumber : F64.value F64.pi / 2 ^ (j + d - 1) * ((t * 2 ^ d : Nat) : ℚ) = F64.value F64.pi / 2 ^ (j - 1) * t := by
    rw [show j + d - 1 = (j - 1) + d by omega, pow_add, Nat.cast_mul, Nat.cast_pow, Nat.cast_ofNat]
    field_simp
  rw [hnumber] at hlarge
  exact F64.rounds_unique hlarge hsmall (hlargeSign.trans hsmallSign.symm)

theorem tw_scale (N : Numerics) {j d t : Nat} (hj : 1 ≤ j) (hd : j + d ≤ 16) (ht : t ≤ 2 ^ j) :
    tw N (2 ^ (j + d)) (t * 2 ^ d) = tw N (2 ^ j) t := by
  obtain ⟨i, rfl⟩ := Nat.exists_eq_add_of_le' hj
  have hpos := Nat.two_pow_pos d
  have hhalf : 2 ^ (i + 1) / 2 = 2 ^ i := by rw [pow_succ, Nat.mul_div_cancel _ two_pos]
  have hhalf' : 2 ^ (i + 1 + d) / 2 = 2 ^ i * 2 ^ d := by
    rw [show i + 1 + d = i + d + 1 by omega, pow_succ, Nat.mul_div_cancel _ two_pos, pow_add]
  have hzeros : (t * 2 ^ d = 0 ∨ t * 2 ^ d = 2 ^ i * 2 ^ d) ↔ (t = 0 ∨ t = 2 ^ i) := by
    rw [Nat.mul_eq_zero, or_iff_left hpos.ne', Nat.mul_left_inj hpos.ne']
  rw [tw, tw, hhalf, hhalf', twArg_scale (N.at 1) hj hd ht]
  exact if_congr hzeros rfl rfl

/-- Settles O32: every entry's argument is rounded once, from a number that the table's size does not change. -/
theorem twiddleIndependentOfTableSize : Obligations.TwiddleIndependentOfTableSize := by
  refine ⟨fun N j k t hj hjk hk ht => ?table, fun N k hk hk' => ⟨if_pos (.inl rfl), if_pos (.inr rfl), ?values,
    fun _ _ => rfl⟩⟩
  case table =>
    obtain ⟨d, rfl⟩ := Nat.exists_eq_add_of_le hjk
    have hindex : 4 * (t * 2 ^ d) ≤ 3 * 2 ^ (j + d) := by
      rw [pow_add, ← mul_assoc, ← mul_assoc]
      exact Nat.mul_le_mul_right _ ht
    rw [sinTable, if_neg (Nat.two_pow_pos _).ne', Nat.add_sub_cancel_left, elem_map_range _ (by omega)]
    exact tw_scale N (by omega) hk (by omega)
  case values =>
    intro t hzero hhalf ht
    have hsize : 2 ^ k ≤ 2 ^ 16 := Nat.pow_le_pow_right two_pos hk'
    rw [tw, if_neg (not_or.2 ⟨hzero, hhalf⟩),
      twArg_eq (N.at 1) N Nat.one_le_two_pow (hsize.trans (by decide)) (by omega)]
    exact (N.at 0).drawn_agree _

end Sys2Proof.Machine
end

section
/-!
PROOFS. FFT_F is its stages of butterflies, a last stage without twiddles, and the bit reversal (`41_spectral.md` R172).
-/

namespace Sys2Proof.Machine

/-! ### Turns of a loop that touch different places -/

/-- The two pairs of arrays are the same at every place of `P`. -/
def SameAt (P : Nat → Prop) (z w : Pair) : Prop := ∀ i, P i → elem w.1 i = elem z.1 i ∧ elem w.2 i = elem z.2 i

section
variable {P : Nat → Prop} {f : Pair → Nat → Pair} {z w v : Pair}

theorem SameAt.refl (P : Nat → Prop) (z : Pair) : SameAt P z z := fun _ _ => ⟨rfl, rfl⟩

theorem SameAt.symm (h : SameAt P z w) : SameAt P w z := fun i hi => (h i hi).imp Eq.symm Eq.symm

theorem SameAt.trans (h : SameAt P z w) (h' : SameAt P w v) : SameAt P z v := fun i hi =>
  ⟨(h' i hi).1.trans (h i hi).1, (h' i hi).2.trans (h i hi).2⟩

theorem foldl_sameAt {l : List Nat} (h : ∀ b ∈ l, ∀ z, SameAt P z (f z b)) (z : Pair) :
    SameAt P z (l.foldl f z) := by
  induction l generalizing z with
  | nil => exact .refl P z
  | cons b l ih => exact (h b List.mem_cons_self z).trans (ih (fun b' hb => h b' (List.mem_cons_of_mem b hb)) _)

/-- Where only turn `a` touches `P`, the loop leaves there what turn `a` makes of the elements as they stood before the
loop. -/
theorem foldl_range_sameAt {n a : Nat} (ha : a < n) (hlen : ∀ b z, Pair.lengths (f z b) = Pair.lengths z)
    (h : ∀ b < n, b ≠ a → ∀ z, SameAt P z (f z b)) (z : Pair) :
    ∃ z', Pair.lengths z' = Pair.lengths z ∧ SameAt P z z' ∧ SameAt P (f z' a) ((List.range n).foldl f z) := by
  induction n with
  | zero => omega
  | succ n ih =>
    rw [List.range_succ, List.foldl_append, List.foldl_cons, List.foldl_nil]
    rcases Nat.lt_succ_iff_lt_or_eq.1 ha with hlt | rfl
    · obtain ⟨z', hlen', hbefore, hafter⟩ := ih hlt fun b hb => h b (hb.trans n.lt_succ_self)
      exact ⟨z', hlen', hbefore, hafter.trans (h n n.lt_succ_self hlt.ne' _)⟩
    · exact ⟨_, foldl_keeps Pair.lengths f (fun z b => hlen b z) _ z,
        foldl_sameAt (fun b hb => h b ((List.mem_range.1 hb).trans a.lt_succ_self) (List.mem_range.1 hb).ne) z,
        .refl P _⟩

end

/-- Two updates at different places. -/
theorem elem_set_set_left {V : Vec} {p q : Nat} (a b : F64) (hp : p < V.length) (hne : p ≠ q) :
    elem ((V.set p a).set q b) p = a := by
  rw [elem_set_other _ _ hne.symm, elem_set_same _ hp]

theorem elem_set_set_right {V : Vec} {p q : Nat} (a b : F64) (hq : q < V.length) : elem ((V.set p a).set q b) q = b :=
  elem_set_same _ (by rwa [List.length_set])

theorem elem_set_set_other (V : Vec) {p q i : Nat} (a b : F64) (hp : i ≠ p) (hq : i ≠ q) :
    elem ((V.set p a).set q b) i = elem V i := by
  rw [elem_set_other _ _ hq.symm, elem_set_other _ _ hp.symm]

/-! ### One butterfly -/

section
variable {N N' : Numerics} {s s' c c' : F64} {lmx p q : Nat} {z z' w w' : Pair}

theorem isButterfly_fftButterfly (hs : F64.agree s' s) (hc : F64.agree c' c) (hl : 1 ≤ lmx) (hx : p + lmx < z.1.length)
    (hy : p + lmx < z.2.length) : IsButterfly N s c p (p + lmx) z (fftButterfly N' s' c' lmx p z) where
  sumReal := by
    rw [fftButterfly, elem_set_set_left _ _ (by omega) (by omega)]
    exact Numerics.add_agree _ _ (F64.agree_refl _) (F64.agree_refl _)
  sumImag := by
    rw [fftButterfly, elem_set_set_left _ _ (by omega) (by omega)]
    exact Numerics.add_agree _ _ (F64.agree_refl _) (F64.agree_refl _)
  diffReal := by
    rw [fftButterfly, elem_set_set_right _ _ hx]
    exact Numerics.add_agree _ _
      (Numerics.mul_agree _ _ hc (Numerics.sub_agree _ _ (F64.agree_refl _) (F64.agree_refl _)))
      (Numerics.mul_agree _ _ hs (Numerics.sub_agree _ _ (F64.agree_refl _) (F64.agree_refl _)))
  diffImag := by
    rw [fftButterfly, elem_set_set_right _ _ hy]
    exact Numerics.sub_agree _ _
      (Numerics.mul_agree _ _ hc (Numerics.sub_agree _ _ (F64.agree_refl _) (F64.agree_refl _)))
      (Numerics.mul_agree _ _ hs (Numerics.sub_agree _ _ (F64.agree_refl _) (F64.agree_refl _)))

theorem elem_fftButterfly_other {i : Nat} (hp : i ≠ p) (hq : i ≠ p + lmx) :
    elem (fftButterfly N s c lmx p z).1 i = elem z.1 i ∧ elem (fftButterfly N s c lmx p z).2 i = elem z.2 i :=
  ⟨elem_set_set_other _ _ _ hp hq, elem_set_set_other _ _ _ hp hq⟩

/-- A butterfly is about the elements at its two places. -/
theorem IsButterfly.congr (h : IsButterfly N s c p q z w) (hz : SameAt (fun i => i = p ∨ i = q) z' z)
    (hw : SameAt (fun i => i = p ∨ i = q) w w') : IsButterfly N s c p q z' w' := by
  obtain ⟨hzp, hzp'⟩ := hz p (.inl rfl)
  obtain ⟨hzq, hzq'⟩ := hz q (.inr rfl)
  obtain ⟨hwp, hwp'⟩ := hw p (.inl rfl)
  obtain ⟨hwq, hwq'⟩ := hw q (.inr rfl)
  obtain ⟨hsr, hsi, hdr, hdi⟩ := h
  rw [hzp, hzq] at hsr
  rw [hzp', hzq'] at hsi
  rw [hzp, hzq, hzp', hzq'] at hdr hdi
  exact ⟨hwp ▸ hsr, hwp' ▸ hsi, hwq ▸ hdr, hwq' ▸ hdi⟩

end

/-! ### One stage -/

/-- The butterflies of one twiddle. -/
def twiddleTurn (N : Numerics) (n lmx lf : Nat) (z : Pair) (j : Nat) : Pair :=
  (List.range (n / (2 * lmx))).foldl
    (fun z q => fftButterfly (((N.at j).at 2).at q) (tw ((N.at j).at 0) n (j * lf)) (twc ((N.at j).at 1) n (j * lf))
      lmx (j + q * (2 * lmx)) z) z

theorem fftStage_eq (N : Numerics) (n lmx lf : Nat) (z : Pair) :
    fftStage N n lmx lf z = (List.range lmx).foldl (twiddleTurn N n lmx lf) z := rfl

theorem twiddleTurn_lengths (N : Numerics) (n lmx lf j : Nat) (z : Pair) :
    Pair.lengths (twiddleTurn N n lmx lf z j) = Pair.lengths z :=
  foldl_keeps Pair.lengths _ (fun _ _ => fftButterfly_lengths _ _ _ _ _ _) _ _

/-- The two places of the butterfly number `q` of twiddle `j`. -/
def butterflyPlaces (lmx j q i : Nat) : Prop := i = j + q * (2 * lmx) ∨ i = j + q * (2 * lmx) + lmx

section
variable {lmx j j' q q' i : Nat}

/-- The places of a butterfly tell its twiddle. -/
theorem butterflyPlaces.mod_eq (hi : butterflyPlaces lmx j q i) (hj : j < lmx) : i % lmx = j := by
  have hsplit : q * (2 * lmx) = q * 2 * lmx := (mul_assoc q 2 lmx).symm
  rcases hi with rfl | rfl
  · rw [hsplit, Nat.add_mul_mod_self_right, Nat.mod_eq_of_lt hj]
  · rw [hsplit, Nat.add_mod_right, Nat.add_mul_mod_self_right, Nat.mod_eq_of_lt hj]

/-- The places of a butterfly tell its turn among those of its twiddle. -/
theorem butterflyPlaces.div_eq (hi : butterflyPlaces lmx j q i) (hj : j < lmx) : i / (2 * lmx) = q := by
  rcases hi with rfl | rfl
  · rw [Nat.add_mul_div_right _ _ (by omega), Nat.div_eq_of_lt (by omega), Nat.zero_add]
  · rw [Nat.add_right_comm, Nat.add_mul_div_right _ _ (by omega), Nat.div_eq_of_lt (by omega), Nat.zero_add]

/-- Another butterfly of the stage leaves the places of this one. -/
theorem fftButterfly_sameAt (N : Numerics) (s c : F64) (hj : j < lmx) (hj' : j' < lmx) (hne : j' ≠ j ∨ q' ≠ q)
    (z : Pair) : SameAt (butterflyPlaces lmx j q) z (fftButterfly N s c lmx (j' + q' * (2 * lmx)) z) := by
  intro i hi
  have hother : ∀ i', butterflyPlaces lmx j' q' i' → i ≠ i' := by
    rintro i' hi' rfl
    rcases hne with hne | hne
    · exact hne ((hi'.mod_eq hj').symm.trans (hi.mod_eq hj))
    · exact hne ((hi'.div_eq hj').symm.trans (hi.div_eq hj))
  exact elem_fftButterfly_other (hother _ (.inl rfl)) (hother _ (.inr rfl))

end

section
variable {N N' : Numerics} {n lmx lf : Nat} {z : Pair}

/-- The butterflies of one twiddle, at the places of one of them. -/
theorem twiddleTurn_sameAt (N : Numerics) (n lf : Nat) {j q : Nat} (hj : j < lmx) (hq : q < n / (2 * lmx)) (z : Pair) :
    ∃ z', Pair.lengths z' = Pair.lengths z ∧ SameAt (butterflyPlaces lmx j q) z z' ∧
      SameAt (butterflyPlaces lmx j q)
        (fftButterfly (((N.at j).at 2).at q) (tw ((N.at j).at 0) n (j * lf)) (twc ((N.at j).at 1) n (j * lf)) lmx
          (j + q * (2 * lmx)) z')
        (twiddleTurn N n lmx lf z j) :=
  foldl_range_sameAt hq (fun _ _ => fftButterfly_lengths _ _ _ _ _ _)
    (fun _ _ hne w => fftButterfly_sameAt _ _ _ hj hj (.inr hne) w) z

/-- The butterflies of another twiddle leave the places of this one. -/
theorem twiddleTurn_sameAt_other (N : Numerics) (n lf : Nat) {j q b : Nat} (hj : j < lmx) (hb : b < lmx) (hne : b ≠ j)
    (z : Pair) : SameAt (butterflyPlaces lmx j q) z (twiddleTurn N n lmx lf z b) :=
  foldl_sameAt (fun _ _ w => fftButterfly_sameAt _ _ _ hj hb (.inl hne) w) z

theorem butterflyPlace_lt {j q : Nat} (hj : j < lmx) (hq : q < n / (2 * lmx)) : j + q * (2 * lmx) + lmx < n := by
  have hlast : (q + 1) * (2 * lmx) ≤ n := (Nat.mul_le_mul_right _ hq).trans (Nat.div_mul_le_self n _)
  rw [Nat.succ_mul] at hlast
  omega

/-- The butterflies of a stage touch different places, so each acts on the arrays as they stood before the stage. -/
theorem isStage_fftStage (hsin : N'.sin = N.sin) (hn : 1 ≤ n) (hn' : n ≤ 2 ^ 48) (hlf : lmx * lf ≤ n)
    (hz : Pair.lengths z = (n, n)) : IsStage N n lmx lf z (fftStage N' n lmx lf z) := by
  have hlengths := fftStage_lengths N' n lmx lf z
  refine ⟨congrArg Prod.fst hlengths, congrArg Prod.snd hlengths, fun j q hj hq => ?_⟩
  have hindex : j * lf ≤ 2 ^ 48 := (Nat.mul_le_mul_right lf hj.le).trans (hlf.trans hn')
  have hroom := butterflyPlace_lt hj hq
  obtain ⟨z₁, hlen₁, hbefore₁, hafter₁⟩ := foldl_range_sameAt hj (fun b z => twiddleTurn_lengths N' n lmx lf b z)
    (fun b hb hne => twiddleTurn_sameAt_other (q := q) N' n lf hj hb hne) z
  obtain ⟨z₂, hlen₂, hbefore₂, hafter₂⟩ := twiddleTurn_sameAt N' n lf hj hq z₁
  have hlen := hlen₂.trans (hlen₁.trans hz)
  have hx : z₂.1.length = n := congrArg Prod.fst hlen
  have hy : z₂.2.length = n := congrArg Prod.snd hlen
  have hs : F64.agree (tw ((N'.at j).at 0) n (j * lf)) (tw N n (j * lf)) :=
    tw_agree _ _ hsin hn (hn'.trans (by decide)) (hindex.trans (by decide))
  have hc : F64.agree (twc ((N'.at j).at 1) n (j * lf)) (twc N n (j * lf)) := twc_agree _ _ hsin hn hn' hindex
  rw [fftStage_eq]
  exact (isButterfly_fftButterfly hs hc (by omega) (hx ▸ hroom) (hy ▸ hroom)).congr
    (hbefore₁.trans hbefore₂) (hafter₂.trans hafter₁)

/-- The stages of half-lengths `2^m` down to 2. -/
theorem fftStages_chain {k m fuel i : Nat} (hsin : N'.sin = N.sin) (hk : k ≤ 48) (hm : m + 1 + i = k) (hfuel : m ≤ fuel)
    (hz : Pair.lengths z = (2 ^ k, 2 ^ k)) :
    ∃ zs : Nat → Pair, zs 0 = z ∧
      (∀ r, r < m → IsStage N (2 ^ k) (2 ^ (m - r)) (2 ^ (i + r)) (zs r) (zs (r + 1))) ∧
      fftStages N' (2 ^ k) fuel (2 ^ (m + 1)) (2 ^ i) z = zs m := by
  induction m generalizing N' fuel i z with
  | zero =>
    refine ⟨fun _ => z, rfl, fun r hr => absurd hr (Nat.not_lt_zero r), ?_⟩
    cases fuel with
    | zero => rfl
    | succ fuel => rfl
  | succ m ih =>
    obtain ⟨fuel, rfl⟩ := Nat.exists_eq_add_of_le' (show 1 ≤ fuel by omega)
    have hhalf : 2 ^ (m + 1 + 1) / 2 = 2 ^ (m + 1) := by rw [pow_succ, Nat.mul_div_cancel _ two_pos]
    have hlong : ¬2 ^ (m + 1) ≤ 1 := by
      have hpos := Nat.two_pow_pos m
      rw [pow_succ]
      omega
    have hstage : IsStage N (2 ^ k) (2 ^ (m + 1)) (2 ^ i) z (fftStage (N'.at 0) (2 ^ k) (2 ^ (m + 1)) (2 ^ i) z) :=
      isStage_fftStage hsin Nat.one_le_two_pow (Nat.pow_le_pow_right two_pos hk)
        (by rw [← pow_add]; exact Nat.pow_le_pow_right two_pos (by omega)) hz
    obtain ⟨zs, hzero, hstages, hlast⟩ := ih (N' := N'.at 1) (fuel := fuel) (i := i + 1) hsin (by omega) (by omega)
      ((fftStage_lengths (N'.at 0) (2 ^ k) (2 ^ (m + 1)) (2 ^ i) z).trans hz)
    refine ⟨fun r => Nat.casesOn r z zs, rfl, fun r hr => ?_, ?_⟩
    · cases r with
      | zero =>
        show IsStage N (2 ^ k) (2 ^ (m + 1)) (2 ^ i) z (zs 0)
        rwa [hzero]
      | succ r =>
        rw [show m + 1 - (r + 1) = m - r by omega, show i + (r + 1) = i + 1 + r by omega]
        exact hstages r (by omega)
    · rw [fftStages, hhalf, if_neg hlong, ← pow_succ', hlast]

/-! ### The last stage -/

/-- A butterfly of the last stage. -/
def lastTurn (N : Numerics) (z : Pair) (h : Nat) : Pair :=
  ((z.1.set (2 * h) (((N.at h).at 0).add (elem z.1 (2 * h)) (elem z.1 (2 * h + 1)))).set (2 * h + 1)
      (((N.at h).at 1).sub (elem z.1 (2 * h)) (elem z.1 (2 * h + 1))),
    (z.2.set (2 * h) (((N.at h).at 2).add (elem z.2 (2 * h)) (elem z.2 (2 * h + 1)))).set (2 * h + 1)
      (((N.at h).at 3).sub (elem z.2 (2 * h)) (elem z.2 (2 * h + 1))))

theorem fftLastStage_eq (N : Numerics) (n : Nat) (z : Pair) :
    fftLastStage N n z = (List.range (n / 2)).foldl (lastTurn N) z := rfl

theorem lastTurn_lengths (N : Numerics) (h : Nat) (z : Pair) : Pair.lengths (lastTurn N z h) = Pair.lengths z := by
  simp only [lastTurn, Pair.lengths, List.length_set]

theorem isLastStage_fftLastStage (hz : Pair.lengths z = (n, n)) : IsLastStage N n z (fftLastStage N' n z) := by
  have hlengths := fftLastStage_lengths N' n z
  refine ⟨congrArg Prod.fst hlengths, congrArg Prod.snd hlengths, fun h hh => ?_⟩
  obtain ⟨z', hlen, hbefore, hafter⟩ := foldl_range_sameAt (P := fun i => i = 2 * h ∨ i = 2 * h + 1) hh
    (fun b z => lastTurn_lengths N' b z)
    (fun b _ hne w i hi => ⟨elem_set_set_other _ _ _ (by omega) (by omega),
      elem_set_set_other _ _ _ (by omega) (by omega)⟩) z
  have hx : z'.1.length = n := congrArg Prod.fst (hlen.trans hz)
  have hy : z'.2.length = n := congrArg Prod.snd (hlen.trans hz)
  obtain ⟨hxp, hyp⟩ := hbefore (2 * h) (.inl rfl)
  obtain ⟨hxq, hyq⟩ := hbefore (2 * h + 1) (.inr rfl)
  obtain ⟨hrp, hip⟩ := hafter (2 * h) (.inl rfl)
  obtain ⟨hrq, hiq⟩ := hafter (2 * h + 1) (.inr rfl)
  rw [← fftLastStage_eq] at hrp hip hrq hiq
  rw [hrp, hip, hrq, hiq, ← hxp, ← hyp, ← hxq, ← hyq, lastTurn, elem_set_set_left _ _ (by omega) (by omega),
    elem_set_set_left _ _ (by omega) (by omega), elem_set_set_right _ _ (by omega),
    elem_set_set_right _ _ (by omega)]
  exact ⟨Numerics.add_agree _ _ (F64.agree_refl _) (F64.agree_refl _),
    Numerics.add_agree _ _ (F64.agree_refl _) (F64.agree_refl _),
    Numerics.sub_agree _ _ (F64.agree_refl _) (F64.agree_refl _),
    Numerics.sub_agree _ _ (F64.agree_refl _) (F64.agree_refl _)⟩

end

/-! ### The transform -/

/-- The transform of length 2 runs the last stage alone. -/
theorem fftF_two (N : Numerics) (x0 x1 y0 y1 : F64) :
    fftF N [x0, x1] [y0, y1] 2 =
      ([(((N.at 1).at 0).at 0).add x0 x1, (((N.at 1).at 0).at 1).sub x0 x1],
        [(((N.at 1).at 0).at 2).add y0 y1, (((N.at 1).at 0).at 3).sub y0 y1]) := rfl

/-- Settles O34: the stages one after the other, the last stage, and the permutation of O33. -/
theorem fftOfLengthTwo : Obligations.FftOfLengthTwo := by
  refine ⟨fun N x0 x1 y0 y1 => ⟨_, _, _, _, fftF_two N x0 x1 y0 y1, ?_, ?_, ?_, ?_⟩,
    fun N s c lmx p z hl hx hy => ⟨?_, ?_⟩, fun N k x y hk hk' hx hy => ?stages⟩
  · exact Numerics.add_agree _ _ (F64.agree_refl _) (F64.agree_refl _)
  · exact Numerics.sub_agree _ _ (F64.agree_refl _) (F64.agree_refl _)
  · exact Numerics.add_agree _ _ (F64.agree_refl _) (F64.agree_refl _)
  · exact Numerics.sub_agree _ _ (F64.agree_refl _) (F64.agree_refl _)
  · exact isButterfly_fftButterfly (F64.agree_refl _) (F64.agree_refl _) hl hx hy
  · exact fun i hp hq => elem_fftButterfly_other hp hq
  case stages =>
    obtain ⟨m, rfl⟩ := Nat.exists_eq_add_of_le' hk
    have hlen : Pair.lengths (x, y) = (2 ^ (m + 1), 2 ^ (m + 1)) := Prod.ext hx hy
    have hfuel : m ≤ 2 ^ (m + 1) := (Nat.le_succ m).trans Nat.lt_two_pow_self.le
    obtain ⟨zs, hzero, hstages, hend⟩ := fftStages_chain (N := N) (N' := N.at 0) (i := 0) rfl (by omega) rfl hfuel hlen
    have hlen' : Pair.lengths (zs m) = (2 ^ (m + 1), 2 ^ (m + 1)) := by
      rw [← hend, fftStages_lengths]
      exact hlen
    have hlast : IsLastStage N (2 ^ (m + 1)) (zs m) (fftLastStage (N.at 1) (2 ^ (m + 1)) (zs m)) :=
      isLastStage_fftLastStage hlen'
    have hlen'' := (fftLastStage_lengths (N.at 1) (2 ^ (m + 1)) (zs m)).trans hlen'
    refine ⟨zs, _, hzero, fun i hi => ?_, hlast, fun i hi => ?_⟩
    · have hstage := hstages i (by omega)
      rwa [Nat.zero_add] at hstage
    · have hend' : fftStages (N.at 0) (2 ^ (m + 1)) (2 ^ (m + 1)) (2 ^ (m + 1)) 1 (x, y) = zs m := hend
      rw [fftF, hend']
      exact bitReversalPermutes (m + 1) _ _ (congrArg Prod.fst hlen'') (congrArg Prod.snd hlen'') i hi

end Sys2Proof.Machine
end

section
/-!
PROOFS. RFFT_F and its reconstruction from the half-length transform (`41_spectral.md` R173, R183).
-/

namespace Sys2Proof.Machine

/-- The transform of half the length that RFFT_F reconstructs from. -/
def halfTransform (N : Numerics) (x : Vec) (M : Nat) : Pair := fftF (N.at 0) (everyOther x M 0) (everyOther x M 1) M

section
variable (N N' : Numerics) (x X Y : Vec) {M t : Nat}

/-- The real parts by index. -/
theorem elem_rfftF_fst {k : Nat} (hk : k < 2 * M) :
    elem (rfftF N x (2 * M)).1 k =
      if k = 0 then (N.at 1).add (elem (halfTransform N x M).1 0) (elem (halfTransform N x M).2 0)
      else if k = M then (N.at 2).sub (elem (halfTransform N x M).1 0) (elem (halfTransform N x M).2 0)
      else if k < M then rfftReal (N.at 3) (halfTransform N x M).1 (halfTransform N x M).2 (2 * M) k
      else rfftReal (N.at 3) (halfTransform N x M).1 (halfTransform N x M).2 (2 * M) (2 * M - k) := by
  rw [rfftF, elem_map_range _ hk, Nat.mul_div_cancel_left M two_pos, halfTransform]

/-- The imaginary parts by index. -/
theorem elem_rfftF_snd {k : Nat} (hk : k < 2 * M) :
    elem (rfftF N x (2 * M)).2 k =
      if k = 0 then F64.lit0
      else if k = M then F64.lit0
      else if k < M then F64.neg (rfftImag (N.at 3) (halfTransform N x M).1 (halfTransform N x M).2 (2 * M) k)
      else rfftImag (N.at 3) (halfTransform N x M).1 (halfTransform N x M).2 (2 * M) (2 * M - k) := by
  rw [rfftF, elem_map_range _ hk, Nat.mul_div_cancel_left M two_pos, halfTransform]

/-- Above the middle stands the reconstruction, below it the same at the mirrored index. -/
theorem elem_rfftF_mirror (ht : 1 ≤ t) (htM : t < M) :
    (elem (rfftF N x (2 * M)).1 (2 * M - t) =
        rfftReal (N.at 3) (halfTransform N x M).1 (halfTransform N x M).2 (2 * M) t ∧
      elem (rfftF N x (2 * M)).2 (2 * M - t) =
        rfftImag (N.at 3) (halfTransform N x M).1 (halfTransform N x M).2 (2 * M) t) ∧
    elem (rfftF N x (2 * M)).1 t = elem (rfftF N x (2 * M)).1 (2 * M - t) ∧
      elem (rfftF N x (2 * M)).2 t = F64.neg (elem (rfftF N x (2 * M)).2 (2 * M - t)) := by
  have hback : 2 * M - (2 * M - t) = t := by omega
  have hreal : elem (rfftF N x (2 * M)).1 (2 * M - t) =
      rfftReal (N.at 3) (halfTransform N x M).1 (halfTransform N x M).2 (2 * M) t := by
    rw [elem_rfftF_fst N x (by omega), if_neg (by omega), if_neg (by omega), if_neg (by omega), hback]
  have himag : elem (rfftF N x (2 * M)).2 (2 * M - t) =
      rfftImag (N.at 3) (halfTransform N x M).1 (halfTransform N x M).2 (2 * M) t := by
    rw [elem_rfftF_snd N x (by omega), if_neg (by omega), if_neg (by omega), if_neg (by omega), hback]
  refine ⟨⟨hreal, himag⟩, ?_, ?_⟩
  · rw [hreal, elem_rfftF_fst N x (by omega), if_neg (by omega), if_neg (by omega), if_pos htM]
  · rw [himag, elem_rfftF_snd N x (by omega), if_neg (by omega), if_neg (by omega), if_pos htM]

variable {N N'}

/-- The line of the real parts, at any place. -/
theorem rfftReal_agree (hsin : N'.sin = N.sin) (hM : 1 ≤ M) (hM' : M ≤ 2 ^ 15) (ht : t < M) :
    let s := tw N (2 * M) t
    let c := twc N (2 * M) t
    let yt := N.add (elem Y t) (elem Y (M - t))
    let xt := N.sub (elem X t) (elem X (M - t))
    F64.agree (rfftReal N' X Y (2 * M) t)
      (N.mul (N.sub (N.add (N.add (elem X t) (elem X (M - t))) (N.mul c yt)) (N.mul s xt)) 0x3FE0000000000000#64) := by
  rw [rfftReal, Nat.mul_div_cancel_left M two_pos]
  have hs := tw_agree ((N'.at t).at 0) N hsin (n := 2 * M) (t := t) (by omega) (by omega) (by omega)
  have hc := twc_agree ((N'.at t).at 1) N hsin (n := 2 * M) (t := t) (by omega) (by omega) (by omega)
  have hy := Numerics.add_agree ((N'.at t).at 2) N (F64.agree_refl (elem Y t)) (F64.agree_refl (elem Y (M - t)))
  have hx := Numerics.sub_agree ((N'.at t).at 3) N (F64.agree_refl (elem X t)) (F64.agree_refl (elem X (M - t)))
  have hsum := Numerics.add_agree ((N'.at t).at 7) N (F64.agree_refl (elem X t)) (F64.agree_refl (elem X (M - t)))
  exact Numerics.mul_agree _ _ (Numerics.sub_agree _ _ (Numerics.add_agree _ _ hsum (Numerics.mul_agree _ _ hc hy))
    (Numerics.mul_agree _ _ hs hx)) (F64.agree_refl _)

/-- The line of the imaginary parts, at any place. -/
theorem rfftImag_agree (hsin : N'.sin = N.sin) (hM : 1 ≤ M) (hM' : M ≤ 2 ^ 15) (ht : t < M) :
    let s := tw N (2 * M) t
    let c := twc N (2 * M) t
    let yt := N.add (elem Y t) (elem Y (M - t))
    let xt := N.sub (elem X t) (elem X (M - t))
    F64.agree (rfftImag N' X Y (2 * M) t)
      (N.mul (N.add (N.add (N.sub (elem Y (M - t)) (elem Y t)) (N.mul s yt)) (N.mul c xt)) 0x3FE0000000000000#64) := by
  rw [rfftImag, Nat.mul_div_cancel_left M two_pos]
  have hs := tw_agree ((N'.at t).at 0) N hsin (n := 2 * M) (t := t) (by omega) (by omega) (by omega)
  have hc := twc_agree ((N'.at t).at 1) N hsin (n := 2 * M) (t := t) (by omega) (by omega) (by omega)
  have hy := Numerics.add_agree ((N'.at t).at 2) N (F64.agree_refl (elem Y t)) (F64.agree_refl (elem Y (M - t)))
  have hx := Numerics.sub_agree ((N'.at t).at 3) N (F64.agree_refl (elem X t)) (F64.agree_refl (elem X (M - t)))
  have hdiff := Numerics.sub_agree ((N'.at t).at 13) N (F64.agree_refl (elem Y (M - t))) (F64.agree_refl (elem Y t))
  exact Numerics.mul_agree _ _ (Numerics.add_agree _ _ (Numerics.add_agree _ _ hdiff (Numerics.mul_agree _ _ hs hy))
    (Numerics.mul_agree _ _ hc hx)) (F64.agree_refl _)

end

/-- Settles O35: the parts by index, and the two lines of the reconstruction. -/
theorem rfftConjugateSymmetric : Obligations.RfftConjugateSymmetric := by
  intro N x M hM r
  refine ⟨rfftF_length_fst N x _, rfftF_length_snd N x _, ?_, ?_, fun t ht htM => (elem_rfftF_mirror N x ht htM).2,
    fun hM' => ?lines⟩
  · exact (elem_rfftF_snd N x (by omega)).trans (if_pos rfl)
  · rw [elem_rfftF_snd N x (by omega), if_neg (by omega), if_pos rfl]
    rfl
  case lines =>
    intro h
    refine ⟨?_, ?_, fun t ht htM => ?_⟩
    · rw [elem_rfftF_fst N x (by omega), if_pos rfl]
      exact Numerics.add_agree _ _ (F64.agree_refl _) (F64.agree_refl _)
    · rw [elem_rfftF_fst N x (by omega), if_neg (by omega), if_pos rfl]
      exact Numerics.sub_agree _ _ (F64.agree_refl _) (F64.agree_refl _)
    · obtain ⟨⟨hreal, himag⟩, -⟩ := elem_rfftF_mirror N x ht htM
      exact ⟨hreal ▸ rfftReal_agree h.1 h.2 rfl (by omega) hM' htM,
        himag ▸ rfftImag_agree h.1 h.2 rfl (by omega) hM' htM⟩

end Sys2Proof.Machine
end

section
/-!
PROOFS. The power spectrum of a zero cepstrum (`41_spectral.md` R184): zeros stay zeros through every step from the warp
to the spectrum, and the gain between GNORM_F and IGNORM_F is exactly 1.0.
-/

namespace Sys2Proof.Machine

/-! ### Vectors of zeros -/

/-- Every element is a zero of either sign. -/
def AllZero (V : Vec) : Prop := ∀ n, F64.isZero (elem V n) = true

section
variable {V W : Vec} {x : F64}

theorem AllZero.isFinite (h : AllZero V) (n : Nat) : F64.isFinite (elem V n) = true := F64.isFinite_of_isZero (h n)

/-- Beyond its end every vector reads as +0.0. -/
theorem allZero_of_lt (h : ∀ n, n < V.length → F64.isZero (elem V n) = true) : AllZero V := fun n => by
  rcases Nat.lt_or_ge n V.length with hlt | hge
  · exact h n hlt
  · rw [elem_beyond hge]
    exact F64.isZero_zero false

theorem allZero_of_mem (h : ∀ x ∈ V, F64.isZero x = true) : AllZero V := allZero_of_lt fun n hn => by
  rw [elem, List.getD_eq_getElem _ _ hn]
  exact h _ (List.getElem_mem hn)

theorem allZero_zeros (n : Nat) : AllZero (zeros n) := fun j => by
  rw [elem_zeros]
  exact F64.isZero_zero false

theorem AllZero.append (hV : AllZero V) (hW : AllZero W) : AllZero (V ++ W) := fun n => by
  rcases Nat.lt_or_ge n V.length with hlt | hge
  · rw [elem_append_left hlt]
    exact hV n
  · rw [elem, List.getD_append_right _ _ _ _ hge]
    exact hW _

theorem AllZero.set (hV : AllZero V) (hx : F64.isZero x = true) (i : Nat) : AllZero (V.set i x) :=
  allZero_of_lt fun n hn => by
    rw [List.length_set] at hn
    by_cases heq : i = n
    · rw [heq, elem_set_same _ hn]
      exact hx
    · rw [elem_set_other _ _ heq]
      exact hV n

/-- A vector of computed zeros. -/
theorem allZero_map_range {f : Nat → F64} {n : Nat} (h : ∀ i, i < n → F64.isZero (f i) = true) :
    AllZero ((List.range n).map f) := allZero_of_mem fun x hx => by
  obtain ⟨i, hi, rfl⟩ := List.mem_map.1 hx
  exact h i (List.mem_range.1 hi)

/-- A cons of zeros. -/
theorem AllZero.cons (hx : F64.isZero x = true) (hV : AllZero V) : AllZero (x :: V) := fun n => by
  cases n with
  | zero => exact hx
  | succ n => exact hV n

/-- A gain of 1.0 and zeros: a normalized zero cepstrum. -/
structure IsUnitGain (V : Vec) : Prop where
  gain : elem V 0 = F64.lit1
  rest : ∀ n, F64.isZero (elem V (n + 1)) = true

theorem IsUnitGain.isFinite (h : IsUnitGain V) (n : Nat) : F64.isFinite (elem V n) = true := by
  cases n with
  | zero => rw [h.gain]; exact F64.isFinite_lit1
  | succ n => exact F64.isFinite_of_isZero (h.rest n)

theorem isUnitGain_cons (hx : x = F64.lit1) (hV : AllZero V) : IsUnitGain (x :: V) := ⟨hx, hV⟩

end

section
variable {N : Numerics} {c : Vec} {a g1 g2 : F64} {m m1 m2 : Nat}

/-! ### The warp -/

/-- The shift of a legal constant to zero is a legal constant: its negation. -/
theorem warpInRange_warpShift_zero (h : warpInRange a) : warpInRange (warpShift N a F64.lit0) := by
  obtain ⟨hfin, hlow, hhigh⟩ := h
  have hneg : F64.isFinite (F64.neg a) = true := (F64.isFinite_neg a).trans hfin
  have hden : (N.at 2).sub F64.lit1 ((N.at 3).mul a F64.lit0) = F64.lit1 :=
    F64.lit1_sub_zero (F64.isZero_mul_right hfin (F64.isZero_zero false))
  have hsub := F64.rounds_sub (d := (N.at 1).nan) (F64.isFinite_zero false) hfin
  rw [F64.value_zero, zero_sub, ← F64.value_neg hfin] at hsub
  obtain ⟨hnumfin, hnumvalue⟩ := F64.rounds_value hneg hsub
  have hdiv := (F64.rounds_div hnumfin F64.isFinite_lit1 (N.at 0).nan (by decide)).1
  rw [hnumvalue, F64.value_lit1, div_one] at hdiv
  obtain ⟨hshiftfin, hshiftvalue⟩ := F64.rounds_value hneg hdiv
  rw [F64.value_neg hfin] at hshiftvalue
  rw [warpShift, hden]
  refine ⟨hshiftfin, ?_, ?_⟩
  · exact (neg_lt_neg hhigh).trans_eq hshiftvalue.symm
  · exact hshiftvalue.trans_lt (neg_lt.1 hlow)

/-- A pass over zeros for a zero coefficient gives zeros. -/
theorem IsFreqtPass.allZero {b x : F64} {d g : Vec} (h : IsFreqtPass N a b x d g) (ha : F64.isFinite a = true)
    (hb : F64.isFinite b = true) (hx : F64.isZero x = true) (hd : AllZero d) : AllZero g := by
  have hzero : ∀ {y z : F64}, F64.agree y z → F64.isZero z = true → F64.isZero y = true := fun hagree hz => by
    rwa [F64.eq_of_agree_finite hagree (F64.isFinite_of_isZero hz)]
  refine allZero_of_lt fun n => ?_
  rw [h.length]
  induction n with
  | zero => exact fun _ => hzero h.first (F64.isZero_add hx (F64.isZero_mul_right ha (hd 0)))
  | succ n ih =>
    intro hn
    cases n with
    | zero =>
      exact hzero (h.second hn) (F64.isZero_add (F64.isZero_mul_right hb (hd 0)) (F64.isZero_mul_right ha (hd 1)))
    | succ n =>
      exact hzero (h.rest (n + 2) (by omega) hn)
        (F64.isZero_add (hd _) (F64.isZero_mul_right ha (F64.isZero_sub (hd _) (ih (by omega)))))

theorem allZero_freqtF (ha : warpInRange a) (hlen : c.length = m1 + 1) (hc : AllZero c) :
    AllZero (freqtF N c m1 m2 a) := by
  obtain ⟨g, hzero, hpass, hlast⟩ := freqtF_chain N m2 a hlen
  have hscale : F64.isFinite (freqtScale N a) = true := (F64.lit1_sub_mul_self ha).1
  have hall : ∀ i, i ≤ m1 + 1 → AllZero (g i) := fun i => by
    induction i with
    | zero => exact fun _ => hzero ▸ allZero_zeros _
    | succ i ih => exact fun hi => (hpass i (by omega)).allZero ha.1 hscale (hc _) (ih (by omega))
  rw [hlast]
  exact hall _ le_rfl

/-! ### The gain -/

theorem Numerics.Lawful.exp_of_isZero (hN : N.Lawful) {x : F64} (hx : F64.isZero x = true) : N.exp x = F64.lit1 := by
  rw [F64.eq_zero_of_isZero hx]
  exact hN.exp_zero _

/-- GNORM_F of zeros has gain 1.0, whatever the exponent. -/
theorem isUnitGain_gnormF (hN : N.Lawful) (hg : F64.isFinite g1 = true) (hc : AllZero c) :
    IsUnitGain (gnormF N c m g1) := by
  cases hzero : F64.isZero g1 with
  | true =>
    rw [gnormF_of_isZero N c m hzero]
    refine isUnitGain_cons ?_ (allZero_map_range fun i _ => hc _)
    rw [Numerics.expAt]
    exact (congrArg (N.at 5).drawn (hN.exp_of_isZero (hc 0))).trans (if_neg (by decide))
  | false =>
    have hgain : gnormGain N c g1 = F64.lit1 := by
      rcases F64.keeps_add (d := (N.at 0).nan) F64.isFinite_lit1
        (F64.isZero_mul_right (d := (N.at 1).nan) hg (hc 0)) with h | ⟨hone, -⟩
      · exact h
      · exact absurd hone (by decide)
    rw [gnormF_of_not_isZero N c m hzero, hgain]
    refine isUnitGain_cons ?_ (allZero_map_range fun i _ => F64.isZero_div (hc _) F64.isFinite_lit1 (by decide))
    rw [Numerics.powAt]
    exact (congrArg (N.at 2).drawn (hN.pow_one _)).trans (if_neg (by decide))

/-- IGNORM_F with exponent 0 of a gain of 1.0 and zeros gives zeros. -/
theorem allZero_ignormF (hN : N.Lawful) (hc : IsUnitGain c) : AllZero (ignormF N c m F64.lit0) := by
  rw [ignormF_of_isZero N c m (show F64.isZero F64.lit0 = true from F64.isZero_zero false)]
  refine .cons ?_ (allZero_map_range fun i _ => hc.rest i)
  have hlog : (N.at 4).logAt (elem c 0) = F64.lit0 := by
    rw [hc.gain, Numerics.logAt]
    exact (congrArg (N.at 4).drawn hN.log_one).trans (if_neg (by decide))
  rw [hlog]
  exact F64.isZero_zero false

/-! ### The conversion of exponents -/

/-- Every product of the two sums has a zero of the source as a factor. -/
theorem isZero_gc2gcSums {c2 : Vec} {i k : Nat} (hc : IsUnitGain c) (hc2 : IsUnitGain c2) (hk : k < i)
    (hi : i ≤ 65535) :
    F64.isZero (gc2gcSums N c c2 i k).1 = true ∧ F64.isZero (gc2gcSums N c c2 i k).2 = true := by
  induction k with
  | zero => exact ⟨F64.isZero_zero false, F64.isZero_zero false⟩
  | succ k ih =>
    obtain ⟨hleft, hright⟩ := ih (by omega)
    have hproduct : F64.isZero (((N.at (k + 1)).at 0).mul (elem c (k + 1)) (elem c2 (i - (k + 1)))) = true :=
      F64.isZero_mul_left (hc.rest k) (hc2.isFinite _)
    rw [gc2gcSums_succ]
    exact ⟨F64.isZero_add hleft (F64.isZero_mul_right (F64.ofNat_index (by omega) (by omega)).1 hproduct),
      F64.isZero_add hright (F64.isZero_mul_right (F64.ofNat_index (by omega) (by omega)).1 hproduct)⟩

theorem isZero_gc2gcElem {c2 : Vec} {i : Nat} (hg1 : F64.isFinite g1 = true) (hg2 : F64.isFinite g2 = true)
    (hc : IsUnitGain c) (hc2 : IsUnitGain c2) (hpos : 1 ≤ i) (hi : i ≤ 65535) :
    F64.isZero (gc2gcElem N c m1 g1 g2 c2 i) = true := by
  obtain ⟨hleft, hright⟩ := isZero_gc2gcSums (N := N.at 0) hc hc2 (i := i) (k := min m1 (i - 1)) (by omega) hi
  obtain ⟨hfin, hne⟩ := F64.ofNat_index hpos hi
  have hterm := F64.isZero_div (d := (N.at 1).nan) (F64.isZero_sub (d := (N.at 2).nan)
    (F64.isZero_mul_right (d := (N.at 3).nan) hg2 hright) (F64.isZero_mul_right (d := (N.at 4).nan) hg1 hleft)) hfin hne
  obtain ⟨j, rfl⟩ := Nat.exists_eq_add_of_le' hpos
  rw [gc2gcElem]
  split_ifs
  · exact F64.isZero_add (hc.rest j) hterm
  · exact hterm

theorem isUnitGain_gc2gcF (hg1 : F64.isFinite g1 = true) (hg2 : F64.isFinite g2 = true) (hc : IsUnitGain c)
    (hm : m2 ≤ 65535) : IsUnitGain (gc2gcF N c m1 g1 m2 g2) := by
  induction m2 with
  | zero => exact ⟨hc.gain, fun n => by
      rw [elem_beyond (by rw [gc2gcF_length]; omega)]
      exact F64.isZero_zero false⟩
  | succ m2 ih =>
    have hbefore := ih (by omega)
    have hnew := isZero_gc2gcElem (N := N.at (m2 + 1)) (m1 := m1) hg1 hg2 hc hbefore (i := m2 + 1) (by omega) hm
    rw [gc2gcF_succ]
    refine ⟨?_, fun n => ?_⟩
    · rw [elem_append_left (by rw [gc2gcF_length]; omega)]
      exact hbefore.gain
    · rcases Nat.lt_trichotomy n m2 with hlt | rfl | hgt
      · rw [elem_append_left (by rw [gc2gcF_length]; omega)]
        exact hbefore.rest n
      · have hlast := elem_append_singleton (gc2gcF N c m1 g1 n g2)
          (gc2gcElem (N.at (n + 1)) c m1 g1 g2 (gc2gcF N c m1 g1 n g2) (n + 1))
        rw [gc2gcF_length] at hlast
        rwa [hlast]
      · rw [elem_beyond (by rw [List.length_append, gc2gcF_length, List.length_singleton]; omega)]
        exact F64.isZero_zero false

/-- Both paths of MGC2MGC_F to exponent 0 and constant 0 give zeros for zeros. -/
theorem allZero_mgc2mgcF (hN : N.Lawful) (ha : warpInRange a) (hg : F64.isFinite g1 = true) (hlen : c.length = m1 + 1)
    (hc : AllZero c) (hm : m2 ≤ 65535) : AllZero (mgc2mgcF N c m1 a g1 m2 F64.lit0 F64.lit0) := by
  have hlit0 : F64.isFinite F64.lit0 = true := F64.isFinite_zero false
  have hNat : ∀ k, (N.at k).Lawful := fun k => ⟨hN.exp_zero, hN.log_one, hN.pow_one⟩
  cases hshift : F64.isZero (warpShift (N.at 0) a F64.lit0) with
  | true =>
    rw [mgc2mgcF_of_isZero N c m1 m2 a F64.lit0 g1 F64.lit0 hshift]
    exact allZero_ignormF (hNat 3) (isUnitGain_gc2gcF hg hlit0 (isUnitGain_gnormF (hNat 1) hg hc) hm)
  | false =>
    rw [mgc2mgcF_of_not_isZero N c m1 m2 a F64.lit0 g1 F64.lit0 hshift]
    have hwarp : AllZero (freqtF (N.at 4) c m1 m2 (warpShift (N.at 0) a F64.lit0)) :=
      allZero_freqtF (warpInRange_warpShift_zero ha) hlen hc
    exact allZero_ignormF (hNat 7) (isUnitGain_gc2gcF hg hlit0 (isUnitGain_gnormF (hNat 5) hg hwarp) hm)

end

end Sys2Proof.Machine
end

section
/-!
PROOFS. The spectrum of zeros where SIN is finite, and the power spectrum of a zero cepstrum (`41_spectral.md` R184).
-/

namespace Sys2Proof.Machine

/-- Both arrays hold zeros. -/
def ZeroPair (z : Pair) : Prop := AllZero z.1 ∧ AllZero z.2

/-- A loop keeps what each of its turns keeps. -/
theorem foldl_preserves {α β : Type} {P : β → Prop} {f : β → α → β} (h : ∀ z x, P z → P (f z x)) (l : List α) {z : β}
    (hz : P z) : P (l.foldl f z) := by
  induction l generalizing z with
  | nil => exact hz
  | cons x l ih => exact ih (h z x hz)

section
variable {N : Numerics} {n : Nat} {z : Pair}

/-! ### The permutation and the last stage -/

theorem AllZero.swapElems {V : Vec} (h : AllZero V) (i j : Nat) : AllZero (swapElems V i j) :=
  (h.set (h j) i).set (h i) j

theorem zeroPair_bitReverse (h : ZeroPair z) : ZeroPair (bitReverse n z) := by
  rw [bitReverse_eq]
  refine foldl_preserves (P := fun w : Nat × Pair => ZeroPair w.2) (fun w i hw => ?_) _ h
  rw [bitReverseTurn]
  split_ifs
  · exact ⟨hw.1.swapElems _ _, hw.2.swapElems _ _⟩
  · exact hw

theorem zeroPair_lastTurn (h : ZeroPair z) (i : Nat) : ZeroPair (lastTurn N z i) :=
  ⟨(h.1.set (F64.isZero_add (h.1 _) (h.1 _)) _).set (F64.isZero_sub (h.1 _) (h.1 _)) _,
    (h.2.set (F64.isZero_add (h.2 _) (h.2 _)) _).set (F64.isZero_sub (h.2 _) (h.2 _)) _⟩

theorem zeroPair_fftLastStage (h : ZeroPair z) : ZeroPair (fftLastStage N n z) := by
  rw [fftLastStage_eq]
  exact foldl_preserves (P := ZeroPair) (fun _ i hw => zeroPair_lastTurn hw i) _ h

/-! ### The stages, whose twiddles are finite -/

theorem zeroPair_fftButterfly {s c : F64} {lmx p : Nat} (hs : F64.isFinite s = true) (hc : F64.isFinite c = true)
    (h : ZeroPair z) : ZeroPair (fftButterfly N s c lmx p z) := by
  obtain ⟨hx, hy⟩ := h
  have hdx : ∀ {d}, F64.isZero (F64.sub d (elem z.1 p) (elem z.1 (p + lmx))) = true := F64.isZero_sub (hx _) (hx _)
  have hdy : ∀ {d}, F64.isZero (F64.sub d (elem z.2 p) (elem z.2 (p + lmx))) = true := F64.isZero_sub (hy _) (hy _)
  exact ⟨(hx.set (F64.isZero_add (hx _) (hx _)) _).set
      (F64.isZero_add (F64.isZero_mul_right hc hdx) (F64.isZero_mul_right hs hdy)) _,
    (hy.set (F64.isZero_add (hy _) (hy _)) _).set
      (F64.isZero_sub (F64.isZero_mul_right hc hdy) (F64.isZero_mul_right hs hdx)) _⟩

/-- A finite value of SIN is no NaN, so no draw replaces it. -/
theorem isFinite_tw (hsin : ∀ x, F64.isFinite (N.sin x) = true) (n t : Nat) : F64.isFinite (tw N n t) = true := by
  rw [tw]
  split_ifs
  · decide
  · have hfin := hsin (twArg (N.at 1) n t)
    have hdrawn : (N.at 0).sinAt (twArg (N.at 1) n t) = N.sin (twArg (N.at 1) n t) :=
      F64.eq_of_agree_finite ((N.at 0).drawn_agree _) hfin
    rwa [hdrawn]

theorem zeroPair_fftStage (hsin : ∀ x, F64.isFinite (N.sin x) = true) {lmx lf : Nat} (h : ZeroPair z) :
    ZeroPair (fftStage N n lmx lf z) := by
  rw [fftStage_eq]
  refine foldl_preserves (P := ZeroPair) (fun w j hw => ?_) _ h
  have hs : F64.isFinite (tw ((N.at j).at 0) n (j * lf)) = true := isFinite_tw (N := (N.at j).at 0) hsin n _
  have hc : F64.isFinite (twc ((N.at j).at 1) n (j * lf)) = true := isFinite_tw (N := (N.at j).at 1) hsin n _
  exact foldl_preserves (P := ZeroPair) (fun _ _ hw => zeroPair_fftButterfly hs hc hw) _ hw

theorem zeroPair_fftStages (hsin : ∀ x, F64.isFinite (N.sin x) = true) {fuel lix lf : Nat} (h : ZeroPair z) :
    ZeroPair (fftStages N n fuel lix lf z) := by
  induction fuel generalizing N lix lf z with
  | zero => exact h
  | succ fuel ih =>
    rw [fftStages]
    split_ifs
    · exact h
    · exact ih (N := N.at 1) hsin (zeroPair_fftStage (N := N.at 0) hsin h)

theorem zeroPair_fftF (hsin : ∀ x, F64.isFinite (N.sin x) = true) {x y : Vec} (hx : AllZero x) (hy : AllZero y) :
    ZeroPair (fftF N x y n) :=
  zeroPair_bitReverse (zeroPair_fftLastStage (zeroPair_fftStages (N := N.at 0) hsin ⟨hx, hy⟩))

/-! ### The real transform -/

variable {x : Vec} {M : Nat}

theorem zeroPair_halfTransform (hsin : ∀ x, F64.isFinite (N.sin x) = true) (hx : AllZero x) :
    ZeroPair (halfTransform N x M) :=
  zeroPair_fftF (N := N.at 0) hsin (allZero_map_range fun _ _ => hx _) (allZero_map_range fun _ _ => hx _)

theorem isZero_rfftReal (hsin : ∀ x, F64.isFinite (N.sin x) = true) {X Y : Vec} (hX : AllZero X) (hY : AllZero Y)
    (L t : Nat) : F64.isZero (rfftReal N X Y L t) = true := by
  have hs : F64.isFinite (tw ((N.at t).at 0) L t) = true :=
    isFinite_tw (N := (N.at t).at 0) hsin L t
  have hc : F64.isFinite (twc ((N.at t).at 1) L t) = true :=
    isFinite_tw (N := (N.at t).at 1) hsin L _
  exact F64.isZero_mul_left (F64.isZero_sub
    (F64.isZero_add (F64.isZero_add (hX _) (hX _)) (F64.isZero_mul_right hc (F64.isZero_add (hY _) (hY _))))
    (F64.isZero_mul_right hs (F64.isZero_sub (hX _) (hX _)))) (by decide)

theorem allZero_rfftF_fst (hsin : ∀ x, F64.isFinite (N.sin x) = true) (hx : AllZero x) :
    AllZero (rfftF N x (2 * M)).1 := by
  obtain ⟨hX, hY⟩ := zeroPair_halfTransform (N := N) (M := M) hsin hx
  refine allZero_of_lt fun k hk => ?_
  rw [elem_rfftF_fst N x (by rwa [rfftF_length_fst] at hk)]
  split_ifs
  · exact F64.isZero_add (hX 0) (hY 0)
  · exact F64.isZero_sub (hX 0) (hY 0)
  · exact isZero_rfftReal (N := N.at 3) hsin hX hY _ _
  · exact isZero_rfftReal (N := N.at 3) hsin hX hY _ _

/-- The real parts of the spectrum of a zero cepstrum. -/
theorem allZero_mgc2spF_fst (hN : N.Lawful) (hsin : ∀ x, F64.isFinite (N.sin x) = true) {c : Vec} {m : Nat} {a g : F64}
    (ha : warpInRange a) (hg : F64.isFinite g = true) (hlen : c.length = m + 1) (hc : AllZero c) (hM : M ≤ 65535) :
    AllZero (mgc2spF N c m a g (2 * M)).1 := by
  have hzero : AllZero (mgc2mgcF (N.at 0) c m a g (2 * M / 2) F64.lit0 F64.lit0) :=
    allZero_mgc2mgcF ⟨hN.exp_zero, hN.log_one, hN.pow_one⟩ ha hg hlen hc (by omega)
  rw [mgc2spF, c2spF_of_length _ _ (mgc2mgcF_length _ _ _ _ _ _ _ _)]
  exact allZero_rfftF_fst (N := N.at 1) hsin (hzero.append (allZero_zeros _))

end

/-- Settles O36: zeros up to the spectrum, and EXP of twice a zero is 1.0. -/
theorem powspOfZeroCepstrumIsOne : Obligations.PowspOfZeroCepstrumIsOne := by
  intro N c m k a g hN hsin hlen hc _ ha hg hk hk'
  obtain ⟨i, rfl⟩ := Nat.exists_eq_add_of_le' (show 1 ≤ k by omega)
  have hsize : 2 ^ i ≤ 2 ^ 15 := Nat.pow_le_pow_right two_pos (by omega)
  have hspectrum : AllZero (mgc2spF (N.at 0) c m a g (2 * 2 ^ i)).1 :=
    allZero_mgc2spF_fst (N := N.at 0) ⟨hN.exp_zero, hN.log_one, hN.pow_one⟩ hsin ((warpLegal_iff_warpInRange a).1 ha)
      ((exponentLegal_iff_exponentInRange g).1 hg).1 hlen (allZero_of_mem hc) (by omega)
  rw [pow_succ']
  refine List.eq_replicate_iff.2 ⟨by rw [powspF, List.length_map, List.length_range], fun x hx => ?_⟩
  rw [powspF] at hx
  obtain ⟨j, -, rfl⟩ := List.mem_map.1 hx
  have hone := hN.exp_of_isZero (F64.isZero_mul_right (d := ((N.at 2).at j).nan) (x := F64.lit2) (by decide)
    (hspectrum j))
  exact (congrArg ((N.at 1).at j).drawn hone).trans (if_neg (by decide))

end Sys2Proof.Machine
end
